-- ==== Sys2Proof/Word.lean ====
section
/-! DEFINITION. The word types of the block: bytes of LMEM and of the buffers, 16-bit values (the CRC,
the threshold) and the 32-bit registers (00_scope.md R14, 10_state.md R23). -/

namespace Sys2Proof

/-- A byte, the spec's `u8` (00_scope.md R14). -/
abbrev Byte := BitVec 8

/-- A 16-bit value, the spec's 16-bit fields and the CRC-16 (00_scope.md R11, R14). -/
abbrev Half := BitVec 16

/-- A 32-bit register or command word, the spec's `u32` (00_scope.md R14, 10_state.md R23). -/
abbrev Word := BitVec 32

/-- A byte sequence, first byte first (00_scope.md R14). -/
abbrev Bytes := List Byte

end Sys2Proof
end

