-- ==== Sys2Proof/Syntax.lean ====
section
/-! DEFINITION. The 22 commands of LCC-1, one constructor per row of spec/opcode_table.json
(30_encoding.md R85). A command whose IMM8 kind is not Z keeps its IMM8 as it stands in the word: an
IMM8 outside its kind still decodes, and raises INVALID_PARAM when it runs (30_encoding.md R82, R91). -/

namespace Sys2Proof

/-- A command of LCC-1 (30_encoding.md R85), named as the opcode map names it. -/
inductive Instr where
  | nop
  | softReset
  | kissEscape
  | kissUnescape
  | findFrame (imm : Byte)
  | bufWrite (imm : Byte)
  | bufPeek (imm : Byte)
  | bufPop (imm : Byte)
  | bufClear (imm : Byte)
  | scrBit (imm : Byte)
  | descrBit (imm : Byte)
  | scrBlock
  | descrBlock
  | rsEncode (imm : Byte)
  | rsDecode (imm : Byte)
  | crcCalc
  | crcVerify
  | hdrBuild
  | hdrParse
  | fcEncode
  | fcDecode
  | arbStep (imm : Byte)
  deriving DecidableEq, Repr

/-- The kinds of IMM8 (30_encoding.md R82). -/
inductive ImmKind where
  | z
  | buf
  | nr
  | bit
  | af
  deriving DecidableEq, Repr

/-- The IMM8 kind of each command (30_encoding.md R85, column "imm"). -/
def Instr.immKind : Instr → ImmKind
  | .nop => .z
  | .softReset => .z
  | .kissEscape => .z
  | .kissUnescape => .z
  | .findFrame _ => .buf
  | .bufWrite _ => .buf
  | .bufPeek _ => .buf
  | .bufPop _ => .buf
  | .bufClear _ => .buf
  | .scrBit _ => .bit
  | .descrBit _ => .bit
  | .scrBlock => .z
  | .descrBlock => .z
  | .rsEncode _ => .nr
  | .rsDecode _ => .nr
  | .crcCalc => .z
  | .crcVerify => .z
  | .hdrBuild => .z
  | .hdrParse => .z
  | .fcEncode => .z
  | .fcDecode => .z
  | .arbStep _ => .af

/-- The IMM8 field of a command's word; 0 for kind Z (30_encoding.md R82). -/
def Instr.imm8 : Instr → Byte
  | .nop => 0
  | .softReset => 0
  | .kissEscape => 0
  | .kissUnescape => 0
  | .findFrame imm => imm
  | .bufWrite imm => imm
  | .bufPeek imm => imm
  | .bufPop imm => imm
  | .bufClear imm => imm
  | .scrBit imm => imm
  | .descrBit imm => imm
  | .scrBlock => 0
  | .descrBlock => 0
  | .rsEncode imm => imm
  | .rsDecode imm => imm
  | .crcCalc => 0
  | .crcVerify => 0
  | .hdrBuild => 0
  | .hdrParse => 0
  | .fcEncode => 0
  | .fcDecode => 0
  | .arbStep imm => imm

end Sys2Proof
end

