-- ==== Sys2Proof/Decode.lean ====
section
/-! DEFINITION. Decoding and encoding of the one command format C (30_encoding.md R80 to R88). The decoder
is total and reads exactly one 32-bit word; a word that matches no row is rejected by name, and the
command engine reports it as ILLEGAL_COMMAND (30_encoding.md R87). -/

namespace Sys2Proof

/-- Why a word matches no row of the opcode map (30_encoding.md R87). -/
inductive DecodeError where
  /-- RSV [31:16] is not 0. -/
  | reservedBits
  /-- The opcode is assigned to no command (30_encoding.md R88). -/
  | unassignedOpcode
  /-- The opcode's IMM8 kind is Z and IMM8 is not 0. -/
  | immediateNotZero
  deriving DecidableEq, Repr

/-- OPC = w[7:0] (30_encoding.md R81). -/
def opcField (w : Word) : Byte := w.extractLsb' 0 8

/-- IMM8 = w[15:8] (30_encoding.md R81). -/
def immField (w : Word) : Byte := w.extractLsb' 8 8

/-- RSV = w[31:16] (30_encoding.md R81). -/
def rsvField (w : Word) : Half := w.extractLsb' 16 16

/-- The command with opcode `opc` and immediate `imm`, if the opcode is assigned (30_encoding.md R85); a
command of kind Z drops the immediate here, and `decode` checks it. -/
def ofOpcode (opc imm : Byte) : Option Instr :=
  match opc.toNat with
  | 0x00 => some .nop
  | 0x01 => some .softReset
  | 0x10 => some .kissEscape
  | 0x11 => some .kissUnescape
  | 0x12 => some (.findFrame imm)
  | 0x13 => some (.bufWrite imm)
  | 0x14 => some (.bufPeek imm)
  | 0x15 => some (.bufPop imm)
  | 0x16 => some (.bufClear imm)
  | 0x20 => some (.scrBit imm)
  | 0x21 => some (.descrBit imm)
  | 0x22 => some .scrBlock
  | 0x23 => some .descrBlock
  | 0x30 => some (.rsEncode imm)
  | 0x31 => some (.rsDecode imm)
  | 0x38 => some .crcCalc
  | 0x39 => some .crcVerify
  | 0x40 => some .hdrBuild
  | 0x41 => some .hdrParse
  | 0x42 => some .fcEncode
  | 0x43 => some .fcDecode
  | 0x50 => some (.arbStep imm)
  | _ => none

/-- The row a word selects, or why it selects none (30_encoding.md R86, R87): RSV must be 0, the opcode
assigned, and IMM8 0 where the kind is Z. -/
def decode (w : Word) : Except DecodeError Instr :=
  if rsvField w ≠ 0 then .error .reservedBits
  else
    match ofOpcode (opcField w) (immField w) with
    | none => .error .unassignedOpcode
    | some i => if i.imm8 = immField w then .ok i else .error .immediateNotZero

/-- The opcode of each command (30_encoding.md R85). -/
def Instr.opcode : Instr → Byte
  | .nop => 0x00
  | .softReset => 0x01
  | .kissEscape => 0x10
  | .kissUnescape => 0x11
  | .findFrame _ => 0x12
  | .bufWrite _ => 0x13
  | .bufPeek _ => 0x14
  | .bufPop _ => 0x15
  | .bufClear _ => 0x16
  | .scrBit _ => 0x20
  | .descrBit _ => 0x21
  | .scrBlock => 0x22
  | .descrBlock => 0x23
  | .rsEncode _ => 0x30
  | .rsDecode _ => 0x31
  | .crcCalc => 0x38
  | .crcVerify => 0x39
  | .hdrBuild => 0x40
  | .hdrParse => 0x41
  | .fcEncode => 0x42
  | .fcDecode => 0x43
  | .arbStep _ => 0x50

/-- The word of a command: OPC, IMM8, and RSV = 0 (30_encoding.md R80). -/
def encode (i : Instr) : Word := (0#16 ++ i.imm8 ++ i.opcode).setWidth 32

/-- The command the decoder reads from an instruction whose bits are `w`, `nbits` of them given and the
rest 0. The format is one 32-bit word, so bit k of `w` is bit k of the command word (30_encoding.md R80). -/
def decodeTableWord (nbits w : Nat) : Option Instr :=
  match decode (BitVec.ofNat 32 (w % 2 ^ nbits)) with
  | .ok i => some i
  | .error _ => none

end Sys2Proof
end

