-- ==== Sys2Proof/Config.lean ====
section
/-! DEFINITION. The parameters of the block as plain data (00_scope.md R10), and the free values of the
model: the bytes the spec leaves unspecified at power-on (10_state.md R43, R44). The test instantiation
P0 and the constraints on the parameters stand in Sys2Proof/Machine/Params.lean. -/

namespace Sys2Proof

/-- The two circular buffers, buffer 0 and buffer 1 (10_state.md R42). -/
inductive BufSel where
  | cmd
  | data
  deriving DecidableEq, Repr

/-- A linear function of a state and an input bit: the sum (XOR) of the tapped state bits, and of the input
bit when `input` holds (41_scrambler.md R140; log 4). -/
structure BitSum where
  taps : List Nat
  input : Bool
  deriving DecidableEq, Repr

/-- A scrambler or descrambler bit function as plain data, half of the parameter SCR_FN (41_scrambler.md
R140; log 4): the output bit, and for every bit of the next state, from bit 0 on, the sum it takes. -/
structure ShiftFn where
  out : BitSum
  next : List BitSum
  deriving DecidableEq, Repr

/-- The implementation parameters (00_scope.md R10) and the platform's base address (20_memory.md R60, R72,
93_implementation_defined.md I15). -/
structure Config where
  /-- BLOCK_BASE, the address of offset 0 of the block window (20_memory.md R60; log 11). -/
  blockBase : Nat
  /-- LMEM_SIZE, bytes of local memory. -/
  lmemSize : Nat
  /-- CMD_CAP, capacity of the command buffer. -/
  cmdCap : Nat
  /-- DATA_CAP, capacity of the data buffer. -/
  dataCap : Nat
  /-- SCR_W, width of the scrambler registers. -/
  scrWidth : Nat
  /-- The scramble_bit half of SCR_FN. -/
  scrambler : ShiftFn
  /-- The descramble_bit half of SCR_FN. -/
  descrambler : ShiftFn
  /-- SCR_TX_SEED. -/
  scrTxSeed : Word
  /-- SCR_RX_SEED. -/
  scrRxSeed : Word
  /-- SCR_SKIP, the flush bits (log 5). -/
  scrSkip : Nat
  /-- RS_GFPOLY, bit i the coefficient of x^i. -/
  rsGfPoly : BitVec 9
  /-- RS_FCR, the first consecutive root (log 5). -/
  rsFcr : Nat
  /-- RS_PRIM, the primitive element (log 5). -/
  rsPrim : Nat
  /-- HAM_ENC, indexed by the nibble. -/
  hamEnc : Vector Byte 16
  /-- CRC_INIT. -/
  crcInit : Half
  /-- CRC_REFIN. -/
  crcRefIn : Bool
  /-- CRC_REFOUT. -/
  crcRefOut : Bool
  /-- CRC_XOROUT. -/
  crcXorOut : Half
  /-- HDR_TEMPLATE. -/
  hdrTemplate : Vector Byte 13
  /-- HDR_LEN_POS: entry j is the (byte, bit) position of length bit j. -/
  hdrLenPos : Vector (Fin 13 × Fin 8) 10
  /-- SYNC. -/
  sync : Vector Byte 3
  /-- SETTLE_TICKS. -/
  settleTicks : Word
  /-- CCA_RESET, as its 16 bits. The model leaves it an argument; its value at P0 is 0x8000 (log 24). -/
  ccaReset : Half
  deriving DecidableEq, Repr

/-- FREE VALUE: what LMEM byte `a` holds after power-on while nothing has written it (10_state.md R44 and
93_implementation_defined.md I2: a draw, never zero; log 9). No body: nothing can be proved of it. -/
opaque Config.lmemPowerOn : Nat → Byte

/-- FREE VALUE: what byte `i` of a buffer's store holds after power-on while nothing has written it
(10_state.md R43 and 93_implementation_defined.md I3: unspecified and unobservable; log 10). -/
opaque Config.storePowerOn : BufSel → Nat → Byte

end Sys2Proof
end

