-- ==== Sys2Proof/Machine/Field.lean ====
section
/-! DEFINITION. The field GF(256) by log and antilog tables (00_scope.md R16, 42_reed_solomon.md R161,
R163): pure functions of RS_GFPOLY. A table of bytes is held packed in one number, entry i in bits
8i+7 to 8i. -/

namespace Sys2Proof.Machine

/-- A table of bytes, entry i in bits 8i+7 to 8i of `packed`. -/
structure ByteTable where
  packed : Nat
  deriving DecidableEq, Repr

/-- Entry `i` of a table. -/
def ByteTable.get (t : ByteTable) (i : Nat) : Byte := BitVec.ofNat 8 (t.packed >>> (8 * i))

/-- The table with entry `i` replaced by `v`. -/
def ByteTable.set (t : ByteTable) (i : Nat) (v : Byte) : ByteTable :=
  ⟨t.packed ^^^ ((t.get i ^^^ v).toNat <<< (8 * i))⟩

/-- The tables ALPHA_TO and INDEX_OF (42_reed_solomon.md R161). -/
structure GfTables where
  alphaTo : ByteTable
  indexOf : ByteTable
  deriving DecidableEq, Repr

/-- One turn of the shift register of R161: shift left, reduce by the field polynomial, keep 8 bits. -/
def gfDouble (poly : BitVec 9) (sr : Byte) : Byte :=
  let d : BitVec 9 := sr.setWidth 9 <<< 1
  if d.getLsbD 8 then (d ^^^ poly).setWidth 8 else d.setWidth 8

/-- The loop of R161 from exponent `i` on, `n` turns left, with the shift register at `sr`. -/
def gfTablesFrom (poly : BitVec 9) : Nat → Nat → Byte → GfTables → GfTables
  | 0, _, _, t => t
  | n + 1, i, sr, t =>
    gfTablesFrom poly n (i + 1) (gfDouble poly sr)
      { alphaTo := t.alphaTo.set i sr, indexOf := t.indexOf.set sr.toNat (BitVec.ofNat 8 i) }

/-- ALPHA_TO and INDEX_OF of a field polynomial (42_reed_solomon.md R161): INDEX_OF[0] and ALPHA_TO[255]
are the sentinel entries, the rest comes from 255 turns of the loop. -/
def gfTables (poly : BitVec 9) : GfTables :=
  gfTablesFrom poly 255 0 1 { alphaTo := ⟨0⟩, indexOf := (ByteTable.mk 0).set 0 255 }

/-- α^e = ALPHA_TO[e mod 255] (00_scope.md R16). -/
def gfExp (t : GfTables) (e : Nat) : Byte := t.alphaTo.get (e % 255)

/-- INDEX_OF[a], 255 for the zero element (00_scope.md R16). -/
def gfLog (t : GfTables) (a : Byte) : Nat := (t.indexOf.get a.toNat).toNat

/-- Field multiplication (42_reed_solomon.md R161). -/
def gfMul (t : GfTables) (a b : Byte) : Byte :=
  if a = 0 ∨ b = 0 then 0 else gfExp t (gfLog t a + gfLog t b)

/-- The field inverse by the formula of R161. The spec applies it to nonzero elements only; log 16 says
what the formula gives at 0. -/
def gfInv (t : GfTables) (a : Byte) : Byte := gfExp t (255 - gfLog t a)

/-- The shift register of R161 after `n` turns from `sr`. -/
def gfDoubleIter (poly : BitVec 9) : Nat → Byte → Byte
  | 0, sr => sr
  | n + 1, sr => gfDoubleIter poly n (gfDouble poly sr)

/-- The number of turns, at most `n`, before the shift register of R161 returns to 1 after leaving `sr`;
`n` if it does not. -/
def gfTurnsToOne (poly : BitVec 9) : Nat → Byte → Nat
  | 0, _ => 0
  | n + 1, sr => if gfDouble poly sr = 1 then 0 else gfTurnsToOne poly n (gfDouble poly sr) + 1

/-- RS_GFPOLY is primitive of degree 8: the loop of R161 returns to 1 after 255 turns and not before
(00_scope.md R10). -/
def gfPrimitive (poly : BitVec 9) : Bool :=
  poly.getLsbD 8 && gfTurnsToOne poly 255 1 == 254

end Sys2Proof.Machine
end

