-- ==== Sys2Proof/Machine/ShiftRegister.lean ====
section
/-! DEFINITION. The bit functions of SCR_FN and what a model checks of them: their structure, and that the
pair inverts (41_scrambler.md R140, R150; log 4). -/

namespace Sys2Proof.Machine

/-- The sum (XOR) of the tapped bits of a state. -/
def tapSum (taps : List Nat) (s : Word) : Bool := taps.foldr (fun k acc => s.getLsbD k ^^ acc) false

/-- The value of a sum for input `x` in state `s`. -/
def bitSum (b : BitSum) (x : Bool) (s : Word) : Bool := tapSum b.taps s ^^ (b.input && x)

/-- The output bit of a bit function for input `x` in state `s` (41_scrambler.md R140). -/
def shiftOut (f : ShiftFn) (x : Bool) (s : Word) : Bool := bitSum f.out x s

/-- The number with the given bits, bit 0 first. -/
def bitsNumber (bits : List Bool) : Nat := bits.foldr (fun b acc => b.toNat + 2 * acc) 0

/-- The next state of a bit function for input `x` in state `s`: bit k is entry k of `next`
(41_scrambler.md R140). -/
def shiftNext (f : ShiftFn) (x : Bool) (s : Word) : Word :=
  BitVec.ofNat 32 (bitsNumber (f.next.map fun b => bitSum b x s))

/-- A bit function run over a bit sequence: the outputs and the last state. -/
def shiftRun (f : ShiftFn) : List Bool → Word → List Bool × Word
  | [], s => ([], s)
  | x :: xs, s =>
    let r := shiftRun f xs (shiftNext f x s)
    (shiftOut f x s :: r.1, r.2)

/-! ### The structure R140 fixes -/

/-- The taps of a sum are different bits of a register of `w` bits. -/
def bitSumFits (b : BitSum) (w : Nat) : Bool := b.taps.all (· < w) && decide b.taps.Nodup

/-- A bit function of a register of `w` bits: one entry for each bit, every tap inside the register. -/
def shiftFnFits (f : ShiftFn) (w : Nat) : Bool :=
  f.next.length == w && bitSumFits f.out w && f.next.all (bitSumFits · w)

/-- The register shifts towards bit 0: every bit but the highest takes its upper neighbour. The bit shifted in
goes to the highest and has the property `entering`. -/
def shiftsDown (f : ShiftFn) (entering : BitSum → Bool) : Bool :=
  (f.next.dropLast.zipIdx.all fun p => p.1.taps.contains (p.2 + 1)) && f.next.getLast?.any entering

/-- The register shifts away from bit 0: every bit but bit 0 takes its lower neighbour. The bit shifted in goes
to bit 0 and has the property `entering`. -/
def shiftsUp (f : ShiftFn) (entering : BitSum → Bool) : Bool :=
  (f.next.tail.zipIdx.all fun p => p.1.taps.contains p.2) && f.next.head?.any entering

/-- The structure of scramble_bit that 41_scrambler.md R140 fixes: the output is the sum of two different state
bits, and a combination of the input bit and state bits is shifted in. -/
def scramblerShape (f : ShiftFn) (w : Nat) : Bool :=
  let entering (b : BitSum) : Bool := b.input && !b.taps.isEmpty
  shiftFnFits f w && !f.out.input && f.out.taps.length == 2 && (shiftsDown f entering || shiftsUp f entering)

/-- The structure of descramble_bit that 41_scrambler.md R140 fixes: the output is the input bit and one state
bit. A sum uses nothing but the input bit and the state. -/
def descramblerShape (f : ShiftFn) (w : Nat) : Bool :=
  shiftFnFits f w && f.out.input && f.out.taps.length == 1 &&
    (shiftsDown f (fun _ => true) || shiftsUp f (fun _ => true))

/-! ### That the pair inverts -/

/-- A bit as a formal sum of unknown input bits and the constant 1: bit i of the number is the coefficient of
unknown i, and the last one, SCR_SKIP + 1, stands for the constant. -/
abbrev FormalBit := Nat

/-- A sum of a bit function over formal bits. -/
def formalSum (b : BitSum) (x : FormalBit) (s : List FormalBit) : FormalBit :=
  b.taps.foldr (fun k acc => s.getD k 0 ^^^ acc) (if b.input then x else 0)

/-- The outputs of a bit function run over formal input bits from a state of formal bits, bit 0 first. -/
def formalRun (f : ShiftFn) : List FormalBit → List FormalBit → List FormalBit
  | [], _ => []
  | x :: xs, s => formalSum f.out x s :: formalRun f xs (f.next.map fun b => formalSum b x s)

/-- The `n` formal input bits of the check: the unknowns 0 to SCR_SKIP, then zeros. -/
def unknownBits (c : Config) (n : Nat) : List FormalBit :=
  (List.range n).map fun t => if t ≤ c.scrSkip then 1 <<< t else 0

/-- A seed as formal bits, constants all. -/
def seedBits (c : Config) (seed : Word) : List FormalBit :=
  (List.range c.scrWidth).map fun k => (seed.getLsbD k).toNat <<< (c.scrSkip + 1)

/-- The pair inverts (41_scrambler.md R140, R150): unknown input bits scrambled from SCR_TX_SEED, the first
SCR_SKIP outputs dropped, and descrambled from SCR_RX_SEED come back as the same unknowns, and the zeros after
them as zeros. The check is exact, because the functions are linear: an input is a sum of single 1 bits, one
later than SCR_SKIP acts as the one at SCR_SKIP does, moved; and the output after the last 1 follows a
recurrence of order at most 2·SCR_W, the bits of the two registers, so 2·SCR_W zeros mean zeros for ever (log
4). -/
def pairInverts (c : Config) : Bool :=
  let n := 2 * c.scrWidth + c.scrSkip + 1
  let sent := (formalRun c.scrambler (unknownBits c (n + c.scrSkip)) (seedBits c c.scrTxSeed)).drop c.scrSkip
  formalRun c.descrambler sent (seedBits c c.scrRxSeed) == unknownBits c n

end Sys2Proof.Machine
end

