-- ==== Sys2Proof/Machine/Params.lean ====
section
/-! DEFINITION. The constants the spec fixes, the test instantiation P0 of the parameters, and the
constraints a model must check on them (00_scope.md R10, R11). -/

namespace Sys2Proof.Machine

/-- The KISS delimiter (00_scope.md R11). -/
def fend : Byte := 0xC0

/-- The KISS escape byte (00_scope.md R11). -/
def fesc : Byte := 0xDB

/-- The token of an escaped delimiter (00_scope.md R11). -/
def tfend : Byte := 0xDC

/-- The token of an escaped escape byte (00_scope.md R11). -/
def tfesc : Byte := 0xDD

/-- NMAX, the longest payload (00_scope.md R12). -/
def nMax : Nat := 239

/-- The header's RS parity count (00_scope.md R11). -/
def hdrParity : Nat := 2

/-- The payload's RS parity count (00_scope.md R11). -/
def payParity : Nat := 16

/-- The length of the IL2P header in bytes (00_scope.md R11). -/
def hdrLen : Nat := 13

/-- The P0 scramble_bit (41_scrambler.md R141): the output is s[0] XOR s[4]; bit 8 becomes x XOR s[0] and
bit 3 becomes s[4] XOR s[0]. -/
def p0Scrambler : ShiftFn :=
  { out := ⟨[0, 4], false⟩,
    next := [⟨[1], false⟩, ⟨[2], false⟩, ⟨[3], false⟩, ⟨[4, 0], false⟩, ⟨[5], false⟩, ⟨[6], false⟩, ⟨[7], false⟩,
      ⟨[8], false⟩, ⟨[0], true⟩] }

/-- The P0 descramble_bit (41_scrambler.md R143): the output is x XOR r[0]; bit 8 becomes x and bit 3 becomes
r[4] XOR x. -/
def p0Descrambler : ShiftFn :=
  { out := ⟨[0], true⟩,
    next := [⟨[1], false⟩, ⟨[2], false⟩, ⟨[3], false⟩, ⟨[4], true⟩, ⟨[5], false⟩, ⟨[6], false⟩, ⟨[7], false⟩,
      ⟨[8], false⟩, ⟨[], true⟩] }

/-- The test instantiation P0 (00_scope.md R10). It gives BLOCK_BASE no value; 0 is the model's choice (log
11). -/
def p0 : Config :=
  { blockBase := 0, lmemSize := 4096, cmdCap := 64, dataCap := 1024,
    scrWidth := 9, scrambler := p0Scrambler, descrambler := p0Descrambler,
    scrTxSeed := 0x00F, scrRxSeed := 0x1F0, scrSkip := 5,
    rsGfPoly := 0x11D, rsFcr := 0, rsPrim := 1,
    hamEnc := #v[0x00, 0x71, 0x62, 0x13, 0x54, 0x25, 0x36, 0x47, 0x38, 0x49, 0x5A, 0x2B, 0x6C, 0x1D, 0x0E, 0x7F],
    crcInit := 0xFFFF, crcRefIn := false, crcRefOut := false, crcXorOut := 0,
    hdrTemplate := #v[0, 0, 0, 0, 0, 0, 0, 0, 0, 0, 0, 0, 0],
    hdrLenPos := #v[(11, 7), (10, 7), (9, 7), (8, 7), (7, 7), (6, 7), (5, 7), (4, 7), (3, 7), (2, 7)],
    sync := #v[0xF1, 0x5E, 0x48],
    settleTicks := 1000, ccaReset := 0x8000 }

/-- The number of 1 bits of a byte. -/
def popcount (v : Byte) : Nat := ((List.range 8).filter fun i => v.getLsbD i).length

/-- HAM_ENC has distinct entries and corrects every single-bit change of every entry (90_conflicts.md C5,
43_hamming_crc.md R195): any two entries differ in three bits or more (log 22). -/
def hamEncCorrects (entries : List Byte) : Bool := decide (entries.Pairwise fun a b => 3 ≤ popcount (a ^^^ b))

/-- SCR_SKIP, RS_FCR and RS_PRIM have the values the source settles (00_scope.md R11, 42_reed_solomon.md R160;
log 5). -/
def sourceValues (c : Config) : Bool := c.scrSkip == 5 && c.rsFcr == 0 && c.rsPrim == 1

/-- What 41_scrambler.md R140 and R150 require of the scrambler's parameters: the structure of the two functions,
distinct seeds inside SCR_W bits, and that the pair inverts (logs 3 and 4). -/
def scramblerValid (c : Config) : Bool :=
  (1 ≤ c.scrWidth && c.scrWidth ≤ 32) &&
  scramblerShape c.scrambler c.scrWidth && descramblerShape c.descrambler c.scrWidth &&
  (c.scrTxSeed.toNat < 2 ^ c.scrWidth && c.scrRxSeed.toNat < 2 ^ c.scrWidth) &&
  c.scrTxSeed != c.scrRxSeed && pairInverts c

/-- The constraints a model must check on its parameters (00_scope.md R10), with what R11, R140, R150, R160, R195
and R212 add to them (logs 3, 4, 5, 15 and 22). CCA_RESET may be any s16 (log 24). -/
def paramsValid (c : Config) : Bool :=
  (1024 ≤ c.lmemSize && c.lmemSize ≤ 61440) &&
  (3 ≤ c.cmdCap && c.cmdCap ≤ 65535) && (3 ≤ c.dataCap && c.dataCap ≤ 65535) &&
  sourceValues c && scramblerValid c && gfPrimitive c.rsGfPoly &&
  hamEncCorrects c.hamEnc.toList &&
  decide (c.hdrLenPos.toList.map Prod.fst).Nodup &&
  c.settleTicks.toNat < 2 ^ 31

end Sys2Proof.Machine
end

