-- ==== Sys2Proof/Machine/State.lean ====
section
/-! DEFINITION. The state of the block (10_state.md R20 to R47) and its value after power-on reset
(70_reset_and_hazards.md R301). Registers are held by their named fields, so a reserved bit has no place
(10_state.md R24; log 12); the register words are computed in Sys2Proof/Machine/HostPort.lean. -/

namespace Sys2Proof.Machine

/-- The result codes of STATUS.CODE (60_exceptions.md R271). Every other value is never written. -/
inductive ResultCode where
  | ok
  | notFound
  | channelBusy
  | frameCorrupt
  | bufferOverflow
  | uncorrectable
  | headerUncorrectable
  | payloadUncorrectable
  | crcMismatch
  | frameLength
  | illegalCommand
  | invalidParam
  | invalidLength
  | addressError
  deriving DecidableEq, Repr

/-- STATUS (10_state.md R26). -/
structure Status where
  code : ResultCode
  crcBad : Bool
  noTrailer : Bool
  discarded : Bool
  deriving DecidableEq, Repr

/-- Bytes by address: the entries are the bytes written since power-on, addresses strictly rising. An
unlisted address has never been written (log 9). -/
abbrev Memory := List Host.Cell

/-- One circular byte buffer (10_state.md R42) with its sticky overflow flag (R27) and its drop counter
(R39). -/
structure Buffer where
  head : Nat
  count : Nat
  store : Memory
  ovf : Bool
  drops : Half
  deriving DecidableEq, Repr

/-- ARB_STATE.MODE (10_state.md R34); the value 3 is never held (93_implementation_defined.md I20; log 13). -/
inductive ArbMode where
  | receiving
  | assessing
  | transmitting
  deriving DecidableEq, Repr

/-- The arbiter's state (10_state.md R34 to R36, 45_channel_arbiter.md R240). -/
structure Arbiter where
  mode : ArbMode
  clearValid : Bool
  clearStart : Word
  lastBusy : Word
  deriving DecidableEq, Repr

/-- FC_STAGE.TX_STAGE (10_state.md R40). -/
inductive TxStage where
  | idle
  | headerBuilt
  | headerScrambled
  | headerEncoded
  | payloadScrambled
  | payloadEncoded
  | crcAppended
  | ready
  deriving DecidableEq, Repr

/-- FC_STAGE.RX_STAGE (10_state.md R40); the values 1 to 6 are never held (93_implementation_defined.md
I20; log 13). -/
inductive RxStage where
  | noneYet
  | delivered
  | discarded
  deriving DecidableEq, Repr

/-- FC_STAGE (10_state.md R40). -/
structure FcStage where
  tx : TxStage
  rx : RxStage
  deriving DecidableEq, Repr

/-- One access by the host to the block (20_memory.md R60, R65): its width in bytes, its address on the
platform, BLOCK_BASE and the window offset together, and for a write the value. -/
inductive HostAccess where
  | read (width address : Nat)
  | write (width address : Nat) (value : Word)
  deriving DecidableEq, Repr

/-- The MODEL's own field, not the spec's: the host's side of the block. `pending` holds the accesses not
yet performed in the host's issue order (20_memory.md R74; log 7); `observed` the values its reads returned,
newest first (log 8). -/
structure HostPort where
  pending : List HostAccess
  observed : List Word
  deriving DecidableEq, Repr

/-- The state of the block (10_state.md R20), its parameters (00_scope.md R10; log 1) and the host's side. -/
structure State where
  cfg : Config
  cmd : Word
  status : Status
  crcStrict : Bool
  ccaThreshold : Half
  arg0 : Word
  arg1 : Word
  arg2 : Word
  arg3 : Word
  result0 : Word
  result1 : Word
  result2 : Word
  scrTx : Word
  scrRx : Word
  arb : Arbiter
  cmdBuf : Buffer
  dataBuf : Buffer
  fcStage : FcStage
  lmem : Memory
  port : HostPort
  deriving DecidableEq, Repr

/-- The faults of the model. No result code is one (60_exceptions.md R284). -/
inductive Fault where
  /-- Raised by `step` when the parameters in `State.cfg` break a constraint of 00_scope.md R10, which a
  model must check. Safe: the machine stops (log 2). -/
  | parameterConstraint
  deriving DecidableEq, Repr

/-- The refusals of the model: a host access that has no step (20_memory.md R63). -/
inductive Refusal where
  /-- Raised by an arm of `exec` whose command has no meaning yet. Safe: the machine stops. -/
  | notModelled (mnemonic : String)
  /-- Raised by a host access to an address below BLOCK_BASE, which is outside the block window (20_memory.md
  R60; log 11). Safe: no step. -/
  | outsideWindow (address : Nat)
  /-- Raised by a host access some byte of which lies at an unmapped offset (20_memory.md R60, R63). Safe:
  no step. -/
  | unmappedOffset (offset : Nat)
  /-- Raised by a host access of a width 20_memory.md R65 does not give (R63). Safe: no step. -/
  | wrongWidth (width offset : Nat)
  /-- Raised by a 32-bit host access whose offset is no multiple of 4 (20_memory.md R66, R63). Safe: no
  step. -/
  | misaligned (offset : Nat)
  deriving DecidableEq, Repr

/-- STATUS after reset and at the start of every command (10_state.md R26). -/
def statusClear : Status := { code := .ok, crcBad := false, noTrailer := false, discarded := false }

/-- A buffer after power-on (10_state.md R43): empty, head 0, the store's bytes unspecified (log 10), no
overflow reported. -/
def bufferPowerOn : Buffer := { head := 0, count := 0, store := [], ovf := false, drops := 0 }

/-- The arbiter after either reset (70_reset_and_hazards.md R301). -/
def arbiterReset : Arbiter := { mode := .receiving, clearValid := false, clearStart := 0, lastBusy := 0 }

/-- FC_STAGE after either reset (70_reset_and_hazards.md R301). -/
def fcStageReset : FcStage := { tx := .idle, rx := .noneYet }

/-- The block right after power-on reset, for parameters `c` (70_reset_and_hazards.md R301, the power-on
column). -/
def State.powerOn (c : Config) : State :=
  { cfg := c, cmd := 0, status := statusClear, crcStrict := false, ccaThreshold := c.ccaReset,
    arg0 := 0, arg1 := 0, arg2 := 0, arg3 := 0, result0 := 0, result1 := 0, result2 := 0,
    scrTx := c.scrTxSeed, scrRx := c.scrRxSeed, arb := arbiterReset,
    cmdBuf := bufferPowerOn, dataBuf := bufferPowerOn, fcStage := fcStageReset, lmem := [],
    port := { pending := [], observed := [] } }

/-- The machine right after reset: power-on at the test instantiation P0 (log 1). -/
def State.reset : State := State.powerOn p0

end Sys2Proof.Machine
end

