-- ==== Sys2Proof/Machine/Flags.lean ====
section
/-! DEFINITION. The flag computations: the numeric value of every result code (60_exceptions.md R271), the
saturating drop counter and the write-one-to-clear of the sticky overflow flags (10_state.md R27, R39), the
register words of STATUS, FLAGS, OVF_COUNT, ARB_STATE and FC_STAGE. -/

namespace Sys2Proof.Machine

/-- The value of a result code in STATUS.CODE (60_exceptions.md R271). -/
def codeByte : ResultCode → Byte
  | .ok => 0x00
  | .notFound => 0x01
  | .channelBusy => 0x02
  | .frameCorrupt => 0x10
  | .bufferOverflow => 0x11
  | .uncorrectable => 0x12
  | .headerUncorrectable => 0x13
  | .payloadUncorrectable => 0x14
  | .crcMismatch => 0x15
  | .frameLength => 0x16
  | .illegalCommand => 0x20
  | .invalidParam => 0x21
  | .invalidLength => 0x22
  | .addressError => 0x23

/-- A register word with bit `i` equal to `b` and every other bit 0. -/
def flagAt (i : Nat) (b : Bool) : Word := (BitVec.ofBool b).setWidth 32 <<< i

/-- A bit as a register value. -/
def bitWord (b : Bool) : Word := flagAt 0 b

/-- STATUS as the host reads it (10_state.md R26). -/
def statusWord (st : Status) : Word :=
  (codeByte st.code).setWidth 32 ||| flagAt 8 st.crcBad ||| flagAt 9 st.noTrailer ||| flagAt 10 st.discarded

/-- FLAGS as the host reads it (10_state.md R27). -/
def flagsWord (cmdOvf dataOvf : Bool) : Word := flagAt 0 cmdOvf ||| flagAt 1 dataOvf

/-- Two 16-bit fields in one register, `lo` in [15:0] and `hi` in [31:16] (10_state.md R38, R39, R41). -/
def halves (hi lo : Half) : Word := (hi ++ lo).setWidth 32

/-- ARB_STATE.MODE as its two bits (10_state.md R34, 45_channel_arbiter.md R240). -/
def modeWord : ArbMode → Word
  | .receiving => 0
  | .assessing => 1
  | .transmitting => 2

/-- ARB_STATE as the host reads it (10_state.md R34). -/
def arbStateWord (a : Arbiter) : Word := modeWord a.mode ||| flagAt 8 a.clearValid

/-- TX_STAGE as its value (10_state.md R40). -/
def txStageWord : TxStage → Word
  | .idle => 0
  | .headerBuilt => 1
  | .headerScrambled => 2
  | .headerEncoded => 3
  | .payloadScrambled => 4
  | .payloadEncoded => 5
  | .crcAppended => 6
  | .ready => 7

/-- RX_STAGE as its value (10_state.md R40). -/
def rxStageWord : RxStage → Word
  | .noneYet => 0
  | .delivered => 7
  | .discarded => 8

/-- FC_STAGE as the host reads it (10_state.md R40). -/
def fcStageWord (f : FcStage) : Word := txStageWord f.tx ||| (rxStageWord f.rx <<< 4)

/-- The drop counter after one more dropped byte, saturating at 0xFFFF (10_state.md R39, 40_byte_framer.md
R103). -/
def dropCount (d : Half) : Half := if d = 0xFFFF then 0xFFFF else d + 1

/-- A buffer after a byte was dropped: the sticky flag set, the drop counted, the content as it was
(40_byte_framer.md R103). -/
def reportDrop (b : Buffer) : Buffer := { b with ovf := true, drops := dropCount b.drops }

/-- A buffer's report after the host wrote its bit of FLAGS: a 1 clears the flag and the drop counter, a 0
leaves them (10_state.md R27, R39). -/
def clearReport (bit : Bool) (b : Buffer) : Buffer := if bit then { b with ovf := false, drops := 0 } else b

end Sys2Proof.Machine
end

