-- ==== Sys2Proof/Machine/Operands.lean ====
section
/-! DEFINITION. The operand forms of the commands: the five IMM8 kinds and what each value selects
(30_encoding.md R82), and the arbiter's sample (30_encoding.md R83, 45_channel_arbiter.md R241). Kind Z is
checked by the decoder. -/

namespace Sys2Proof.Machine

/-- Kind BUF: the buffer an IMM8 selects; none is INVALID_PARAM (30_encoding.md R82, 40_byte_framer.md
R100). -/
def bufOperand (imm : Byte) : Option BufSel :=
  if imm = 0 then some .cmd else if imm = 1 then some .data else none

/-- Kind NR: the parity count an IMM8 gives; none is INVALID_PARAM (30_encoding.md R82, 42_reed_solomon.md
R160). -/
def parityOperand (imm : Byte) : Option Nat :=
  if imm = 2 ∨ imm = 4 ∨ imm = 6 ∨ imm = 8 ∨ imm = 16 then some imm.toNat else none

/-- Kind BIT: the input bit an IMM8 gives; none is INVALID_PARAM (30_encoding.md R82). -/
def bitOperand (imm : Byte) : Option Bool :=
  if imm = 0 then some false else if imm = 1 then some true else none

/-- The arbiter flags of kind AF (30_encoding.md R82). -/
structure ArbFlags where
  queued : Bool
  txBusy : Bool
  deriving DecidableEq, Repr

/-- Kind AF: Q and TXBUSY; none, when a bit of [7:2] is set, is INVALID_PARAM (30_encoding.md R82). -/
def arbOperand (imm : Byte) : Option ArbFlags :=
  if imm >>> 2 = 0 then some { queued := imm.getLsbD 0, txBusy := imm.getLsbD 1 } else none

/-- The signal-strength sample, ARG1[15:0] as an s16 (45_channel_arbiter.md R241). -/
def sampleOperand (arg1 : Word) : Half := arg1.extractLsb' 0 16

end Sys2Proof.Machine
end

