-- ==== Sys2Proof/Machine/Ops.lean ====
section
/-! DEFINITION. The shared operations of the meanings: bytes of memory, regions of LMEM, the circular
buffers, and the execution cycle every command shares: the prologue, ending a command, and reporting an
error, which is all the block has in the place of traps (60_exceptions.md R270, R275). -/

namespace Sys2Proof.Machine

/-! ### Bytes by address -/

/-- The byte written at `a`, none if nothing has written it. -/
def memLookup : Memory → Nat → Option Byte
  | [], _ => none
  | (x, v) :: m, a => if x = a then some v else memLookup m a

/-- The memory after byte `v` is written at `a`; the addresses stay strictly rising. -/
def memWrite : Memory → Nat → Byte → Memory
  | [], a, v => [(a, v)]
  | (x, w) :: m, a, v =>
    if a < x then (a, v) :: (x, w) :: m
    else if x = a then (a, v) :: m
    else (x, w) :: memWrite m a v

/-- The memory after the bytes `s` are written from `a` on (00_scope.md R15, MemWrite). -/
def memWriteBytes : Memory → Nat → Bytes → Memory
  | m, _, [] => m
  | m, a, v :: s => memWriteBytes (memWrite m a v) (a + 1) s

/-- The canonical form of a memory of `size` bytes: addresses strictly rising and below `size`. -/
abbrev memWf (size : Nat) (m : Memory) : Prop :=
  m.Pairwise (fun p q => p.1 < q.1) ∧ ∀ p ∈ m, p.1 < size

/-- What LMEM byte `a` reads as: the byte written there, else the free value of power-on (10_state.md R44;
log 9). -/
def lmemByte (m : Memory) (a : Nat) : Byte := (memLookup m a).getD (Config.lmemPowerOn a)

/-- The `n` bytes of LMEM from `a` on (00_scope.md R15, MemRead). -/
def lmemBytes (m : Memory) (a n : Nat) : Bytes := (List.range n).map fun i => lmemByte m (a + i)

/-- A command region of `n` bytes at `a` is valid (20_memory.md R70): it ends inside LMEM, on unbounded
integers, and a region of no bytes is always valid. -/
abbrev regionOk (c : Config) (a n : Nat) : Prop := n = 0 ∨ a + n ≤ c.lmemSize

/-! ### The circular buffers -/

/-- cap(b) (10_state.md R42). -/
def bufCap (c : Config) : BufSel → Nat
  | .cmd => c.cmdCap
  | .data => c.dataCap

/-- What byte `i` of a store reads as (10_state.md R43; log 10). -/
def storeByte (sel : BufSel) (m : Memory) (i : Nat) : Byte := (memLookup m i).getD (Config.storePowerOn sel i)

/-- Peek(b, i) (40_byte_framer.md R101). -/
def bufPeek (sel : BufSel) (cap : Nat) (b : Buffer) (i : Nat) : Byte := storeByte sel b.store ((b.head + i) % cap)

/-- content(b), head first (10_state.md R42). -/
def bufContent (sel : BufSel) (cap : Nat) (b : Buffer) : Bytes := (List.range b.count).map (bufPeek sel cap b)

/-- Pop(b), for a buffer that holds a byte (40_byte_framer.md R102). -/
def bufPop (cap : Nat) (b : Buffer) : Buffer := { b with head := (b.head + 1) % cap, count := b.count - 1 }

/-- Pop(b) repeated `n` times (40_byte_framer.md R107). -/
def bufPopN (cap : Nat) : Nat → Buffer → Buffer
  | 0, b => b
  | n + 1, b => bufPopN cap n (bufPop cap b)

/-- Push(b, v) (40_byte_framer.md R103): the byte goes in at the tail, or is dropped and the drop reported. -/
def bufPush (cap : Nat) (b : Buffer) (v : Byte) : Buffer :=
  if b.count < cap then
    { b with store := memWrite b.store ((b.head + b.count) % cap) v, count := b.count + 1 }
  else reportDrop b

/-- Push of a byte sequence (40_byte_framer.md R105), counting the accepted and the dropped bytes. -/
def bufPushAll (cap : Nat) : Bytes → Buffer → Nat → Nat → Buffer × Nat × Nat
  | [], b, acc, drop => (b, acc, drop)
  | v :: s, b, acc, drop =>
    if b.count < cap then bufPushAll cap s (bufPush cap b v) (acc + 1) drop
    else bufPushAll cap s (bufPush cap b v) acc (drop + 1)

/-- A buffer emptied: count and head 0, the store and the overflow report as they were (40_byte_framer.md
R108). -/
def bufEmpty (b : Buffer) : Buffer := { b with head := 0, count := 0 }

/-- The invariant of a buffer of capacity `cap` (40_byte_framer.md R104, 10_state.md R42): at most `cap`
bytes, the head and the store inside the capacity, every content byte one that was pushed, and the sticky
flag set exactly while drops are counted (10_state.md R27, R39). -/
abbrev bufWf (cap : Nat) (b : Buffer) : Prop :=
  b.count ≤ cap ∧ b.head < cap ∧ memWf cap b.store ∧
    (∀ i < b.count, (memLookup b.store ((b.head + i) % cap)).isSome = true) ∧
    (b.ovf = true ↔ b.drops ≠ 0)

/-- The buffer a number selects (10_state.md R42). -/
def State.buf (s : State) : BufSel → Buffer
  | .cmd => s.cmdBuf
  | .data => s.dataBuf

/-- The state with a buffer replaced. -/
def State.setBuf (s : State) (sel : BufSel) (b : Buffer) : State :=
  match sel with
  | .cmd => { s with cmdBuf := b }
  | .data => { s with dataBuf := b }

/-- content(b) of the state's buffer `sel` (10_state.md R42). -/
def State.content (s : State) (sel : BufSel) : Bytes := bufContent sel (bufCap s.cfg sel) (s.buf sel)

/-! ### The execution cycle -/

/-- The prologue of every command: STATUS and RESULT0 to RESULT2 become 0 (60_exceptions.md R270). -/
def State.prologue (s : State) : State :=
  { s with status := statusClear, result0 := 0, result1 := 0, result2 := 0 }

/-- The end of a command: STATUS.CODE becomes `code`, the writes made before stand (60_exceptions.md R270). -/
def State.finish (s : State) (code : ResultCode) : State := { s with status := { s.status with code := code } }

/-- `check p else raise code` (00_scope.md R15): go on with `k` when `p` holds, else end the command with
`code` in the state `s` it has reached. Recording the code is all there is of taking an error: nothing is
saved and control does not move (60_exceptions.md R275). -/
def State.check (s : State) (p : Prop) [Decidable p] (code : ResultCode) (k : State → State) : State :=
  if p then k s else s.finish code

/-- Go on with the operand an IMM8 selects, or raise INVALID_PARAM (30_encoding.md R82, 60_exceptions.md
R273). -/
def State.withOperand {α : Type} (s : State) (operand : Option α) (k : α → State) : State :=
  match operand with
  | some x => k x
  | none => s.finish .invalidParam

/-- A command runs its rule after the prologue and always completes in one step (60_exceptions.md R270, R284;
20_memory.md R71). -/
def command (s : State) (rule : State → State) : Host.Outcome State Fault Refusal := .next (rule s.prologue)

/-- MemRead of a command: `n` bytes of LMEM from `a` on (00_scope.md R15). -/
def State.memRead (s : State) (a n : Nat) : Bytes := lmemBytes s.lmem a n

/-- MemWrite of a command: the bytes go to LMEM from `a` on (00_scope.md R15). -/
def State.memWrite (s : State) (a : Nat) (bytes : Bytes) : State := { s with lmem := memWriteBytes s.lmem a bytes }

/-- The end of a command that writes `bytes` at `dst`: the destination check comes after the output has been
computed (20_memory.md R70, 60_exceptions.md R273), then the output and the registers `k` adds are written
and the command finishes OK. -/
def State.deliver (s : State) (dst : Nat) (bytes : Bytes) (k : State → State) : State :=
  s.check (regionOk s.cfg dst bytes.length) .addressError fun s => (k (s.memWrite dst bytes)).finish .ok

/-- The low `width` bits of a word (10_state.md R32). -/
def lowBits (width : Nat) (w : Word) : Word := BitVec.ofNat 32 (w.toNat % 2 ^ width)

/-- A number as a register value (00_scope.md R14, u32). -/
def toWord (n : Nat) : Word := BitVec.ofNat 32 n

end Sys2Proof.Machine
end

