-- ==== Sys2Proof/Machine/Buffers.lean ====
section
/-! DEFINITION. The buffer commands BUF_WRITE, BUF_PEEK, BUF_POP and BUF_CLEAR (40_byte_framer.md R105 to
R108). -/

namespace Sys2Proof.Machine

/-- BUF_WRITE (40_byte_framer.md R105). -/
def execBufWrite (imm : Byte) (s : State) : Host.Outcome State Fault Refusal :=
  command s fun s =>
    s.withOperand (bufOperand imm) fun sel =>
      s.check (regionOk s.cfg s.arg0.toNat s.arg1.toNat) .addressError fun s =>
        (let r := bufPushAll (bufCap s.cfg sel) (s.memRead s.arg0.toNat s.arg1.toNat) (s.buf sel) 0 0
         { s.setBuf sel r.1 with result0 := toWord r.2.1, result1 := toWord r.2.2 }.finish
           (if 0 < r.2.2 then .bufferOverflow else .ok))

/-- BUF_PEEK (40_byte_framer.md R106). -/
def execBufPeek (imm : Byte) (s : State) : Host.Outcome State Fault Refusal :=
  command s fun s =>
    s.withOperand (bufOperand imm) fun sel =>
      s.check (s.arg0.toNat + s.arg1.toNat ≤ (s.buf sel).count) .invalidLength fun s =>
        (s.deliver s.arg2.toNat
          ((List.range s.arg1.toNat).map fun i => bufPeek sel (bufCap s.cfg sel) (s.buf sel) (s.arg0.toNat + i))
          fun t => { t with result0 := s.arg1 })

/-- BUF_POP (40_byte_framer.md R107). -/
def execBufPop (imm : Byte) (s : State) : Host.Outcome State Fault Refusal :=
  command s fun s =>
    s.withOperand (bufOperand imm) fun sel =>
      s.check (s.arg1.toNat ≤ (s.buf sel).count) .invalidLength fun s =>
        ({ s.setBuf sel (bufPopN (bufCap s.cfg sel) s.arg1.toNat (s.buf sel)) with result0 := s.arg1 }.finish .ok)

/-- BUF_CLEAR (40_byte_framer.md R108): the old count is the result; FLAGS and OVF_COUNT stay. -/
def execBufClear (imm : Byte) (s : State) : Host.Outcome State Fault Refusal :=
  command s fun s =>
    s.withOperand (bufOperand imm) fun sel =>
      { s.setBuf sel (bufEmpty (s.buf sel)) with result0 := toWord (s.buf sel).count }.finish .ok

end Sys2Proof.Machine
end

