-- ==== Sys2Proof/Machine/ByteFramer.lean ====
section
/-! DEFINITION. The ByteFramer: escaping, unescaping and frame discovery (40_byte_framer.md R109 to R119). -/

namespace Sys2Proof.Machine

/-- esc(v) (40_byte_framer.md R109). -/
def escByte (v : Byte) : Bytes := if v = fend then [fesc, tfend] else if v = fesc then [fesc, tfesc] else [v]

/-- escape(p) (40_byte_framer.md R109). -/
def escape (p : Bytes) : Bytes := fend :: (p.flatMap escByte ++ [fend])

/-- What unescape answers when the input is not corrupt (40_byte_framer.md R111): the output, whether the
trailing delimiter was missing, and how many input bytes were used. -/
structure Unescaped where
  out : Bytes
  noTrailer : Bool
  used : Nat
  deriving DecidableEq, Repr

/-- The answer for an input that has `n` more bytes in front, which stand for `v`. -/
def unescapedCons (v : Byte) (n : Nat) (u : Unescaped) : Unescaped := { u with out := v :: u.out, used := u.used + n }

/-- The loop of unescape (40_byte_framer.md R111); none is FrameCorrupt. -/
def unescapeLoop : Bytes → Option Unescaped
  | [] => some { out := [], noTrailer := true, used := 0 }
  | [v] =>
    if v = fend then some { out := [], noTrailer := false, used := 1 }
    else if v = fesc then none
    else some { out := [v], noTrailer := true, used := 1 }
  | v :: t :: w =>
    if v = fend then some { out := [], noTrailer := false, used := 1 }
    else if v = fesc then
      if t = tfend then (unescapeLoop w).map (unescapedCons fend 2)
      else if t = tfesc then (unescapeLoop w).map (unescapedCons fesc 2)
      else none
    else (unescapeLoop (t :: w)).map (unescapedCons v 1)

/-- unescape(w) (40_byte_framer.md R111): one leading delimiter is stripped, then the loop; none is
FrameCorrupt. -/
def unescape : Bytes → Option Unescaped
  | [] => unescapeLoop []
  | v :: w =>
    if v = fend then (unescapeLoop w).map fun u => { u with used := u.used + 1 } else unescapeLoop (v :: w)

/-- KISS_ESCAPE (40_byte_framer.md R110). -/
def execKissEscape (s : State) : Host.Outcome State Fault Refusal :=
  command s fun s =>
    s.check (regionOk s.cfg s.arg0.toNat s.arg1.toNat) .addressError fun s =>
      (let w := escape (s.memRead s.arg0.toNat s.arg1.toNat)
       s.deliver s.arg2.toNat w fun t => { t with result0 := toWord w.length })

/-- KISS_UNESCAPE (40_byte_framer.md R112). -/
def execKissUnescape (s : State) : Host.Outcome State Fault Refusal :=
  command s fun s =>
    s.check (regionOk s.cfg s.arg0.toNat s.arg1.toNat) .addressError fun s =>
      (match unescape (s.memRead s.arg0.toNat s.arg1.toNat) with
       | none => s.finish .frameCorrupt
       | some u =>
         s.deliver s.arg2.toNat u.out fun t =>
           { t with result0 := toWord u.out.length, result1 := toWord u.used,
                    status := { t.status with noTrailer := u.noTrailer } })

/-- Step (1) of find_frame: leading bytes that are no delimiter are discarded (40_byte_framer.md R114). -/
def dropNoise (c : Bytes) : Bytes := c.dropWhile (· ≠ fend)

/-- Step (2) of find_frame, on a content whose head is a delimiter: while the second byte is a delimiter too,
the head goes (40_byte_framer.md R114). -/
def collapseRun : Bytes → Bytes
  | a :: b :: c => if b = fend then collapseRun (b :: c) else a :: b :: c
  | c => c

/-- What find_frame answers: the frame length, none for NotFound, and how many bytes it removed from the
head. -/
structure Found where
  length : Option Nat
  disc : Nat
  deriving DecidableEq, Repr

/-- find_frame on a buffer of capacity `cap` with content `c` (40_byte_framer.md R114). All it removes it
removes from the head, so its effect on the content is the count `disc`. In the full-buffer branch the
restarted loop finds the buffer empty and ends. -/
def findFrame (cap : Nat) (c : Bytes) : Found :=
  match collapseRun (dropNoise c) with
  | [] => { length := none, disc := c.length }
  | v :: rest =>
    match rest.findIdx? (· = fend) with
    | some j => { length := some (j + 2), disc := c.length - (v :: rest).length }
    | none =>
      if (v :: rest).length = cap then { length := none, disc := c.length }
      else { length := none, disc := c.length - (v :: rest).length }

/-- FIND_FRAME (40_byte_framer.md R116): the discarded bytes are popped, the frame stays. -/
def execFindFrame (imm : Byte) (s : State) : Host.Outcome State Fault Refusal :=
  command s fun s =>
    s.withOperand (bufOperand imm) fun sel =>
      let f := findFrame (bufCap s.cfg sel) (s.content sel)
      let t := { s.setBuf sel (bufPopN (bufCap s.cfg sel) f.disc (s.buf sel)) with
                 result0 := toWord (f.length.getD 0), result1 := toWord f.disc,
                 status := { s.status with discarded := decide (0 < f.disc) } }
      t.finish (if f.length.isSome then .ok else .notFound)

/-- The class of a found frame by its length (40_byte_framer.md R117): the block does not act on it. -/
inductive FrameClass where
  | commandOnly
  | commandAndBody
  deriving DecidableEq, Repr

/-- A frame shorter than 4 bytes carries just a command code (40_byte_framer.md R117). -/
def frameClass (length : Nat) : FrameClass := if length < 4 then .commandOnly else .commandAndBody

end Sys2Proof.Machine
end

