-- ==== Sys2Proof/Machine/ChannelArbiter.lean ====
section
/-! DEFINITION. The ChannelArbiter and ARB_STEP (45_channel_arbiter.md). -/

namespace Sys2Proof.Machine

/-- A sample is clear when it is at or below the threshold, both as s16 (45_channel_arbiter.md R242). A
sample of -32768 is clear at every threshold, that of reset among them (log 25). -/
def sampleClear (sample thr : Half) : Bool := sample.sle thr

/-- One pass of the arbiter (45_channel_arbiter.md R242): at most one transition. Whether the host has set a
threshold plays no part (log 25). -/
def arbiterPass (settle : Word) (q txBusy clear : Bool) (now : Word) (a : Arbiter) : Arbiter :=
  match a.mode with
  | .receiving => if q then { a with mode := .assessing, clearValid := false } else a
  | .assessing =>
    if !q then { a with mode := .receiving, clearValid := false }
    else if !clear then { a with clearValid := false, lastBusy := now }
    else if !a.clearValid then { a with clearValid := true, clearStart := now }
    else if settle.toNat < (now - a.clearStart).toNat then { a with mode := .transmitting, clearValid := false }
    else a
  | .transmitting => if !q && !txBusy then { a with mode := .receiving } else a

/-- The code of a pass: CHANNEL_BUSY exactly when the new mode is AssessingChannel (45_channel_arbiter.md
R242). -/
def arbiterCode : ArbMode → ResultCode
  | .receiving => .ok
  | .assessing => .channelBusy
  | .transmitting => .ok

/-- ARB_STEP (45_channel_arbiter.md R242). -/
def execArbStep (imm : Byte) (s : State) : Host.Outcome State Fault Refusal :=
  command s fun s =>
    s.withOperand (arbOperand imm) fun f =>
      let a := arbiterPass s.cfg.settleTicks f.queued f.txBusy
        (sampleClear (sampleOperand s.arg1) s.ccaThreshold) s.arg0 s.arb
      { s with arb := a, result0 := modeWord a.mode }.finish (arbiterCode a.mode)

end Sys2Proof.Machine
end

