-- ==== Sys2Proof/Machine/HammingCrc.lean ====
section
/-! DEFINITION. HammingCrc: the CRC-16, the nibble code that protects it, and CRC_CALC and CRC_VERIFY
(43_hamming_crc.md). -/

namespace Sys2Proof.Machine

/-- The CCITT polynomial without its leading term (43_hamming_crc.md R190). -/
def crcPoly : Half := 0x1021

/-- One of the 8 turns of a byte (43_hamming_crc.md R190). -/
def crcShift (c : Half) : Half := if c.getLsbD 15 then (c <<< 1) ^^^ crcPoly else c <<< 1

/-- `n` turns. -/
def crcShiftN : Nat → Half → Half
  | 0, c => c
  | n + 1, c => crcShiftN n (crcShift c)

/-- One byte into the CRC (43_hamming_crc.md R190). -/
def crcByte (refIn : Bool) (c : Half) (v : Byte) : Half :=
  crcShiftN 8 (c ^^^ ((if refIn then v.reverse else v).setWidth 16 <<< 8))

/-- crc16(p) (43_hamming_crc.md R190). For no bytes this is R190's pseudocode too: CRC_INIT is reversed when
CRC_REFOUT holds, which the corner case of R196 leaves out (log 23). -/
def crc16 (cfg : Config) (p : Bytes) : Half :=
  let c := p.foldl (crcByte cfg.crcRefIn) cfg.crcInit
  (if cfg.crcRefOut then c.reverse else c) ^^^ cfg.crcXorOut

/-- HAM_ENC[m] (43_hamming_crc.md R191). -/
def hamEncode (cfg : Config) (m : BitVec 4) : Byte := cfg.hamEnc.get m.toFin

/-- How far a byte is from the codeword of nibble `m`. -/
def hamDistance (cfg : Config) (v : Byte) (m : BitVec 4) : Nat := popcount (v ^^^ hamEncode cfg m)

/-- HAM_DEC[v]: the nibble whose codeword is nearest, the smallest on a tie (43_hamming_crc.md R192). -/
def hamDecode (cfg : Config) (v : Byte) : BitVec 4 :=
  ((List.range 16).map (BitVec.ofNat 4)).foldl
    (fun best m => if hamDistance cfg v m < hamDistance cfg v best then m else best) 0

/-- Nibble `i` of a CRC, bits 4i+3 to 4i. -/
def crcNibble (c : Half) (i : Nat) : BitVec 4 := c.extractLsb' (4 * i) 4

/-- Byte `i` of an EncodedCrc, bits 8i+7 to 8i. -/
def crcCodeByte (e : Word) (i : Nat) : Byte := e.extractLsb' (8 * i) 8

/-- crc_encode(c) (43_hamming_crc.md R193): the least significant nibble's codeword in the low byte. -/
def crcEncode (cfg : Config) (c : Half) : Word :=
  (hamEncode cfg (crcNibble c 3) ++ hamEncode cfg (crcNibble c 2) ++ hamEncode cfg (crcNibble c 1) ++
    hamEncode cfg (crcNibble c 0)).setWidth 32

/-- crc_decode(E) (43_hamming_crc.md R193): each byte decoded by itself. -/
def crcDecode (cfg : Config) (e : Word) : Half :=
  (hamDecode cfg (crcCodeByte e 3) ++ hamDecode cfg (crcCodeByte e 2) ++ hamDecode cfg (crcCodeByte e 1) ++
    hamDecode cfg (crcCodeByte e 0)).setWidth 16

/-- calculate(p) (43_hamming_crc.md R194). -/
def crcCalculate (cfg : Config) (p : Bytes) : Word := crcEncode cfg (crc16 cfg p)

/-- verify(p, E) (43_hamming_crc.md R194). -/
def crcVerifies (cfg : Config) (p : Bytes) (e : Word) : Bool := crcDecode cfg e = crc16 cfg p

/-- CRC_CALC (43_hamming_crc.md R196). -/
def execCrcCalc (s : State) : Host.Outcome State Fault Refusal :=
  command s fun s =>
    s.check (regionOk s.cfg s.arg0.toNat s.arg1.toNat) .addressError fun s =>
      (let p := s.memRead s.arg0.toNat s.arg1.toNat
       { s with result0 := crcCalculate s.cfg p, result1 := (crc16 s.cfg p).setWidth 32 }.finish .ok)

/-- CRC_VERIFY (43_hamming_crc.md R197): a mismatch is a result, not a fault. -/
def execCrcVerify (s : State) : Host.Outcome State Fault Refusal :=
  command s fun s =>
    s.check (regionOk s.cfg s.arg0.toNat s.arg1.toNat) .addressError fun s =>
      (let p := s.memRead s.arg0.toNat s.arg1.toNat
       let ok := crcVerifies s.cfg p s.arg3
       { s with result0 := bitWord ok, result2 := halves (crcDecode s.cfg s.arg3) (crc16 s.cfg p),
                status := { s.status with crcBad := !ok } }.finish (if ok then .ok else .crcMismatch))

end Sys2Proof.Machine
end

