-- ==== Sys2Proof/Machine/ReedSolomon.lean ====
section
/-! DEFINITION. The ReedSolomonCodec: generator polynomials, encoding, and the decoder in the exact
formulation of the spec (42_reed_solomon.md R160 to R173). A block is a byte list with the coefficient of
the highest power first; a polynomial is a list of coefficients with the one of x^0 first (00_scope.md R17). -/

namespace Sys2Proof.Machine

/-- The coefficients of (x + a)·p, for p with the coefficient of x^0 first. -/
def polyMulRoot (t : GfTables) (a : Byte) (p : Bytes) : Bytes :=
  List.zipWith (· ^^^ ·) (0 :: p) (p.map (gfMul t a) ++ [0])

/-- Root `i` of the generator polynomial, α^((RS_FCR + i)·RS_PRIM) (42_reed_solomon.md R162, R167). -/
def rsRoot (c : Config) (t : GfTables) (i : Nat) : Byte := gfExp t ((c.rsFcr + i) * c.rsPrim)

/-- The generator polynomial of `nroots` roots, the coefficient of x^0 first (42_reed_solomon.md R162). -/
def rsGenerator (c : Config) (t : GfTables) (nroots : Nat) : Bytes :=
  (List.range nroots).foldl (fun g i => polyMulRoot t (rsRoot c t i) g) [1]

/-- One turn of the feedback shift of R164 for the data byte `d`; `g` holds the generator's coefficients from
x^(nroots-1) down to x^0. -/
def parityShift (t : GfTables) (g bb : Bytes) (d : Byte) : Bytes :=
  let fb := d ^^^ bb.headD 0
  List.zipWith (· ^^^ ·) (bb.tail ++ [0]) (g.map (gfMul t fb))

/-- rs_parity(d, nroots) (42_reed_solomon.md R164). -/
def rsParity (c : Config) (nroots : Nat) (d : Bytes) : Bytes :=
  let t := gfTables c.rsGfPoly
  let g := ((rsGenerator c t nroots).take nroots).reverse
  d.foldl (parityShift t g) (List.replicate nroots 0)

/-- The value at `x` of a block, its first byte the coefficient of the highest power (00_scope.md R17). -/
def blockEval (t : GfTables) (x : Byte) (r : Bytes) : Byte := r.foldl (fun acc v => gfMul t acc x ^^^ v) 0

/-- The syndromes S[0..nroots-1] of a block (42_reed_solomon.md R167). -/
def syndromes (c : Config) (t : GfTables) (nroots : Nat) (r : Bytes) : Bytes :=
  (List.range nroots).map fun i => blockEval t (rsRoot c t i) r

/-- The value at `x` of a polynomial, the coefficient of x^0 first. -/
def polyEval (t : GfTables) (p : Bytes) (x : Byte) : Byte := p.foldr (fun a acc => a ^^^ gfMul t x acc) 0

/-- The sum of the products of two coefficient lists, position by position. -/
def dotProduct (t : GfTables) (a b : Bytes) : Byte := (List.zipWith (gfMul t) a b).foldr (· ^^^ ·) 0

/-- x·B, the coefficient past the last dropped (42_reed_solomon.md R168). -/
def polyShift (b : Bytes) : Bytes := 0 :: b.dropLast

/-- The state of Berlekamp–Massey (42_reed_solomon.md R168): Λ, B and L. -/
structure BmState where
  lam : Bytes
  b : Bytes
  l : Nat
  deriving DecidableEq, Repr

/-- Round `r` of Berlekamp–Massey (42_reed_solomon.md R168). -/
def bmRound (t : GfTables) (syn : Bytes) (st : BmState) (r : Nat) : BmState :=
  let delta := dotProduct t (st.lam.take r) (syn.take r).reverse
  let xb := polyShift st.b
  if delta = 0 then { st with b := xb }
  else
    let lam := List.zipWith (· ^^^ ·) st.lam (xb.map (gfMul t delta))
    if 2 * st.l ≤ r - 1 then { lam := lam, b := st.lam.map (gfMul t (gfInv t delta)), l := r - st.l }
    else { lam := lam, b := xb, l := st.l }

/-- The constant polynomial 1 with nroots + 1 coefficients. -/
def polyOne (nroots : Nat) : Bytes := 1 :: List.replicate nroots 0

/-- The error locator Λ of a syndrome list (42_reed_solomon.md R168). -/
def errorLocator (t : GfTables) (nroots : Nat) (syn : Bytes) : Bytes :=
  ((List.range nroots).foldl (fun st i => bmRound t syn st (i + 1))
    { lam := polyOne nroots, b := polyOne nroots, l := 0 }).lam

/-- The greatest i with a nonzero coefficient of x^i, 0 if there is none (42_reed_solomon.md R168). -/
def polyDegree (p : Bytes) : Nat := (p.reverse.dropWhile (· = 0)).length - 1

/-- The Chien search over the exponents given, with `found` the roots so far (42_reed_solomon.md R169). -/
def chienSearch (t : GfTables) (lam : Bytes) (deg : Nat) : List Nat → List Nat → List Nat
  | [], found => found
  | i :: is, found =>
    if polyEval t lam (gfExp t i) = 0 then
      if found.length + 1 = deg then found ++ [i] else chienSearch t lam deg is (found ++ [i])
    else chienSearch t lam deg is found

/-- Ω(x) = (S(x)·Λ(x)) mod x^deg (42_reed_solomon.md R169). -/
def errorEvaluator (t : GfTables) (syn lam : Bytes) (deg : Nat) : Bytes :=
  (List.range deg).map fun k => dotProduct t (syn.take (k + 1)) (lam.take (k + 1)).reverse

/-- Λ'(α^i): the sum over odd m up to deg of Λ[m]·α^(i·(m-1)) (42_reed_solomon.md R169). -/
def locatorDerivative (t : GfTables) (lam : Bytes) (deg i : Nat) : Byte :=
  ((List.range (deg + 1)).filter (· % 2 = 1)).foldr
    (fun m acc => gfMul t (lam.getD m 0) (gfExp t (i * (m - 1))) ^^^ acc) 0

/-- The error value at root exponent `i` (42_reed_solomon.md R169): num·α^(i·(RS_FCR-1))·den^-1, where the
exponent RS_FCR - 1 is taken mod 255. -/
def errorValue (c : Config) (t : GfTables) (omega lam : Bytes) (deg i : Nat) : Byte :=
  gfMul t (gfMul t (polyEval t omega (gfExp t i)) (gfExp t (i * (c.rsFcr + 254))))
    (gfInv t (locatorDerivative t lam deg i))

/-- The correction at root exponent `i` of a block with `pad` implicit zeros in front (42_reed_solomon.md
R169). -/
def correctAt (c : Config) (t : GfTables) (omega lam : Bytes) (deg pad : Nat) (blk : Bytes) (i : Nat) : Bytes :=
  if polyEval t omega (gfExp t i) = 0 then blk
  else blk.modify (i - 1 - pad) (· ^^^ errorValue c t omega lam deg i)

/-- rs_decode of a block of k data and nroots parity symbols (42_reed_solomon.md R167 to R169): the number of
corrected symbols and the block; none is Uncorrectable. -/
def rsDecode (c : Config) (nroots : Nat) (blk : Bytes) : Option (Nat × Bytes) :=
  let t := gfTables c.rsGfPoly
  let syn := syndromes c t nroots blk
  if syn.all (· = 0) then some (0, blk)
  else
    let lam := errorLocator t nroots syn
    let deg := polyDegree lam
    let pad := 255 - blk.length
    let roots := chienSearch t lam deg ((List.range 255).map (· + 1)) []
    if roots.length ≠ deg then none
    else if roots.any fun i => i - 1 < pad then none
    else some (roots.length, roots.foldl (correctAt c t (errorEvaluator t syn lam deg) lam deg pad) blk)

/-- The data length of an RS command is in range (42_reed_solomon.md R166, R172). -/
abbrev rsLengthOk (k nroots : Nat) : Prop := 1 ≤ k ∧ k + nroots ≤ 255

/-- RS_ENCODE (42_reed_solomon.md R166). -/
def execRsEncode (imm : Byte) (s : State) : Host.Outcome State Fault Refusal :=
  command s fun s =>
    s.withOperand (parityOperand imm) fun nroots =>
      s.check (rsLengthOk s.arg1.toNat nroots) .invalidLength fun s =>
        (s.check (regionOk s.cfg s.arg0.toNat s.arg1.toNat) .addressError fun s =>
          (s.deliver s.arg2.toNat (rsParity s.cfg nroots (s.memRead s.arg0.toNat s.arg1.toNat))
            fun t => { t with result0 := toWord nroots }))

/-- RS_DECODE (42_reed_solomon.md R170). -/
def execRsDecode (imm : Byte) (s : State) : Host.Outcome State Fault Refusal :=
  command s fun s =>
    s.withOperand (parityOperand imm) fun nroots =>
      s.check (rsLengthOk s.arg1.toNat nroots) .invalidLength fun s =>
        (s.check (regionOk s.cfg s.arg0.toNat (s.arg1.toNat + nroots)) .addressError fun s =>
          (match rsDecode s.cfg nroots (s.memRead s.arg0.toNat (s.arg1.toNat + nroots)) with
           | none => s.finish .uncorrectable
           | some r => s.deliver s.arg2.toNat r.2 fun t => { t with result0 := toWord r.1 }))

end Sys2Proof.Machine
end

