-- ==== Sys2Proof/Machine/Scrambler.lean ====
section
/-! DEFINITION. The Scrambler: the block functions and the four commands (41_scrambler.md). The bit
functions stand in Sys2Proof/Machine/ShiftRegister.lean. -/

namespace Sys2Proof.Machine

/-- The bits of a byte, most significant first (41_scrambler.md R145). -/
def byteBits (v : Byte) : List Bool :=
  [v.getLsbD 7, v.getLsbD 6, v.getLsbD 5, v.getLsbD 4, v.getLsbD 3, v.getLsbD 2, v.getLsbD 1, v.getLsbD 0]

/-- bits_of(p) (41_scrambler.md R145). -/
def bitsOf (p : Bytes) : List Bool := p.flatMap byteBits

/-- The byte whose bits, most significant first, are the given eight. -/
def bitsByte (b7 b6 b5 b4 b3 b2 b1 b0 : Bool) : Byte :=
  (BitVec.ofBool b7 ++ BitVec.ofBool b6 ++ BitVec.ofBool b5 ++ BitVec.ofBool b4 ++
    BitVec.ofBool b3 ++ BitVec.ofBool b2 ++ BitVec.ofBool b1 ++ BitVec.ofBool b0).setWidth 8

/-- bytes_of(y), for a bit sequence whose length is a multiple of 8 (41_scrambler.md R145). -/
def bytesOf : List Bool → Bytes
  | b7 :: b6 :: b5 :: b4 :: b3 :: b2 :: b1 :: b0 :: y => bitsByte b7 b6 b5 b4 b3 b2 b1 b0 :: bytesOf y
  | _ => []

/-- scramble_block(p) (41_scrambler.md R146): from the transmit seed, the first SCR_SKIP outputs dropped and
the flush tail of a zero-fed private copy appended. -/
def scrambleBlock (c : Config) (p : Bytes) : Bytes :=
  let r := shiftRun c.scrambler (bitsOf p) c.scrTxSeed
  bytesOf (r.1.drop c.scrSkip ++ (shiftRun c.scrambler (List.replicate c.scrSkip false) r.2).1)

/-- descramble_block(c) (41_scrambler.md R148): from the receive seed, exactly the bits received. -/
def descrambleBlock (c : Config) (p : Bytes) : Bytes := bytesOf (shiftRun c.descrambler (bitsOf p) c.scrRxSeed).1

/-- SCR_BIT (41_scrambler.md R144): one bit through the persistent transmit register. -/
def execScrBit (imm : Byte) (s : State) : Host.Outcome State Fault Refusal :=
  command s fun s =>
    s.withOperand (bitOperand imm) fun x =>
      let r := lowBits s.cfg.scrWidth s.scrTx
      { s with scrTx := lowBits s.cfg.scrWidth (shiftNext s.cfg.scrambler x r),
               result0 := bitWord (shiftOut s.cfg.scrambler x r) }.finish .ok

/-- DESCR_BIT (41_scrambler.md R147): one bit through the persistent receive register. -/
def execDescrBit (imm : Byte) (s : State) : Host.Outcome State Fault Refusal :=
  command s fun s =>
    s.withOperand (bitOperand imm) fun x =>
      let r := lowBits s.cfg.scrWidth s.scrRx
      { s with scrRx := lowBits s.cfg.scrWidth (shiftNext s.cfg.descrambler x r),
               result0 := bitWord (shiftOut s.cfg.descrambler x r) }.finish .ok

/-- The shared body of SCR_BLOCK and DESCR_BLOCK (41_scrambler.md R146, R148): a length-preserving function
of at least one byte. -/
def State.blockRule (s : State) (f : Bytes → Bytes) : State :=
  s.check (1 ≤ s.arg1.toNat) .invalidLength fun s =>
    (s.check (regionOk s.cfg s.arg0.toNat s.arg1.toNat) .addressError fun s =>
      (s.deliver s.arg2.toNat (f (s.memRead s.arg0.toNat s.arg1.toNat)) fun t => { t with result0 := s.arg1 }))

/-- SCR_BLOCK (41_scrambler.md R146); SCR_TX_STATE is not used (R151). -/
def execScrBlock (s : State) : Host.Outcome State Fault Refusal :=
  command s fun s => s.blockRule (scrambleBlock s.cfg)

/-- DESCR_BLOCK (41_scrambler.md R148); SCR_RX_STATE is not used (R151). -/
def execDescrBlock (s : State) : Host.Outcome State Fault Refusal :=
  command s fun s => s.blockRule (descrambleBlock s.cfg)

end Sys2Proof.Machine
end

