-- ==== Sys2Proof/Machine/FrameCodec.lean ====
section
/-! DEFINITION. FrameCodec: the IL2P header, the transmit and receive pipelines, and their four commands
(44_frame_codec.md). -/

namespace Sys2Proof.Machine

/-- A byte with bit `i` replaced by `x`. -/
def setBit (i : Nat) (x : Bool) (v : Byte) : Byte := if x then v ||| (1#8 <<< i) else v &&& ~~~(1#8 <<< i)

/-- HDR_LEN_POS with the length bit each position carries (44_frame_codec.md R212). -/
def lengthBits (c : Config) : List ((Fin 13 × Fin 8) × Nat) := c.hdrLenPos.toList.zipIdx

/-- hdr_build(N) (44_frame_codec.md R213). -/
def hdrBuild (c : Config) (n : Nat) : Bytes :=
  (lengthBits c).foldl (fun h pj => h.modify pj.1.1.val (setBit pj.1.2.val (n.testBit pj.2))) c.hdrTemplate.toList

/-- hdr_parse(h) (44_frame_codec.md R213): every bit but the ten length bits is ignored (R214). -/
def hdrParse (c : Config) (h : Bytes) : Nat :=
  (lengthBits c).foldl
    (fun n pj => n + ((h.getD pj.1.1.val 0).getLsbD pj.1.2.val).toNat * 2 ^ pj.2) 0

/-- An EncodedCrc as its 4 bytes on the wire, most significant first (44_frame_codec.md R211, 20_memory.md
R67). -/
def crcWireBytes (e : Word) : Bytes := [crcCodeByte e 3, crcCodeByte e 2, crcCodeByte e 1, crcCodeByte e 0]

/-- The EncodedCrc of 4 wire bytes (44_frame_codec.md R219). -/
def crcOfWire (b3 b2 b1 b0 : Byte) : Word := (b3 ++ b2 ++ b1 ++ b0).setWidth 32

/-- What fc_encode answers: the encoded frame, the EncodedCrc and the raw CRC (44_frame_codec.md R217, R218). -/
structure Encoded where
  frame : Bytes
  encodedCrc : Word
  rawCrc : Half
  deriving DecidableEq, Repr

/-- fc_encode(cmd, d) (44_frame_codec.md R217, the layout of R211). -/
def fcEncode (c : Config) (cmd : Byte) (d : Bytes) : Encoded :=
  let hs := scrambleBlock c (hdrBuild c d.length)
  let ps := scrambleBlock c d
  let e := crcCalculate c ps
  { frame := [cmd] ++ c.sync.toList ++ hs ++ rsParity c hdrParity hs ++ ps ++ rsParity c payParity ps ++
      crcWireBytes e,
    encodedCrc := e, rawCrc := crc16 c ps }

/-- A delivered frame (44_frame_codec.md R219): the command byte, the payload, the corrected symbols of header
and payload, whether the CRC verified, and the decoded and the computed CRC. -/
structure Delivered where
  cmd : Byte
  payload : Bytes
  hdrFixed : Nat
  payFixed : Nat
  crcOk : Bool
  decodedCrc : Half
  computedCrc : Half
  deriving DecidableEq, Repr

/-- The receive stages from PayloadRsDecoded on, for a header that gave payload length `n` (44_frame_codec.md
R219). -/
def fcDecodePayload (c : Config) (w : Bytes) (strict : Bool) (hc n : Nat) : Except ResultCode Delivered :=
  match rsDecode c payParity ((w.drop 19).take (n + payParity)) with
  | none => .error .payloadUncorrectable
  | some (pc, pb) =>
    let ps := pb.take n
    let e := crcOfWire (w.getD (35 + n) 0) (w.getD (36 + n) 0) (w.getD (37 + n) 0) (w.getD (38 + n) 0)
    let ok := crcVerifies c ps e
    if !ok && strict then .error .crcMismatch
    else .ok { cmd := w.headD 0, payload := descrambleBlock c ps, hdrFixed := hc, payFixed := pc, crcOk := ok,
               decodedCrc := crcDecode c e, computedCrc := crc16 c ps }

/-- fc_decode(w, strict) (44_frame_codec.md R219); an error is the code of the Discarded frame. The sync
bytes are not checked (R222). -/
def fcDecode (c : Config) (w : Bytes) (strict : Bool) : Except ResultCode Delivered :=
  if w.length < 19 then .error .frameLength
  else
    match rsDecode c hdrParity ((w.drop 4).take (hdrLen + hdrParity)) with
    | none => .error .headerUncorrectable
    | some (hc, hb) =>
      let n := hdrParse c (descrambleBlock c (hb.take hdrLen))
      if n < 1 ∨ nMax < n ∨ w.length < 39 + n then .error .frameLength
      else fcDecodePayload c w strict hc n

/-- HDR_BUILD (44_frame_codec.md R215). -/
def execHdrBuild (s : State) : Host.Outcome State Fault Refusal :=
  command s fun s =>
    s.check (s.arg3.toNat ≤ 1023) .invalidLength fun s =>
      (s.deliver s.arg2.toNat (hdrBuild s.cfg s.arg3.toNat) fun t => { t with result0 := toWord hdrLen })

/-- HDR_PARSE (44_frame_codec.md R216). -/
def execHdrParse (s : State) : Host.Outcome State Fault Refusal :=
  command s fun s =>
    s.check (regionOk s.cfg s.arg0.toNat hdrLen) .addressError fun s =>
      ({ s with result0 := toWord (hdrParse s.cfg (s.memRead s.arg0.toNat hdrLen)) }.finish .ok)

/-- FC_ENCODE (44_frame_codec.md R218). -/
def execFcEncode (s : State) : Host.Outcome State Fault Refusal :=
  command s fun s =>
    s.check (2 ≤ s.arg1.toNat ∧ s.arg1.toNat ≤ 240) .invalidLength fun s =>
      (s.check (regionOk s.cfg s.arg0.toNat s.arg1.toNat) .addressError fun s =>
        (let f := s.memRead s.arg0.toNat s.arg1.toNat
         let r := fcEncode s.cfg (f.headD 0) f.tail
         s.deliver s.arg2.toNat r.frame fun t =>
           { t with result0 := toWord (38 + s.arg1.toNat), result1 := r.encodedCrc,
                    result2 := r.rawCrc.setWidth 32, fcStage := { t.fcStage with tx := .ready } }))

/-- A discarded frame: RX_STAGE is Discarded and the command ends with its code (44_frame_codec.md R221,
60_exceptions.md R272). -/
def State.discard (s : State) (code : ResultCode) : State :=
  { s with fcStage := { s.fcStage with rx := .discarded } }.finish code

/-- FC_DECODE (44_frame_codec.md R221). -/
def execFcDecode (s : State) : Host.Outcome State Fault Refusal :=
  command s fun s =>
    s.check (regionOk s.cfg s.arg0.toNat s.arg1.toNat) .addressError fun s =>
      (match fcDecode s.cfg (s.memRead s.arg0.toNat s.arg1.toNat) s.crcStrict with
       | .error code => s.discard code
       | .ok d =>
         s.deliver s.arg2.toNat (d.cmd :: d.payload) fun t =>
           { t with result0 := toWord (1 + d.payload.length),
                    result1 := toWord d.hdrFixed ||| (toWord d.payFixed <<< 8),
                    result2 := halves d.decodedCrc d.computedCrc,
                    status := { t.status with crcBad := !d.crcOk },
                    fcStage := { t.fcStage with rx := .delivered } })

end Sys2Proof.Machine
end

