-- ==== Sys2Proof/Machine/System.lean ====
section
/-! DEFINITION. The system commands NOP and SOFT_RESET (46_system.md). -/

namespace Sys2Proof.Machine

/-- NOP (46_system.md R260): the prologue and OK, nothing else. -/
def execNop (s : State) : Host.Outcome State Fault Refusal := command s fun s => s.finish .ok

/-- A buffer after SOFT_RESET (70_reset_and_hazards.md R301): empty, no overflow reported, the store
unchanged. -/
def bufSoftReset (b : Buffer) : Buffer := clearReport true (bufEmpty b)

/-- Every item marked in the SOFT_RESET column at its reset value; CMD, CONFIG, CCA_THRESHOLD and LMEM kept
(46_system.md R261, 70_reset_and_hazards.md R301). -/
def State.softReset (s : State) : State :=
  { s with
    status := statusClear, arg0 := 0, arg1 := 0, arg2 := 0, arg3 := 0, result0 := 0, result1 := 0, result2 := 0,
    scrTx := s.cfg.scrTxSeed, scrRx := s.cfg.scrRxSeed, arb := arbiterReset,
    cmdBuf := bufSoftReset s.cmdBuf, dataBuf := bufSoftReset s.dataBuf, fcStage := fcStageReset }

/-- SOFT_RESET (46_system.md R261). -/
def execSoftReset (s : State) : Host.Outcome State Fault Refusal := command s fun s => s.softReset.finish .ok

end Sys2Proof.Machine
end

