-- ==== Sys2Proof/Machine/Dispatch.lean ====
section
/-! DEFINITION. One arm per command: what the command does, from the state in which its word stands in CMD
(60_exceptions.md R270; log 17). -/

namespace Sys2Proof.Machine

/-- The meaning of every command (30_encoding.md R85). -/
def exec (i : Instr) (s : State) : Host.Outcome State Fault Refusal :=
  match i with
  | .nop => Sys2Proof.Machine.execNop s
  | .softReset => Sys2Proof.Machine.execSoftReset s
  | .kissEscape => Sys2Proof.Machine.execKissEscape s
  | .kissUnescape => Sys2Proof.Machine.execKissUnescape s
  | .findFrame imm => Sys2Proof.Machine.execFindFrame imm s
  | .bufWrite imm => Sys2Proof.Machine.execBufWrite imm s
  | .bufPeek imm => Sys2Proof.Machine.execBufPeek imm s
  | .bufPop imm => Sys2Proof.Machine.execBufPop imm s
  | .bufClear imm => Sys2Proof.Machine.execBufClear imm s
  | .scrBit imm => Sys2Proof.Machine.execScrBit imm s
  | .descrBit imm => Sys2Proof.Machine.execDescrBit imm s
  | .scrBlock => Sys2Proof.Machine.execScrBlock s
  | .descrBlock => Sys2Proof.Machine.execDescrBlock s
  | .rsEncode imm => Sys2Proof.Machine.execRsEncode imm s
  | .rsDecode imm => Sys2Proof.Machine.execRsDecode imm s
  | .crcCalc => Sys2Proof.Machine.execCrcCalc s
  | .crcVerify => Sys2Proof.Machine.execCrcVerify s
  | .hdrBuild => Sys2Proof.Machine.execHdrBuild s
  | .hdrParse => Sys2Proof.Machine.execHdrParse s
  | .fcEncode => Sys2Proof.Machine.execFcEncode s
  | .fcDecode => Sys2Proof.Machine.execFcDecode s
  | .arbStep imm => Sys2Proof.Machine.execArbStep imm s

end Sys2Proof.Machine
end

