-- ==== Sys2Proof/Machine/HostPort.lean ====
section
/-! DEFINITION. The host's side of the block: the register map, the block window, host reads and writes, and
the execution of a command word (10_state.md R23 to R41, 20_memory.md R60 to R68, 60_exceptions.md R270). -/

namespace Sys2Proof.Machine

/-- The registers of the block (10_state.md R23). -/
inductive Reg where
  | cmd
  | status
  | flags
  | config
  | ccaThreshold
  | arg0
  | arg1
  | arg2
  | arg3
  | result0
  | result1
  | result2
  | scrTxState
  | scrRxState
  | arbState
  | arbClearStart
  | arbLastBusy
  | arbSettle
  | bufCount
  | ovfCount
  | fcStage
  | bufCap
  deriving DecidableEq, Repr

/-- The byte offset of a register (10_state.md R23). -/
def regOffset : Reg → Nat
  | .cmd => 0x000
  | .status => 0x004
  | .flags => 0x008
  | .config => 0x00C
  | .ccaThreshold => 0x010
  | .arg0 => 0x014
  | .arg1 => 0x018
  | .arg2 => 0x01C
  | .arg3 => 0x020
  | .result0 => 0x024
  | .result1 => 0x028
  | .result2 => 0x02C
  | .scrTxState => 0x030
  | .scrRxState => 0x034
  | .arbState => 0x038
  | .arbClearStart => 0x03C
  | .arbLastBusy => 0x040
  | .arbSettle => 0x044
  | .bufCount => 0x048
  | .ovfCount => 0x04C
  | .fcStage => 0x050
  | .bufCap => 0x054

/-- The registers in the order of their offsets. -/
def allRegs : List Reg :=
  [.cmd, .status, .flags, .config, .ccaThreshold, .arg0, .arg1, .arg2, .arg3, .result0, .result1, .result2,
   .scrTxState, .scrRxState, .arbState, .arbClearStart, .arbLastBusy, .arbSettle, .bufCount, .ovfCount,
   .fcStage, .bufCap]

/-- The register at an offset, if one starts there. -/
def regAt (offset : Nat) : Option Reg := allRegs.find? fun r => regOffset r = offset

/-- The offset of LMEM byte 0 (20_memory.md R60). -/
def lmemBase : Nat := 0x1000

/-- The first offset above the registers (20_memory.md R60). -/
def regEnd : Nat := 0x58

/-- A number as a 16-bit field. -/
def toHalf (n : Nat) : Half := BitVec.ofNat 16 n

/-- What a host read of a register returns; it changes nothing (10_state.md R23 to R41, 20_memory.md R68).
Reserved bits read 0 (10_state.md R24). -/
def readReg (s : State) : Reg → Word
  | .cmd => s.cmd
  | .status => statusWord s.status
  | .flags => flagsWord s.cmdBuf.ovf s.dataBuf.ovf
  | .config => flagAt 0 s.crcStrict
  | .ccaThreshold => s.ccaThreshold.setWidth 32
  | .arg0 => s.arg0
  | .arg1 => s.arg1
  | .arg2 => s.arg2
  | .arg3 => s.arg3
  | .result0 => s.result0
  | .result1 => s.result1
  | .result2 => s.result2
  | .scrTxState => lowBits s.cfg.scrWidth s.scrTx
  | .scrRxState => lowBits s.cfg.scrWidth s.scrRx
  | .arbState => arbStateWord s.arb
  | .arbClearStart => s.arb.clearStart
  | .arbLastBusy => s.arb.lastBusy
  | .arbSettle => s.cfg.settleTicks
  | .bufCount => halves (toHalf s.dataBuf.count) (toHalf s.cmdBuf.count)
  | .ovfCount => halves s.dataBuf.drops s.cmdBuf.drops
  | .fcStage => fcStageWord s.fcStage
  | .bufCap => halves (toHalf s.cfg.dataCap) (toHalf s.cfg.cmdCap)

/-- A command word: decoded and run, or ILLEGAL_COMMAND and nothing else (60_exceptions.md R270,
30_encoding.md R87). -/
def execWord (w : Word) (s : State) : Host.Outcome State Fault Refusal :=
  match decode w with
  | .ok i => exec i s
  | .error _ => command s fun s => s.finish .illegalCommand

/-- A host write of `v` to CMD: the word is stored, then executed to completion (10_state.md R25). -/
def writeCmd (v : Word) (s : State) : Host.Outcome State Fault Refusal := execWord v { s with cmd := v }

/-- A host write to a register other than CMD (10_state.md R23 to R41); a write to a register of access R
changes nothing, reserved bits ignore the write (R24). -/
def writePlainReg (s : State) (v : Word) : Reg → State
  | .cmd => s
  | .status => s
  | .flags =>
    { s with cmdBuf := clearReport (v.getLsbD 0) s.cmdBuf, dataBuf := clearReport (v.getLsbD 1) s.dataBuf }
  | .config => { s with crcStrict := v.getLsbD 0 }
  | .ccaThreshold => { s with ccaThreshold := v.extractLsb' 0 16 }
  | .arg0 => { s with arg0 := v }
  | .arg1 => { s with arg1 := v }
  | .arg2 => { s with arg2 := v }
  | .arg3 => { s with arg3 := v }
  | .result0 => s
  | .result1 => s
  | .result2 => s
  | .scrTxState => { s with scrTx := lowBits s.cfg.scrWidth v }
  | .scrRxState => { s with scrRx := lowBits s.cfg.scrWidth v }
  | .arbState => s
  | .arbClearStart => s
  | .arbLastBusy => s
  | .arbSettle => s
  | .bufCount => s
  | .ovfCount => s
  | .fcStage => s
  | .bufCap => s

/-- A host write to a register (10_state.md R23). -/
def writeReg (r : Reg) (v : Word) (s : State) : Host.Outcome State Fault Refusal :=
  if r = .cmd then writeCmd v s else .next (writePlainReg s v r)

/-- The 32-bit word of LMEM at `a`, little-endian (20_memory.md R64). -/
def lmemWord (m : Memory) (a : Nat) : Word :=
  (lmemByte m (a + 3) ++ lmemByte m (a + 2) ++ lmemByte m (a + 1) ++ lmemByte m a).setWidth 32

/-- A 32-bit value as the 4 bytes it is stored as, little-endian (20_memory.md R64). -/
def wordBytes (v : Word) : Bytes :=
  [v.extractLsb' 0 8, v.extractLsb' 8 8, v.extractLsb' 16 8, v.extractLsb' 24 8]

/-- Where an access of `width` bytes at a window offset goes (20_memory.md R60, R63, R65, R66). -/
inductive Target where
  | reg (r : Reg)
  | lmemByte (a : Nat)
  | lmemWord (a : Nat)
  | refused (why : Refusal)
  deriving DecidableEq, Repr

/-- The target of an access at a window offset (20_memory.md R60 to R66). The reasons of a refusal are looked for
in this order: an unmapped byte, the width, the alignment (log 6). -/
def windowTarget (c : Config) (width offset : Nat) : Target :=
  if offset < regEnd then
    if width ≠ 4 then .refused (.wrongWidth width offset)
    else
      match regAt offset with
      | some r => .reg r
      | none => .refused (.misaligned offset)
  else if offset < lmemBase ∨ lmemBase + c.lmemSize ≤ offset then .refused (.unmappedOffset offset)
  else if width = 1 then .lmemByte (offset - lmemBase)
  else if width ≠ 4 then .refused (.wrongWidth width offset)
  else if offset % 4 ≠ 0 then .refused (.misaligned offset)
  else if lmemBase + c.lmemSize < offset + 4 then .refused (.unmappedOffset offset)
  else .lmemWord (offset - lmemBase)

/-- The target of an access at an address: BLOCK_BASE is offset 0 of the block window (20_memory.md R60; log
11). -/
def accessTarget (c : Config) (width address : Nat) : Target :=
  if address < c.blockBase then .refused (.outsideWindow address) else windowTarget c width (address - c.blockBase)

/-- The address of a register (10_state.md R23, 20_memory.md R60). -/
def regAddress (c : Config) (r : Reg) : Nat := c.blockBase + regOffset r

/-- The address of LMEM byte `a` (20_memory.md R60). -/
def lmemAddress (c : Config) (a : Nat) : Nat := c.blockBase + (lmemBase + a)

/-- The state after a host read returned `v` (log 8). -/
def State.observe (s : State) (v : Word) : State := { s with port := { s.port with observed := v :: s.port.observed } }

/-- A host read (20_memory.md R68). -/
def hostRead (width address : Nat) (s : State) : Host.Outcome State Fault Refusal :=
  match accessTarget s.cfg width address with
  | .reg r => .next (s.observe (readReg s r))
  | .lmemByte a => .next (s.observe ((lmemByte s.lmem a).setWidth 32))
  | .lmemWord a => .next (s.observe (lmemWord s.lmem a))
  | .refused why => .refused why

/-- A host write (20_memory.md R68); a byte write stores the low byte of the value. -/
def hostWrite (width address : Nat) (v : Word) (s : State) : Host.Outcome State Fault Refusal :=
  match accessTarget s.cfg width address with
  | .reg r => writeReg r v s
  | .lmemByte a => .next (s.memWrite a [v.extractLsb' 0 8])
  | .lmemWord a => .next (s.memWrite a (wordBytes v))
  | .refused why => .refused why

/-- One host access, performed to its end (20_memory.md R71, R74). -/
def hostAccess (a : HostAccess) (s : State) : Host.Outcome State Fault Refusal :=
  match a with
  | .read width address => hostRead width address s
  | .write width address value => hostWrite width address value s

/-- The host's next access taken off the queue. -/
def State.dropAccess (s : State) : State := { s with port := { s.port with pending := s.port.pending.tail } }

/-- The host's side of one step: the next access is performed; with none waiting the block waits
(70_reset_and_hazards.md R300; log 8). -/
def hostStep (s : State) : Host.Outcome State Fault Refusal :=
  match s.port.pending with
  | [] => .next s
  | a :: _ => hostAccess a s.dropAccess

/-- The host's queue with a write of `w` to CMD put in front. -/
def State.issueCommand (s : State) (w : Word) : State :=
  { s with port := { s.port with pending := .write 4 (regAddress s.cfg .cmd) w :: s.port.pending } }

end Sys2Proof.Machine
end

