-- ==== Sys2Proof/Machine/Step.lean ====
section
/-! DEFINITION. One step of the machine: the host's next access, on parameters that keep the constraints of
00_scope.md R10. -/

namespace Sys2Proof.Machine

/-- One step: one host access performed in the order of issue (20_memory.md R74), on valid parameters
(00_scope.md R10; log 2). -/
def step (s : State) : Host.Outcome State Fault Refusal :=
  if paramsValid s.cfg then hostStep s else .fault .parameterConstraint

/-- `s` with the instruction whose bits are `w` as the host's next write to CMD, so that the next step runs
it (log 7). -/
def State.withFetchWord (s : State) (nbits w : Nat) : State :=
  s.issueCommand (BitVec.ofNat 32 (w % 2 ^ nbits))

end Sys2Proof.Machine
end

