-- ==== Sys2Proof/Machine/HostProgram.lean ====
section
/-! DEFINITION. Host programs: the lines of 30_encoding.md R89 and the command lines of R90, each with the
host accesses it expands to at the block's base address. Their text is read in Sys2Proof/Machine/HostText.lean. -/

namespace Sys2Proof.Machine

/-- A command line with its operands in the order of its text (30_encoding.md R90). -/
inductive CommandLine where
  | nop
  | softReset
  | kissEscape (src len dst : Word)
  | kissUnescape (src len dst : Word)
  | findFrame (buf : BufSel)
  | bufWrite (buf : BufSel) (src len : Word)
  | bufPeek (buf : BufSel) (index len dst : Word)
  | bufPop (buf : BufSel) (n : Word)
  | bufClear (buf : BufSel)
  | scrBit (b : Byte)
  | descrBit (b : Byte)
  | scrBlock (src len dst : Word)
  | descrBlock (src len dst : Word)
  | rsEncode (n : Byte) (src dlen dst : Word)
  | rsDecode (n : Byte) (src dlen dst : Word)
  | crcCalc (src len : Word)
  | crcVerify (src len rx : Word)
  | hdrBuild (n dst : Word)
  | hdrParse (src : Word)
  | fcEncode (src len dst : Word)
  | fcDecode (src len dst : Word)
  | arbStep (now : Word) (sample : Half) (q busy : Bool)
  deriving DecidableEq, Repr

/-- `wr REG, v` (30_encoding.md R89). -/
def wr (cfg : Config) (r : Reg) (v : Word) : HostAccess := .write 4 (regAddress cfg r) v

/-- The IMM8 of a buffer written `cmd` or `data` (30_encoding.md R90). -/
def bufImm : BufSel → Byte
  | .cmd => 0
  | .data => 1

/-- The IMM8 of the arbiter flags, (busy << 1) | q (30_encoding.md R90). -/
def arbImm (q busy : Bool) : Byte := (BitVec.ofBool busy ++ BitVec.ofBool q).setWidth 8

/-- The CMD write of a command. -/
def wrCmd (cfg : Config) (i : Instr) : HostAccess := wr cfg .cmd (encode i)

/-- ARG0 to ARG2, then the command. -/
def wrArgs3 (cfg : Config) (a b c : Word) (i : Instr) : List HostAccess :=
  [wr cfg .arg0 a, wr cfg .arg1 b, wr cfg .arg2 c, wrCmd cfg i]

/-- The writes a command line expands to (30_encoding.md R90): the ARG registers the command reads, in their
order, then CMD. -/
def expandCommand (cfg : Config) : CommandLine → List HostAccess
  | .nop => [wrCmd cfg .nop]
  | .softReset => [wrCmd cfg .softReset]
  | .kissEscape src len dst => wrArgs3 cfg src len dst .kissEscape
  | .kissUnescape src len dst => wrArgs3 cfg src len dst .kissUnescape
  | .findFrame buf => [wrCmd cfg (.findFrame (bufImm buf))]
  | .bufWrite buf src len => [wr cfg .arg0 src, wr cfg .arg1 len, wrCmd cfg (.bufWrite (bufImm buf))]
  | .bufPeek buf index len dst => wrArgs3 cfg index len dst (.bufPeek (bufImm buf))
  | .bufPop buf n => [wr cfg .arg1 n, wrCmd cfg (.bufPop (bufImm buf))]
  | .bufClear buf => [wrCmd cfg (.bufClear (bufImm buf))]
  | .scrBit b => [wrCmd cfg (.scrBit b)]
  | .descrBit b => [wrCmd cfg (.descrBit b)]
  | .scrBlock src len dst => wrArgs3 cfg src len dst .scrBlock
  | .descrBlock src len dst => wrArgs3 cfg src len dst .descrBlock
  | .rsEncode n src dlen dst => wrArgs3 cfg src dlen dst (.rsEncode n)
  | .rsDecode n src dlen dst => wrArgs3 cfg src dlen dst (.rsDecode n)
  | .crcCalc src len => [wr cfg .arg0 src, wr cfg .arg1 len, wrCmd cfg .crcCalc]
  | .crcVerify src len rx => [wr cfg .arg0 src, wr cfg .arg1 len, wr cfg .arg3 rx, wrCmd cfg .crcVerify]
  | .hdrBuild n dst => [wr cfg .arg2 dst, wr cfg .arg3 n, wrCmd cfg .hdrBuild]
  | .hdrParse src => [wr cfg .arg0 src, wrCmd cfg .hdrParse]
  | .fcEncode src len dst => wrArgs3 cfg src len dst .fcEncode
  | .fcDecode src len dst => wrArgs3 cfg src len dst .fcDecode
  | .arbStep now sample q busy =>
    [wr cfg .arg0 now, wr cfg .arg1 (sample.setWidth 32), wrCmd cfg (.arbStep (arbImm q busy))]

/-- A line of a host program (30_encoding.md R89). -/
inductive HostLine where
  | wr (r : Reg) (v : Word)
  | rd (r : Reg)
  | wrb (a : Nat) (bytes : Bytes)
  | rdb (a n : Nat)
  | command (c : CommandLine)
  deriving DecidableEq, Repr

/-- The byte writes of `wrb a, b0 b1 ...` (30_encoding.md R89). -/
def expandBytes (cfg : Config) : Nat → Bytes → List HostAccess
  | _, [] => []
  | a, v :: bs => .write 1 (lmemAddress cfg a) (v.setWidth 32) :: expandBytes cfg (a + 1) bs

/-- The host accesses of a line, in order (30_encoding.md R89, R90). -/
def expandLine (cfg : Config) : HostLine → List HostAccess
  | .wr r v => [Sys2Proof.Machine.wr cfg r v]
  | .rd r => [.read 4 (regAddress cfg r)]
  | .wrb a bytes => expandBytes cfg a bytes
  | .rdb a n => (List.range n).map fun i => .read 1 (lmemAddress cfg (a + i))
  | .command c => expandCommand cfg c

/-- `s` with the accesses of a host program waiting behind those already issued. -/
def State.issueProgram (s : State) (lines : List HostLine) : State :=
  { s with port := { s.port with pending := s.port.pending ++ lines.flatMap (expandLine s.cfg) } }

end Sys2Proof.Machine
end

