-- ==== Sys2Proof/Safety.lean ====
section
/-! DEFINITION. The vocabulary of the statements: a good state, how a command ends, what a store leaves of
LMEM, what each command stores, and which host accesses the spec permits. -/

namespace Sys2Proof

open Machine

/-- The invariant of the block: valid parameters (00_scope.md R10), LMEM and both buffers in their form
(10_state.md R42, 40_byte_framer.md R104), the scrambler registers inside SCR_W bits (10_state.md R32, R33),
and TX_STAGE one of the two terminal stages (10_state.md R40, R47). -/
structure Machine.State.Inv (s : State) : Prop where
  params : paramsValid s.cfg = true
  lmem : memWf s.cfg.lmemSize s.lmem
  cmdBuf : bufWf s.cfg.cmdCap s.cmdBuf
  dataBuf : bufWf s.cfg.dataCap s.dataBuf
  scrTx : s.scrTx.toNat < 2 ^ s.cfg.scrWidth
  scrRx : s.scrRx.toNat < 2 ^ s.cfg.scrWidth
  txStage : s.fcStage.tx = .idle ∨ s.fcStage.tx = .ready

/-- The state of a command that ended with `code` and the given results and changed nothing else
(60_exceptions.md R270). -/
def resultState (s : State) (code : ResultCode) (r0 r1 r2 : Word) : State :=
  { s with status := { code := code, crcBad := false, noTrailer := false, discarded := false },
           result0 := r0, result1 := r1, result2 := r2 }

/-- The state of a command that ended with an error code and changed nothing else (60_exceptions.md R272). -/
def errorState (s : State) (code : ResultCode) : State := resultState s code 0 0 0

/-- LMEM `after` a store of `out` at `dst`: the bytes from `dst` on read as `out`, every other byte as
`before`. -/
def Stored (before after : Memory) (dst : Nat) (out : Bytes) : Prop :=
  ∀ a, lmemByte after a = if dst ≤ a ∧ a < dst + out.length then out.getD (a - dst) 0 else lmemByte before a

/-- The IMM8 that selects a buffer (30_encoding.md R82). -/
def bufNumber : BufSel → Byte
  | .cmd => 0
  | .data => 1

/-- The IMM8 that gives an input bit (30_encoding.md R82). -/
def bitNumber (x : Bool) : Byte := if x then 1 else 0

/-- The IMM8 that gives the arbiter flags (30_encoding.md R82). -/
def arbNumber (q txBusy : Bool) : Byte := (if q then 1 else 0) + (if txBusy then 2 else 0)

/-- The parity counts a command accepts (00_scope.md R11). -/
def parityCounts : List Nat := [2, 4, 6, 8, 16]

/-- The codes of class error that leave nothing behind (60_exceptions.md R272): no LMEM byte, buffer, register
or arbiter field changes besides CMD, STATUS.CODE and the prologue. -/
def silentError : ResultCode → Bool
  | .frameCorrupt => true
  | .uncorrectable => true
  | .illegalCommand => true
  | .invalidParam => true
  | .invalidLength => true
  | .addressError => true
  | .ok => false
  | .notFound => false
  | .channelBusy => false
  | .bufferOverflow => false
  | .headerUncorrectable => false
  | .payloadUncorrectable => false
  | .crcMismatch => false
  | .frameLength => false

/-- The codes each command may end with (60_exceptions.md R271, the column "raised by", and the exceptions
each command's rule lists). -/
def codesOf : Instr → List ResultCode
  | .nop => [.ok]
  | .softReset => [.ok]
  | .kissEscape => [.ok, .addressError]
  | .kissUnescape => [.ok, .frameCorrupt, .addressError]
  | .findFrame _ => [.ok, .notFound, .invalidParam]
  | .bufWrite _ => [.ok, .bufferOverflow, .invalidParam, .addressError]
  | .bufPeek _ => [.ok, .invalidParam, .invalidLength, .addressError]
  | .bufPop _ => [.ok, .invalidParam, .invalidLength]
  | .bufClear _ => [.ok, .invalidParam]
  | .scrBit _ => [.ok, .invalidParam]
  | .descrBit _ => [.ok, .invalidParam]
  | .scrBlock => [.ok, .invalidLength, .addressError]
  | .descrBlock => [.ok, .invalidLength, .addressError]
  | .rsEncode _ => [.ok, .invalidParam, .invalidLength, .addressError]
  | .rsDecode _ => [.ok, .uncorrectable, .invalidParam, .invalidLength, .addressError]
  | .crcCalc => [.ok, .addressError]
  | .crcVerify => [.ok, .crcMismatch, .addressError]
  | .hdrBuild => [.ok, .invalidLength, .addressError]
  | .hdrParse => [.ok, .addressError]
  | .fcEncode => [.ok, .invalidLength, .addressError]
  | .fcDecode =>
    [.ok, .headerUncorrectable, .payloadUncorrectable, .crcMismatch, .frameLength, .addressError]
  | .arbStep _ => [.ok, .channelBusy, .invalidParam]

/-- The commands that store nothing in LMEM (40_byte_framer.md to 46_system.md, each command's rule). -/
def storesNothing : Instr → Bool
  | .nop => true
  | .softReset => true
  | .kissEscape => false
  | .kissUnescape => false
  | .findFrame _ => true
  | .bufWrite _ => true
  | .bufPeek _ => false
  | .bufPop _ => true
  | .bufClear _ => true
  | .scrBit _ => true
  | .descrBit _ => true
  | .scrBlock => false
  | .descrBlock => false
  | .rsEncode _ => false
  | .rsDecode _ => false
  | .crcCalc => true
  | .crcVerify => true
  | .hdrBuild => false
  | .hdrParse => true
  | .fcEncode => false
  | .fcDecode => false
  | .arbStep _ => true

/-- The source region of a command, ARG1 bytes from ARG0 on. -/
def sourceBytes (s : State) : Bytes := lmemBytes s.lmem s.arg0.toNat s.arg1.toNat

/-- The bytes a command stores from the address in ARG2 on when it ends OK, computed as its meaning computes
them; none for a command that stores nothing. -/
def outputBytes (i : Instr) (s : State) : Bytes :=
  match i with
  | .kissEscape => escape (sourceBytes s)
  | .kissUnescape =>
    match unescape (sourceBytes s) with
    | some u => u.out
    | none => []
  | .bufPeek imm =>
    match bufOperand imm with
    | some sel => (List.range s.arg1.toNat).map fun j => bufPeek sel (bufCap s.cfg sel) (s.buf sel) (s.arg0.toNat + j)
    | none => []
  | .scrBlock => scrambleBlock s.cfg (sourceBytes s)
  | .descrBlock => descrambleBlock s.cfg (sourceBytes s)
  | .rsEncode imm => rsParity s.cfg imm.toNat (sourceBytes s)
  | .rsDecode imm =>
    match rsDecode s.cfg imm.toNat (lmemBytes s.lmem s.arg0.toNat (s.arg1.toNat + imm.toNat)) with
    | some r => r.2
    | none => []
  | .hdrBuild => hdrBuild s.cfg s.arg3.toNat
  | .fcEncode => (fcEncode s.cfg ((sourceBytes s).headD 0) (sourceBytes s).tail).frame
  | .fcDecode =>
    match fcDecode s.cfg (sourceBytes s) s.crcStrict with
    | .ok d => d.cmd :: d.payload
    | .error _ => []
  | .nop => []
  | .softReset => []
  | .findFrame _ => []
  | .bufWrite _ => []
  | .bufPop _ => []
  | .bufClear _ => []
  | .scrBit _ => []
  | .descrBit _ => []
  | .crcCalc => []
  | .crcVerify => []
  | .hdrParse => []
  | .arbStep _ => []

/-- The offsets at which the block window permits an access (20_memory.md R60, R65, R66): an aligned word of the
registers, an aligned word or a single byte of LMEM. -/
def offsetPermitted (c : Config) (width offset : Nat) : Prop :=
  (width = 4 ∧ offset % 4 = 0 ∧
      (offset + 4 ≤ 0x58 ∨ (0x1000 ≤ offset ∧ offset + 4 ≤ 0x1000 + c.lmemSize))) ∨
    (width = 1 ∧ 0x1000 ≤ offset ∧ offset < 0x1000 + c.lmemSize)

/-- The host accesses the block permits: the address is BLOCK_BASE and a permitted offset (20_memory.md R60). -/
def accessPermitted (c : Config) (width address : Nat) : Prop :=
  c.blockBase ≤ address ∧ offsetPermitted c width (address - c.blockBase)

/-- The bits of a register that are fields, for registers other than CMD (10_state.md R24 to R41). -/
def fieldMask (c : Config) : Reg → Word
  | .cmd => 0xFFFFFFFF
  | .status => 0x7FF
  | .flags => 0x3
  | .config => 0x1
  | .ccaThreshold => 0xFFFF
  | .arg0 => 0xFFFFFFFF
  | .arg1 => 0xFFFFFFFF
  | .arg2 => 0xFFFFFFFF
  | .arg3 => 0xFFFFFFFF
  | .result0 => 0xFFFFFFFF
  | .result1 => 0xFFFFFFFF
  | .result2 => 0xFFFFFFFF
  | .scrTxState => BitVec.ofNat 32 (2 ^ c.scrWidth - 1)
  | .scrRxState => BitVec.ofNat 32 (2 ^ c.scrWidth - 1)
  | .arbState => 0x103
  | .arbClearStart => 0xFFFFFFFF
  | .arbLastBusy => 0xFFFFFFFF
  | .arbSettle => 0xFFFFFFFF
  | .bufCount => 0xFFFFFFFF
  | .ovfCount => 0xFFFFFFFF
  | .fcStage => 0xFF
  | .bufCap => 0xFFFFFFFF

/-- The registers of access R (10_state.md R23). -/
def readOnlyRegs : List Reg :=
  [.status, .result0, .result1, .result2, .arbState, .arbClearStart, .arbLastBusy, .arbSettle, .bufCount,
   .ovfCount, .fcStage, .bufCap]

/-- The registers of access RW (10_state.md R23). -/
def readWriteRegs : List Reg :=
  [.config, .ccaThreshold, .arg0, .arg1, .arg2, .arg3, .scrTxState, .scrRxState]

/-- The reset column of the register map (10_state.md R23). -/
def resetWord (c : Config) : Reg → Word
  | .cmd => 0
  | .status => 0
  | .flags => 0
  | .config => 0
  | .ccaThreshold => c.ccaReset.setWidth 32
  | .arg0 => 0
  | .arg1 => 0
  | .arg2 => 0
  | .arg3 => 0
  | .result0 => 0
  | .result1 => 0
  | .result2 => 0
  | .scrTxState => c.scrTxSeed
  | .scrRxState => c.scrRxSeed
  | .arbState => 0
  | .arbClearStart => 0
  | .arbLastBusy => 0
  | .arbSettle => c.settleTicks
  | .bufCount => 0
  | .ovfCount => 0
  | .fcStage => 0
  | .bufCap => (BitVec.ofNat 32 c.dataCap <<< 16) ||| BitVec.ofNat 32 c.cmdCap

/-- The mask of an opcode row by its IMM8 kind (30_encoding.md R86). -/
def rowMask : ImmKind → Word
  | .z => 0xFFFFFFFF
  | .buf => 0xFFFF00FF
  | .nr => 0xFFFF00FF
  | .bit => 0xFFFF00FF
  | .af => 0xFFFF00FF

/-- The match value of an opcode row (30_encoding.md R86). -/
def rowMatch (i : Instr) : Word := i.opcode.setWidth 32

end Sys2Proof
end

