-- ==== Sys2Proof/WellFormed.lean ====
section
/-! DEFINITION. Which commands carry an IMM8 that its kind allows (30_encoding.md R82). A command that
fails the check still has a word and a meaning: it raises INVALID_PARAM. -/

namespace Sys2Proof

/-- The IMM8 values each kind allows (30_encoding.md R82). -/
def ImmKind.allows : ImmKind → Byte → Bool
  | .z, imm => imm = 0
  | .buf, imm => imm = 0 || imm = 1
  | .nr, imm => imm = 2 || imm = 4 || imm = 6 || imm = 8 || imm = 16
  | .bit, imm => imm = 0 || imm = 1
  | .af, imm => imm >>> 2 = 0

/-- A command is well formed when its IMM8 is one its kind allows. -/
def Instr.wf (i : Instr) : Bool := i.immKind.allows i.imm8

end Sys2Proof
end

