-- ==== Sys2Proof/Certificates/Slice0/Obligations.lean ====
section
/-! DEFINITION. The statements for the provers. Each docstring names the rule of spec/ a statement
formalises; where a statement rests on a choice of the model, it names the log entry. -/

open Sys2Proof Sys2Proof.Machine

/-! ### Encoding -/

/-- 30_encoding.md R80 to R87: the decoder reads a command from a word exactly when the word is that command's
encoding. No bit of a word is dropped and no two words mean the same. -/
def Obligations.DecodeIffEncode : Prop := ∀ (w : Word) (i : Instr), decode w = .ok i ↔ w = encode i

/-- 30_encoding.md R86: a word selects a row when the masked word is the row's match value, and at most one
row matches. -/
def Obligations.RowsByMaskAndMatch : Prop :=
  (∀ w i, decode w = .ok i → w &&& rowMask i.immKind = rowMatch i) ∧
    (∀ w i, w &&& rowMask i.immKind = rowMatch i → ∃ j, decode w = .ok j ∧ j.opcode = i.opcode) ∧
    ∀ (w : Word) (i j : Instr), w &&& rowMask i.immKind = rowMatch i → w &&& rowMask j.immKind = rowMatch j →
      i.opcode = j.opcode

/-- 30_encoding.md R91: the worked encodings, for every base address of the block. -/
def Obligations.WorkedEncodings : Prop :=
  (∀ c, expandCommand c (.findFrame .data) = [.write 4 (c.blockBase + 0x000) 0x00000112]) ∧
    (∀ c src dlen dst, (expandCommand c (.rsDecode 16 src dlen dst)).getLast? =
      some (.write 4 (c.blockBase + 0x000) 0x00001031)) ∧
    (∀ c, expandCommand c (.arbStep 4000 (-91) true false) =
      [.write 4 (c.blockBase + 0x014) 0x00000FA0, .write 4 (c.blockBase + 0x018) 0x0000FFA5,
        .write 4 (c.blockBase + 0x000) 0x00000150]) ∧
    decode 0x00010000 = .error .reservedBits ∧ decode 0x00000110 = .error .immediateNotZero ∧
    decode 0x00000112 = .ok (.findFrame 1) ∧ decode 0x00001031 = .ok (.rsDecode 16) ∧
    decode 0x00000150 = .ok (.arbStep 1) ∧ decode 0x00000212 = .ok (.findFrame 2) ∧
    ∀ s, exec (.findFrame 2) s = .next (errorState s .invalidParam)

/-- 30_encoding.md R87: what an illegal word is, and that executing it raises ILLEGAL_COMMAND and changes
nothing else besides the prologue of 60_exceptions.md R270. -/
def Obligations.IllegalWordReported : Prop :=
  ∀ w : Word,
    ((∀ i, w ≠ encode i) ↔
      rsvField w ≠ 0 ∨ (∀ i : Instr, i.opcode ≠ opcField w) ∨
        ∃ i : Instr, i.immKind = .z ∧ i.opcode = opcField w ∧ immField w ≠ 0) ∧
    ((∀ i, w ≠ encode i) → ∀ s : State, execWord w s = .next (errorState s .illegalCommand))

/-- 10_state.md R25, 60_exceptions.md R270: when the host's next access writes CMD, the step stores the word in
CMD, takes the access and executes the word: the command it decodes to, or ILLEGAL_COMMAND. That the host's
accesses wait in a queue is the model's choice (log 7). -/
def Obligations.StepRunsDecodedCommand : Prop :=
  ∀ (s : State) (w : Word) (rest : List HostAccess), paramsValid s.cfg = true →
    s.port.pending = .write 4 (s.cfg.blockBase + 0x000) w :: rest →
    let taken : State := { s with cmd := w, port := { s.port with pending := rest } }
    (∀ i, decode w = .ok i → step s = exec i taken) ∧
      (∀ e, decode w = .error e → step s = .next (errorState taken .illegalCommand))

/-- 30_encoding.md R82, 60_exceptions.md R272, R273: an IMM8 outside its kind raises INVALID_PARAM before
anything else is looked at, and nothing changes. -/
def Obligations.ImmediateOutsideKindRaisesInvalidParam : Prop :=
  ∀ (i : Instr) (s : State), i.wf = false → exec i s = .next (errorState s .invalidParam)

/-! ### Host accesses and registers -/

/-- 20_memory.md R60, R63, R65, R66, R73: the host's next access has a step exactly when the block window permits
it. The queue of accesses is the model's choice (log 7); that an address below BLOCK_BASE is refused is DEDUCED
(log 11), and so is the refusal of an aligned word that runs past the end of an LMEM whose size is no multiple of 4
(log 19). -/
def Obligations.AccessStepsExactlyWhenPermitted : Prop :=
  ∀ (s : State) (a : HostAccess) (rest : List HostAccess), paramsValid s.cfg = true →
    s.port.pending = a :: rest →
    ∀ width address, (a = .read width address ∨ ∃ v, a = .write width address v) →
      (accessPermitted s.cfg width address → ∃ t, step s = .next t) ∧
        (¬accessPermitted s.cfg width address → ∃ why, step s = .refused why)

/-- 20_memory.md R68, 10_state.md R23: a host read changes nothing in the block; it returns the register's
value, the LMEM byte, or the LMEM word, little-endian. That the access waits in a queue and the value goes
to `port.observed` is the model's choice (logs 7 and 8). -/
def Obligations.HostReadHasNoSideEffect : Prop :=
  ∀ (s : State) (rest : List HostAccess), paramsValid s.cfg = true →
    (∀ r, s.port.pending = .read 4 (s.cfg.blockBase + regOffset r) :: rest →
      step s = .next { s with port := ⟨rest, readReg s r :: s.port.observed⟩ }) ∧
    (∀ a, a < s.cfg.lmemSize → s.port.pending = .read 1 (s.cfg.blockBase + (0x1000 + a)) :: rest →
      step s = .next { s with port := ⟨rest, (lmemByte s.lmem a).setWidth 32 :: s.port.observed⟩ }) ∧
    (∀ a, a % 4 = 0 → a + 4 ≤ s.cfg.lmemSize → s.port.pending = .read 4 (s.cfg.blockBase + (0x1000 + a)) :: rest →
      step s = .next { s with port := ⟨rest,
        BitVec.ofNat 32 ((lmemByte s.lmem a).toNat + 256 * (lmemByte s.lmem (a + 1)).toNat +
          65536 * (lmemByte s.lmem (a + 2)).toNat + 16777216 * (lmemByte s.lmem (a + 3)).toNat) ::
          s.port.observed⟩ })

/-- 20_memory.md R64, R68: a host write to LMEM stores a byte, or an aligned word little-endian, and changes
nothing else. That a byte write takes the low byte of the value is DEDUCED (log 20); the
queue is the model's choice (log 7). -/
def Obligations.HostWriteToLmem : Prop :=
  ∀ (s : State) (v : Word) (rest : List HostAccess), paramsValid s.cfg = true →
    (∀ a, a < s.cfg.lmemSize → s.port.pending = .write 1 (s.cfg.blockBase + (0x1000 + a)) v :: rest →
      ∃ m, step s = .next { s with lmem := m, port := { s.port with pending := rest } } ∧
        Stored s.lmem m a [v.extractLsb' 0 8]) ∧
    (∀ a, a % 4 = 0 → a + 4 ≤ s.cfg.lmemSize → s.port.pending = .write 4 (s.cfg.blockBase + (0x1000 + a)) v :: rest →
      ∃ m, step s = .next { s with lmem := m, port := { s.port with pending := rest } } ∧
        Stored s.lmem m a
          [v.extractLsb' 0 8, v.extractLsb' 8 8, v.extractLsb' 16 8, v.extractLsb' 24 8])

/-- 10_state.md R24: a bit that is no field reads 0 and ignores writes, and a write to a register of access R
changes nothing. The queue of accesses is the model's choice (log 7). -/
def Obligations.ReservedBitsAndReadOnlyRegisters : Prop :=
  (∀ s r, readReg s r &&& ~~~fieldMask s.cfg r = 0) ∧
    (∀ (s t : State) (v v' : Word) (r : Reg) (rest : List HostAccess), r ≠ .cmd → paramsValid s.cfg = true →
      v &&& fieldMask s.cfg r = v' &&& fieldMask s.cfg r →
      s.port.pending = .write 4 (s.cfg.blockBase + regOffset r) v :: rest →
      t = { s with port := { s.port with pending := .write 4 (s.cfg.blockBase + regOffset r) v' :: rest } } → step s = step t) ∧
    ∀ (s : State) (v : Word) (r : Reg) (rest : List HostAccess), r ∈ readOnlyRegs → paramsValid s.cfg = true →
      s.port.pending = .write 4 (s.cfg.blockBase + regOffset r) v :: rest →
      step s = .next { s with port := { s.port with pending := rest } }

/-- 10_state.md R23, R28 to R30, R32, R33: a write to a register of access RW is what a read of it then
returns, in its fields; every other register reads as before, LMEM and the buffers stay. The queue of accesses is the
model's choice (log 7). -/
def Obligations.WritableRegistersReadBack : Prop :=
  ∀ (s : State) (v : Word) (r : Reg) (rest : List HostAccess), r ∈ readWriteRegs → paramsValid s.cfg = true →
    s.port.pending = .write 4 (s.cfg.blockBase + regOffset r) v :: rest →
    ∃ t, step s = .next t ∧ readReg t r = v &&& fieldMask s.cfg r ∧
      (∀ r', r' ≠ r → readReg t r' = readReg s r') ∧ t.lmem = s.lmem ∧ t.cmdBuf = s.cmdBuf ∧
      t.dataBuf = s.dataBuf ∧ t.cfg = s.cfg ∧ t.port = { s.port with pending := rest }

/-- 10_state.md R27, R39: a host write to FLAGS clears the flag and the drop counter of each buffer whose bit
is 1, and changes nothing else. The queue of accesses is the model's choice (log 7). -/
def Obligations.FlagsWriteOneToClear : Prop :=
  ∀ (s : State) (v : Word) (rest : List HostAccess), paramsValid s.cfg = true →
    s.port.pending = .write 4 (s.cfg.blockBase + 0x008) v :: rest →
    ∃ t, step s = .next t ∧
      t = { s with cmdBuf := { s.cmdBuf with ovf := t.cmdBuf.ovf, drops := t.cmdBuf.drops },
                   dataBuf := { s.dataBuf with ovf := t.dataBuf.ovf, drops := t.dataBuf.drops },
                   port := { s.port with pending := rest } } ∧
      readReg t .flags = readReg s .flags &&& ~~~v ∧
      (v.getLsbD 0 = true → t.cmdBuf.drops = 0) ∧ (v.getLsbD 0 = false → t.cmdBuf.drops = s.cmdBuf.drops) ∧
      (v.getLsbD 1 = true → t.dataBuf.drops = 0) ∧ (v.getLsbD 1 = false → t.dataBuf.drops = s.dataBuf.drops)

/-- 10_state.md R23, 70_reset_and_hazards.md R301: every register reads its reset value after power-on, both
buffers are empty and nothing of LMEM has been written. -/
def Obligations.PowerOnRegisters : Prop :=
  ∀ c, paramsValid c = true → (∀ r, readReg (State.powerOn c) r = resetWord c r) ∧
    (∀ sel, (State.powerOn c).content sel = []) ∧ ∀ a, memLookup (State.powerOn c).lmem a = none

/-- 00_scope.md R10 and 70_reset_and_hazards.md R300: a model must check the constraints on its parameters, and
with no host access waiting the block waits. That the check is made at every step and its failure is a fault
(log 2), and that waiting leaves the state as it is (log 8), are the model's choices. -/
def Obligations.StepWithoutAnAccess : Prop :=
  ∀ s : State, (step s = .fault .parameterConstraint ↔ paramsValid s.cfg = false) ∧
    (paramsValid s.cfg = true → s.port.pending = [] → step s = .next s)

/-! ### System commands -/

/-- 46_system.md R260. -/
def Obligations.NopResult : Prop := ∀ s : State, exec .nop s = .next (resultState s .ok 0 0 0)

/-- 46_system.md R261, 70_reset_and_hazards.md R301, the SOFT_RESET column; the store bytes are unchanged. -/
def Obligations.SoftResetResult : Prop :=
  ∀ s : State, exec .softReset s = .next { resultState s .ok 0 0 0 with
    arg0 := 0, arg1 := 0, arg2 := 0, arg3 := 0, scrTx := s.cfg.scrTxSeed, scrRx := s.cfg.scrRxSeed,
    arb := { mode := .receiving, clearValid := false, clearStart := 0, lastBusy := 0 },
    fcStage := { tx := .idle, rx := .noneYet },
    cmdBuf := { s.cmdBuf with head := 0, count := 0, ovf := false, drops := 0 },
    dataBuf := { s.dataBuf with head := 0, count := 0, ovf := false, drops := 0 } }

/-! ### Buffers -/

/-- 40_byte_framer.md R105: the bytes that fit are pushed in order, the rest is dropped and reported. -/
def Obligations.BufWriteResult : Prop :=
  ∀ (s : State) (sel : BufSel), bufWf (bufCap s.cfg sel) (s.buf sel) →
    let len := s.arg1.toNat
    let p := lmemBytes s.lmem s.arg0.toNat len
    let room := bufCap s.cfg sel - (s.buf sel).count
    (¬regionOk s.cfg s.arg0.toNat len →
      exec (.bufWrite (bufNumber sel)) s = .next (errorState s .addressError)) ∧
    (regionOk s.cfg s.arg0.toNat len → ∃ b : Buffer,
      exec (.bufWrite (bufNumber sel)) s =
        .next ((resultState s (if room < len then .bufferOverflow else .ok) (toWord (min len room))
          (toWord (len - room)) 0).setBuf sel b) ∧
      bufContent sel (bufCap s.cfg sel) b = s.content sel ++ p.take room ∧
      b.ovf = ((s.buf sel).ovf || decide (room < len)) ∧
      b.drops.toNat = min ((s.buf sel).drops.toNat + (len - room)) 0xFFFF) ∧
    ∀ imm : Byte, 1 < imm.toNat → exec (.bufWrite imm) s = .next (errorState s .invalidParam)

/-- 40_byte_framer.md R106. -/
def Obligations.BufPeekResult : Prop :=
  ∀ (s : State) (sel : BufSel),
    let index := s.arg0.toNat
    let len := s.arg1.toNat
    let dst := s.arg2.toNat
    (¬index + len ≤ (s.buf sel).count →
      exec (.bufPeek (bufNumber sel)) s = .next (errorState s .invalidLength)) ∧
    (index + len ≤ (s.buf sel).count → ¬regionOk s.cfg dst len →
      exec (.bufPeek (bufNumber sel)) s = .next (errorState s .addressError)) ∧
    (index + len ≤ (s.buf sel).count → regionOk s.cfg dst len → ∃ m,
      exec (.bufPeek (bufNumber sel)) s = .next { resultState s .ok s.arg1 0 0 with lmem := m } ∧
      Stored s.lmem m dst (((s.content sel).drop index).take len)) ∧
    ∀ imm : Byte, 1 < imm.toNat → exec (.bufPeek imm) s = .next (errorState s .invalidParam)

/-- 40_byte_framer.md R107: no partial pop; the first n bytes of the content go. -/
def Obligations.BufPopResult : Prop :=
  ∀ (s : State) (sel : BufSel),
    let n := s.arg1.toNat
    (¬n ≤ (s.buf sel).count → exec (.bufPop (bufNumber sel)) s = .next (errorState s .invalidLength)) ∧
    (n ≤ (s.buf sel).count → ∃ b : Buffer,
      exec (.bufPop (bufNumber sel)) s = .next ((resultState s .ok s.arg1 0 0).setBuf sel b) ∧
      bufContent sel (bufCap s.cfg sel) b = (s.content sel).drop n ∧
      b.store = (s.buf sel).store ∧ b.ovf = (s.buf sel).ovf ∧ b.drops = (s.buf sel).drops) ∧
    ∀ imm : Byte, 1 < imm.toNat → exec (.bufPop imm) s = .next (errorState s .invalidParam)

/-- 40_byte_framer.md R108. -/
def Obligations.BufClearResult : Prop :=
  ∀ s : State,
    (∀ sel : BufSel, exec (.bufClear (bufNumber sel)) s = .next
      ((resultState s .ok (toWord (s.buf sel).count) 0 0).setBuf sel { s.buf sel with head := 0, count := 0 })) ∧
    ∀ imm : Byte, 1 < imm.toNat → exec (.bufClear imm) s = .next (errorState s .invalidParam)

/-- 40_byte_framer.md R104: a buffer never holds more than its capacity, and no command overwrites a byte of
the content: BUF_WRITE leaves the old content where it is and puts bytes behind it, every other command leaves an
end part of the old content. -/
def Obligations.NoCommandOverwritesContent : Prop :=
  ∀ (i : Instr) (s t : State) (sel : BufSel), s.Inv → exec i s = .next t →
    (t.buf sel).count ≤ bufCap t.cfg sel ∧
      ((∃ imm, i = .bufWrite imm) → s.content sel <+: t.content sel) ∧
      ((∀ imm, i ≠ .bufWrite imm) → t.content sel <:+ s.content sel)

/-! ### ByteFramer -/

/-- 40_byte_framer.md R116: FIND_FRAME reports what find_frame answers and removes the discarded bytes from the
head, nothing else. -/
def Obligations.FindFrameResult : Prop :=
  ∀ (s : State) (sel : BufSel),
    let f := findFrame (bufCap s.cfg sel) (s.content sel)
    (∃ b : Buffer,
      exec (.findFrame (bufNumber sel)) s = .next (({ resultState s .ok (toWord (f.length.getD 0))
        (toWord f.disc) 0 with
          status := { code := if f.length = none then .notFound else .ok, crcBad := false, noTrailer := false,
                      discarded := decide (0 < f.disc) } } : State).setBuf sel b) ∧
      bufContent sel (bufCap s.cfg sel) b = (s.content sel).drop f.disc ∧
      b.store = (s.buf sel).store ∧ b.ovf = (s.buf sel).ovf ∧ b.drops = (s.buf sel).drops) ∧
    ∀ imm : Byte, 1 < imm.toNat → exec (.findFrame imm) s = .next (errorState s .invalidParam)

/-- 40_byte_framer.md R114, R115: a frame found starts and ends with a delimiter, has none between, and is at
least 3 bytes long; only noise before the opening delimiter and duplicates of it were removed. -/
def Obligations.FoundFrameIsDelimited : Prop :=
  ∀ (cap : Nat) (c : Bytes) (len disc : Nat), findFrame cap c = { length := some len, disc := disc } →
    3 ≤ len ∧
    (∃ body : Bytes, (c.drop disc).take len = fend :: (body ++ [fend]) ∧ body.length + 2 = len ∧ fend ∉ body) ∧
    ∃ (noise : Bytes) (k : Nat), c.take disc = noise ++ List.replicate k fend ∧ fend ∉ noise

/-- 40_byte_framer.md R114, R115: when no frame is found, what stays is empty or an opening delimiter with no
other after it that does not fill the buffer; everything goes only where there was no delimiter, or a partial
frame filled the buffer. -/
def Obligations.NoFrameMeansNoClosingDelimiter : Prop :=
  ∀ (cap : Nat) (c : Bytes) (disc : Nat), c.length ≤ cap →
    findFrame cap c = { length := none, disc := disc } →
    (∃ (noise body : Bytes) (k : Nat), c = noise ++ List.replicate k fend ++ fend :: body ∧ fend ∉ noise ∧
        fend ∉ body ∧ disc = noise.length + k ∧ (fend :: body).length < cap) ∨
      (disc = c.length ∧ (fend ∉ c ∨ ∃ body, c = fend :: body ∧ fend ∉ body ∧ c.length = cap))

/-- 40_byte_framer.md R119: noise and repeated delimiters in front do not change the frame found. -/
def Obligations.FindFrameRobust : Prop :=
  ∀ (cap k : Nat) (z d : Bytes) (c : Byte), fend ∉ z → 1 ≤ k → c ≠ fend → fend ∉ d →
    z.length + k + d.length + 2 ≤ cap →
    let content := z ++ List.replicate k fend ++ [c] ++ d ++ [fend]
    let frame := [fend, c] ++ d ++ [fend]
    (findFrame cap content).length = some (d.length + 3) ∧
      content.drop (findFrame cap content).disc = frame ∧
      findFrame cap frame = { length := some (d.length + 3), disc := 0 }

/-- 40_byte_framer.md R109, 00_scope.md R18: an escaped frame is wrapped in delimiters, holds none inside, and
has one byte more for every delimiter or escape byte of the payload. -/
def Obligations.EscapeShape : Prop :=
  ∀ p : Bytes, (∃ body : Bytes, escape p = fend :: (body ++ [fend]) ∧ fend ∉ body) ∧
    (escape p).length = p.length + 2 + p.countP (fun v => v = fend || v = fesc) ∧
    2 ≤ (escape p).length ∧ (escape p).length ≤ 2 * p.length + 2

/-- 40_byte_framer.md R113. -/
def Obligations.UnescapeEscapeRoundTrip : Prop :=
  ∀ p : Bytes, unescape (escape p) = some { out := p, noTrailer := false, used := (escape p).length }

/-- 40_byte_framer.md R110. -/
def Obligations.KissEscapeResult : Prop :=
  ∀ s : State,
    let w := escape (lmemBytes s.lmem s.arg0.toNat s.arg1.toNat)
    let dst := s.arg2.toNat
    (¬regionOk s.cfg s.arg0.toNat s.arg1.toNat → exec .kissEscape s = .next (errorState s .addressError)) ∧
    (regionOk s.cfg s.arg0.toNat s.arg1.toNat → ¬regionOk s.cfg dst w.length →
      exec .kissEscape s = .next (errorState s .addressError)) ∧
    (regionOk s.cfg s.arg0.toNat s.arg1.toNat → regionOk s.cfg dst w.length → ∃ m,
      exec .kissEscape s = .next { resultState s .ok (toWord w.length) 0 0 with lmem := m } ∧
      Stored s.lmem m dst w)

/-- 40_byte_framer.md R112. -/
def Obligations.KissUnescapeResult : Prop :=
  ∀ s : State,
    let r := unescape (lmemBytes s.lmem s.arg0.toNat s.arg1.toNat)
    let dst := s.arg2.toNat
    (¬regionOk s.cfg s.arg0.toNat s.arg1.toNat → exec .kissUnescape s = .next (errorState s .addressError)) ∧
    (regionOk s.cfg s.arg0.toNat s.arg1.toNat → r = none →
      exec .kissUnescape s = .next (errorState s .frameCorrupt)) ∧
    (∀ u, regionOk s.cfg s.arg0.toNat s.arg1.toNat → r = some u → ¬regionOk s.cfg dst u.out.length →
      exec .kissUnescape s = .next (errorState s .addressError)) ∧
    (∀ u, regionOk s.cfg s.arg0.toNat s.arg1.toNat → r = some u → regionOk s.cfg dst u.out.length → ∃ m,
      exec .kissUnescape s = .next { resultState s .ok (toWord u.out.length) (toWord u.used) 0 with
        status := { code := .ok, crcBad := false, noTrailer := u.noTrailer, discarded := false }, lmem := m } ∧
      Stored s.lmem m dst u.out)

/-! ### Scrambler -/

/-- 41_scrambler.md R141, R143: the P0 bit functions in their C-like form on an integer, for a state of 9
bits. -/
def Obligations.BitFunctionsAtP0 : Prop :=
  ∀ (x : Bool) (s : Word), s.toNat < 2 ^ 9 →
    let b : Word := if x then 1 else 0
    (if shiftOut p0Scrambler x s then (1 : Word) else 0) = (s ^^^ (s >>> 4)) &&& 1 ∧
    shiftNext p0Scrambler x s = ((((b ^^^ s) &&& 1) <<< 9) ||| (s ^^^ ((s &&& 1) <<< 4))) >>> 1 ∧
    (if shiftOut p0Descrambler x s then (1 : Word) else 0) = (b ^^^ s) &&& 1 ∧
    shiftNext p0Descrambler x s = ((s >>> 1) ||| (b <<< 8)) ^^^ (b <<< 3)

/-- 41_scrambler.md R144, R147: one bit through the persistent register; nothing else changes. -/
def Obligations.BitCommandResults : Prop :=
  ∀ (s : State) (x : Bool), s.scrTx.toNat < 2 ^ s.cfg.scrWidth → s.scrRx.toNat < 2 ^ s.cfg.scrWidth →
    paramsValid s.cfg = true →
    exec (.scrBit (bitNumber x)) s =
      .next { resultState s .ok (if shiftOut s.cfg.scrambler x s.scrTx then 1 else 0) 0 0 with
        scrTx := shiftNext s.cfg.scrambler x s.scrTx } ∧
    exec (.descrBit (bitNumber x)) s =
      .next { resultState s .ok (if shiftOut s.cfg.descrambler x s.scrRx then 1 else 0) 0 0 with
        scrRx := shiftNext s.cfg.descrambler x s.scrRx } ∧
    ∀ imm : Byte, 1 < imm.toNat → exec (.scrBit imm) s = .next (errorState s .invalidParam) ∧
      exec (.descrBit imm) s = .next (errorState s .invalidParam)

/-- 41_scrambler.md R146, R148, R151: the block commands, for valid parameters; the persistent registers are not
used. -/
def Obligations.BlockCommandResults : Prop :=
  ∀ (s : State) (i : Instr) (f : Config → Bytes → Bytes),
    (i = .scrBlock ∧ f = scrambleBlock) ∨ (i = .descrBlock ∧ f = descrambleBlock) → paramsValid s.cfg = true →
    let len := s.arg1.toNat
    let dst := s.arg2.toNat
    (len = 0 → exec i s = .next (errorState s .invalidLength)) ∧
    (1 ≤ len → ¬regionOk s.cfg s.arg0.toNat len → exec i s = .next (errorState s .addressError)) ∧
    (1 ≤ len → regionOk s.cfg s.arg0.toNat len → ¬regionOk s.cfg dst len →
      exec i s = .next (errorState s .addressError)) ∧
    (1 ≤ len → regionOk s.cfg s.arg0.toNat len → regionOk s.cfg dst len → ∃ m,
      exec i s = .next { resultState s .ok s.arg1 0 0 with lmem := m } ∧
      Stored s.lmem m dst (f s.cfg (lmemBytes s.lmem s.arg0.toNat len)))

/-- 41_scrambler.md R149: from any initial state the P0 descrambler's output at bit k, from bit 9 on, is the
exclusive or of input bits k, k - 4 and k - 9, so two initial states agree there. -/
def Obligations.DescramblerSelfSynchronises : Prop :=
  ∀ (xs : List Bool) (r : Word), r.toNat < 2 ^ 9 → ∀ k, 9 ≤ k → k < xs.length →
    (shiftRun p0Descrambler xs r).1.getD k false =
      (xs.getD k false ^^ xs.getD (k - 4) false ^^ xs.getD (k - 9) false)

/-- 41_scrambler.md R150. -/
def Obligations.ScramblerRoundTrip : Prop :=
  ∀ p : Bytes, 1 ≤ p.length → descrambleBlock p0 (scrambleBlock p0 p) = p

/-! ### Reed–Solomon -/

/-- 42_reed_solomon.md R161, R162, 43_hamming_crc.md R190: the P0 table values, generator polynomials and CRC
check values the rules print. -/
def Obligations.PrintedTablesAtP0 : Prop :=
  let t := gfTables p0.rsGfPoly
  (List.range 16).map (gfExp t) =
      [0x01, 0x02, 0x04, 0x08, 0x10, 0x20, 0x40, 0x80, 0x1D, 0x3A, 0x74, 0xE8, 0xCD, 0x87, 0x13, 0x26] ∧
    [1, 2, 3, 4, 5, 6, 7, 8].map (gfLog t) = [0, 1, 25, 2, 50, 26, 198, 3] ∧ gfLog t 0 = 255 ∧
    rsGenerator p0 t 2 = [0x02, 0x03, 0x01] ∧ rsGenerator p0 t 4 = [0x40, 0x78, 0x36, 0x0F, 0x01] ∧
    rsGenerator p0 t 6 = [0x26, 0xE3, 0x20, 0xDA, 0x01, 0x3F, 0x01] ∧
    rsGenerator p0 t 8 = [0x18, 0xC8, 0xAD, 0xEF, 0x36, 0x51, 0x0B, 0xFF, 0x01] ∧
    rsGenerator p0 t 16 = [0x3B, 0x24, 0x32, 0x62, 0xE5, 0x29, 0x41, 0xA3, 0x08, 0x1E, 0xD1, 0x44, 0xBD, 0x68, 0x0D,
      0x3B, 0x01] ∧
    crc16 p0 [0x31, 0x32, 0x33, 0x34, 0x35, 0x36, 0x37, 0x38, 0x39] = 0x29B1 ∧ crc16 p0 [] = 0xFFFF

/-- 42_reed_solomon.md R165, at P0: an encoded block has zero syndromes and decodes to itself with no
correction. -/
def Obligations.CodewordDecodesToItself : Prop :=
  ∀ (nroots : Nat) (d : Bytes), nroots ∈ parityCounts → 1 ≤ d.length → d.length + nroots ≤ 255 →
    let c := d ++ rsParity p0 nroots d
    syndromes p0 (gfTables p0.rsGfPoly) nroots c = List.replicate nroots 0 ∧ rsDecode p0 nroots c = some (0, c)

/-- 42_reed_solomon.md R171 for the header's code, nroots 2 at P0: one changed symbol is corrected, wherever it
is, and counted. -/
def Obligations.SingleSymbolCorrected : Prop :=
  ∀ (d : Bytes) (j : Nat) (e : Byte), 1 ≤ d.length → d.length + 2 ≤ 255 → j < d.length + 2 → e ≠ 0 →
    let c := d ++ rsParity p0 2 d
    rsDecode p0 2 (c.modify j (· ^^^ e)) = some (1, c)

/-- 42_reed_solomon.md R166. -/
def Obligations.RsEncodeResult : Prop :=
  ∀ (s : State) (nroots : Nat), nroots ∈ parityCounts →
    let k := s.arg1.toNat
    let dst := s.arg2.toNat
    let i := Instr.rsEncode (BitVec.ofNat 8 nroots)
    (¬(1 ≤ k ∧ k + nroots ≤ 255) → exec i s = .next (errorState s .invalidLength)) ∧
    (1 ≤ k ∧ k + nroots ≤ 255 → ¬regionOk s.cfg s.arg0.toNat k → exec i s = .next (errorState s .addressError)) ∧
    (1 ≤ k ∧ k + nroots ≤ 255 → regionOk s.cfg s.arg0.toNat k → ¬regionOk s.cfg dst nroots →
      exec i s = .next (errorState s .addressError)) ∧
    (1 ≤ k ∧ k + nroots ≤ 255 → regionOk s.cfg s.arg0.toNat k → regionOk s.cfg dst nroots → ∃ m,
      exec i s = .next { resultState s .ok (toWord nroots) 0 0 with lmem := m } ∧
      Stored s.lmem m dst (rsParity s.cfg nroots (lmemBytes s.lmem s.arg0.toNat k))) ∧
    ∀ imm : Byte, imm.toNat ∉ parityCounts → exec (.rsEncode imm) s = .next (errorState s .invalidParam)

/-- 42_reed_solomon.md R170. -/
def Obligations.RsDecodeResult : Prop :=
  ∀ (s : State) (nroots : Nat), nroots ∈ parityCounts →
    let k := s.arg1.toNat
    let n := k + nroots
    let dst := s.arg2.toNat
    let i := Instr.rsDecode (BitVec.ofNat 8 nroots)
    let res := rsDecode s.cfg nroots (lmemBytes s.lmem s.arg0.toNat n)
    (¬(1 ≤ k ∧ n ≤ 255) → exec i s = .next (errorState s .invalidLength)) ∧
    (1 ≤ k ∧ n ≤ 255 → ¬regionOk s.cfg s.arg0.toNat n → exec i s = .next (errorState s .addressError)) ∧
    (1 ≤ k ∧ n ≤ 255 → regionOk s.cfg s.arg0.toNat n → res = none →
      exec i s = .next (errorState s .uncorrectable)) ∧
    (∀ count c, 1 ≤ k ∧ n ≤ 255 → regionOk s.cfg s.arg0.toNat n → res = some (count, c) →
      ¬regionOk s.cfg dst n → exec i s = .next (errorState s .addressError)) ∧
    (∀ count c, 1 ≤ k ∧ n ≤ 255 → regionOk s.cfg s.arg0.toNat n → res = some (count, c) →
      regionOk s.cfg dst n → ∃ m,
        exec i s = .next { resultState s .ok (toWord count) 0 0 with lmem := m } ∧ c.length = n ∧
        Stored s.lmem m dst c) ∧
    ∀ imm : Byte, imm.toNat ∉ parityCounts → exec (.rsDecode imm) s = .next (errorState s .invalidParam)

/-! ### HammingCrc -/

/-- 43_hamming_crc.md R192: HAM_DEC answers a nearest codeword's nibble, the smallest on a tie; at P0 there is
no tie and bit 7 is ignored. -/
def Obligations.HamDecodeIsNearest : Prop :=
  (∀ (c : Config) (v : Byte) (m : BitVec 4),
    hamDistance c v (hamDecode c v) ≤ hamDistance c v m ∧
      (hamDistance c v m = hamDistance c v (hamDecode c v) → (hamDecode c v).toNat ≤ m.toNat)) ∧
    (∀ (v : Byte) (m : BitVec 4), hamDistance p0 v m = hamDistance p0 v (hamDecode p0 v) → m = hamDecode p0 v) ∧
    ∀ v : Byte, hamDecode p0 v = hamDecode p0 (v ^^^ 0x80)

/-- 43_hamming_crc.md R195, 90_conflicts.md C5, for every valid choice of the parameters: one changed bit in each
codeword does no harm. -/
def Obligations.OneBitPerCrcByteIsCorrected : Prop :=
  ∀ c : Config, paramsValid c = true →
    (∀ (m : BitVec 4) (j : Fin 8), hamDecode c (hamEncode c m ^^^ (1 <<< j.val)) = m) ∧
    ∀ (p : Bytes) (e : Word),
      (∀ i, i < 4 → popcount (crcCodeByte e i ^^^ crcCodeByte (crcCalculate c p) i) ≤ 1) →
      crcVerifies c p e = true

/-- 43_hamming_crc.md R196, R197: CRC_CALC and CRC_VERIFY write results only; a mismatch is a result. That the
region of no bytes is valid at every address follows 20_memory.md R70 (DEDUCED, log 21). -/
def Obligations.CrcCommandResults : Prop :=
  ∀ s : State,
    let p := lmemBytes s.lmem s.arg0.toNat s.arg1.toNat
    let d := crcDecode s.cfg s.arg3
    let c := crc16 s.cfg p
    (¬regionOk s.cfg s.arg0.toNat s.arg1.toNat →
      exec .crcCalc s = .next (errorState s .addressError) ∧
      exec .crcVerify s = .next (errorState s .addressError)) ∧
    (regionOk s.cfg s.arg0.toNat s.arg1.toNat →
      exec .crcCalc s = .next (resultState s .ok (crcEncode s.cfg c) (c.setWidth 32) 0) ∧
      (d = c → exec .crcVerify s = .next (resultState s .ok 1 0 ((d ++ c).setWidth 32))) ∧
      (d ≠ c → exec .crcVerify s = .next { resultState s .crcMismatch 0 0 ((d ++ c).setWidth 32) with
        status := { code := .crcMismatch, crcBad := true, noTrailer := false, discarded := false } }))

/-! ### FrameCodec -/

/-- 44_frame_codec.md R213: the length bits replace the template's bits at their positions, every other bit is
the template's, parsing sums the ten bits and ignores every other, and parsing gives the length back. -/
def Obligations.HeaderLengthField : Prop :=
  ∀ (c : Config) (n : Nat), paramsValid c = true → n ≤ 1023 →
    (∀ j : Fin 10, ((hdrBuild c n).getD (c.hdrLenPos.get j).1.val 0).getLsbD (c.hdrLenPos.get j).2.val =
      n.testBit j.val) ∧
    (∀ (b : Fin 13) (k : Fin 8), (∀ j : Fin 10, c.hdrLenPos.get j ≠ (b, k)) →
      ((hdrBuild c n).getD b.val 0).getLsbD k.val = (c.hdrTemplate.get b).getLsbD k.val) ∧
    (∀ h : Bytes, hdrParse c h = ∑ j : Fin 10,
      ((h.getD (c.hdrLenPos.get j).1.val 0).getLsbD (c.hdrLenPos.get j).2.val).toNat * 2 ^ j.val) ∧
    hdrParse c (hdrBuild c n) = n

/-- 44_frame_codec.md R215, R216. -/
def Obligations.HeaderCommandResults : Prop :=
  ∀ s : State,
    let n := s.arg3.toNat
    let dst := s.arg2.toNat
    (1023 < n → exec .hdrBuild s = .next (errorState s .invalidLength)) ∧
    (n ≤ 1023 → ¬regionOk s.cfg dst 13 → exec .hdrBuild s = .next (errorState s .addressError)) ∧
    (n ≤ 1023 → regionOk s.cfg dst 13 → ∃ m,
      exec .hdrBuild s = .next { resultState s .ok 13 0 0 with lmem := m } ∧
      Stored s.lmem m dst (hdrBuild s.cfg n)) ∧
    (¬regionOk s.cfg s.arg0.toNat 13 → exec .hdrParse s = .next (errorState s .addressError)) ∧
    (regionOk s.cfg s.arg0.toNat 13 → exec .hdrParse s =
      .next (resultState s .ok (toWord (hdrParse s.cfg (lmemBytes s.lmem s.arg0.toNat 13))) 0 0)) ∧
    hdrParse s.cfg (lmemBytes s.lmem s.arg0.toNat 13) ≤ 1023

/-- 44_frame_codec.md R211: where each part of an encoded frame stands, for valid parameters. -/
def Obligations.EncodedFrameLayout : Prop :=
  ∀ (c : Config) (cmd : Byte) (d : Bytes), paramsValid c = true → 1 ≤ d.length → d.length ≤ 239 →
    let w := (fcEncode c cmd d).frame
    let hs := scrambleBlock c (hdrBuild c d.length)
    let ps := scrambleBlock c d
    let e := crcCalculate c ps
    w.length = 39 + d.length ∧ w.take 1 = [cmd] ∧ (w.drop 1).take 3 = c.sync.toList ∧
      (w.drop 4).take 13 = hs ∧ (w.drop 17).take 2 = rsParity c 2 hs ∧ (w.drop 19).take d.length = ps ∧
      (w.drop (19 + d.length)).take 16 = rsParity c 16 ps ∧
      w.drop (35 + d.length) =
        [e.extractLsb' 24 8, e.extractLsb' 16 8, e.extractLsb' 8 8, e.extractLsb' 0 8]

/-- 44_frame_codec.md R218, for valid parameters. -/
def Obligations.FcEncodeResult : Prop :=
  ∀ s : State, paramsValid s.cfg = true →
    let len := s.arg1.toNat
    let dst := s.arg2.toNat
    let f := lmemBytes s.lmem s.arg0.toNat len
    let r := fcEncode s.cfg (f.headD 0) f.tail
    let ps := scrambleBlock s.cfg f.tail
    (¬(2 ≤ len ∧ len ≤ 240) → exec .fcEncode s = .next (errorState s .invalidLength)) ∧
    (2 ≤ len ∧ len ≤ 240 → ¬regionOk s.cfg s.arg0.toNat len →
      exec .fcEncode s = .next (errorState s .addressError)) ∧
    (2 ≤ len ∧ len ≤ 240 → regionOk s.cfg s.arg0.toNat len → ¬regionOk s.cfg dst (38 + len) →
      exec .fcEncode s = .next (errorState s .addressError)) ∧
    (2 ≤ len ∧ len ≤ 240 → regionOk s.cfg s.arg0.toNat len → regionOk s.cfg dst (38 + len) → ∃ m,
      exec .fcEncode s = .next { resultState s .ok (toWord (38 + len)) (crcCalculate s.cfg ps)
        ((crc16 s.cfg ps).setWidth 32) with lmem := m, fcStage := { s.fcStage with tx := .ready } } ∧
      r.frame.length = 38 + len ∧ Stored s.lmem m dst r.frame)

/-- 44_frame_codec.md R221: a discarded frame leaves its code and RX_STAGE only; a delivered one its output and
results. That the region of no bytes is valid at every address follows 20_memory.md R70 (DEDUCED, log 21).
44_frame_codec.md R219: what fc_decode answers, each reason to discard a frame in its order with its code, and what
it delivers. -/
def Obligations.FcDecodeResult : Prop :=
  (∀ s : State,
    let r := fcDecode s.cfg (lmemBytes s.lmem s.arg0.toNat s.arg1.toNat) s.crcStrict
    let dst := s.arg2.toNat
    (¬regionOk s.cfg s.arg0.toNat s.arg1.toNat → exec .fcDecode s = .next (errorState s .addressError)) ∧
    (∀ code, regionOk s.cfg s.arg0.toNat s.arg1.toNat → r = .error code →
      exec .fcDecode s = .next { errorState s code with fcStage := { s.fcStage with rx := .discarded } }) ∧
    (∀ d, regionOk s.cfg s.arg0.toNat s.arg1.toNat → r = .ok d → ¬regionOk s.cfg dst (1 + d.payload.length) →
      exec .fcDecode s = .next (errorState s .addressError)) ∧
    (∀ d, regionOk s.cfg s.arg0.toNat s.arg1.toNat → r = .ok d → regionOk s.cfg dst (1 + d.payload.length) →
      ∃ m, exec .fcDecode s = .next { resultState s .ok (toWord (1 + d.payload.length))
          (toWord d.hdrFixed ||| (toWord d.payFixed <<< 8)) ((d.decodedCrc ++ d.computedCrc).setWidth 32) with
          status := { code := .ok, crcBad := !d.crcOk, noTrailer := false, discarded := false },
          fcStage := { s.fcStage with rx := .delivered }, lmem := m } ∧
        Stored s.lmem m dst (d.cmd :: d.payload))) ∧
  ∀ (c : Config) (w : Bytes) (strict : Bool),
    let r := fcDecode c w strict
    let hdr := rsDecode c 2 ((w.drop 4).take 15)
    (w.length < 19 → r = .error .frameLength) ∧
    (19 ≤ w.length → hdr = none → r = .error .headerUncorrectable) ∧
    ∀ hc hb, 19 ≤ w.length → hdr = some (hc, hb) →
      let n := hdrParse c (descrambleBlock c (hb.take 13))
      let pay := rsDecode c 16 ((w.drop 19).take (n + 16))
      (n < 1 ∨ 239 < n ∨ w.length < 39 + n → r = .error .frameLength) ∧
      (1 ≤ n → n ≤ 239 → 39 + n ≤ w.length → pay = none → r = .error .payloadUncorrectable) ∧
      ∀ pc pb, 1 ≤ n → n ≤ 239 → 39 + n ≤ w.length → pay = some (pc, pb) →
        let ps := pb.take n
        let d := crcDecode c
          ((w.getD (35 + n) 0 ++ w.getD (36 + n) 0 ++ w.getD (37 + n) 0 ++ w.getD (38 + n) 0).setWidth 32)
        (d ≠ crc16 c ps → strict = true → r = .error .crcMismatch) ∧
        (d = crc16 c ps ∨ strict = false →
          r = .ok { cmd := w.headD 0, payload := descrambleBlock c ps, hdrFixed := hc, payFixed := pc,
                    crcOk := decide (d = crc16 c ps), decodedCrc := d, computedCrc := crc16 c ps })

/-- 44_frame_codec.md R220: the strict policy discards exactly the frames the lenient one delivers with a CRC
that does not verify, and the policy changes nothing else. -/
def Obligations.CrcPolicy : Prop :=
  ∀ (c : Config) (w : Bytes),
    (∀ d, fcDecode c w false = .ok d →
      fcDecode c w true = if d.crcOk then .ok d else .error .crcMismatch) ∧
    (∀ code, fcDecode c w false = .error code → fcDecode c w true = .error code ∧ code ≠ .crcMismatch)

/-- 44_frame_codec.md R222: the sync bytes of a received frame do not matter. -/
def Obligations.SyncBytesIgnored : Prop :=
  ∀ (c : Config) (cmd a1 a2 a3 b1 b2 b3 : Byte) (w : Bytes) (strict : Bool),
    fcDecode c (cmd :: a1 :: a2 :: a3 :: w) strict = fcDecode c (cmd :: b1 :: b2 :: b3 :: w) strict

/-- 44_frame_codec.md R226, at P0: decoding an encoded frame delivers it, under either policy. -/
def Obligations.EncodeDecodeRoundTrip : Prop :=
  ∀ (cmd : Byte) (d : Bytes) (strict : Bool), 1 ≤ d.length → d.length ≤ 239 →
    let x := crc16 p0 (scrambleBlock p0 d)
    fcDecode p0 (fcEncode p0 cmd d).frame strict =
      .ok { cmd := cmd, payload := d, hdrFixed := 0, payFixed := 0, crcOk := true, decodedCrc := x,
            computedCrc := x }

/-! ### ChannelArbiter -/

/-- 45_channel_arbiter.md R242: every transition of a pass, its code and its result; nothing else changes. -/
def Obligations.ArbStepResult : Prop :=
  ∀ (s : State) (q busy : Bool),
    let a := s.arb
    let now := s.arg0
    let clear := (s.arg1.extractLsb' 0 16).toInt ≤ s.ccaThreshold.toInt
    let elapsed := (now - a.clearStart).toNat
    let go (code : ResultCode) (mode : Word) (b : Arbiter) :=
      exec (.arbStep (arbNumber q busy)) s = .next { resultState s code mode 0 0 with arb := b }
    (a.mode = .receiving → q = true → go .channelBusy 1 { a with mode := .assessing, clearValid := false }) ∧
    (a.mode = .receiving → q = false → go .ok 0 a) ∧
    (a.mode = .assessing → q = false → go .ok 0 { a with mode := .receiving, clearValid := false }) ∧
    (a.mode = .assessing → q = true → ¬clear → go .channelBusy 1 { a with clearValid := false, lastBusy := now }) ∧
    (a.mode = .assessing → q = true → clear → a.clearValid = false →
      go .channelBusy 1 { a with clearValid := true, clearStart := now }) ∧
    (a.mode = .assessing → q = true → clear → a.clearValid = true → elapsed ≤ s.cfg.settleTicks.toNat →
      go .channelBusy 1 a) ∧
    (a.mode = .assessing → q = true → clear → a.clearValid = true → s.cfg.settleTicks.toNat < elapsed →
      go .ok 2 { a with mode := .transmitting, clearValid := false }) ∧
    (a.mode = .transmitting → (q = true ∨ busy = true) → go .ok 2 a) ∧
    (a.mode = .transmitting → q = false → busy = false → go .ok 0 { a with mode := .receiving }) ∧
    ∀ imm : Byte, 3 < imm.toNat → exec (.arbStep imm) s = .next (errorState s .invalidParam)

/-- 45_channel_arbiter.md R243, R244: no command but ARB_STEP moves the arbiter to Transmitting, and it does so
only from AssessingChannel, on a clear sample of a run that has lasted longer than the settle interval. -/
def Obligations.TransmitOnlyAfterSettling : Prop :=
  ∀ (i : Instr) (s t : State), exec i s = .next t → t.arb.mode = .transmitting → s.arb.mode ≠ .transmitting →
    (∃ imm, i = .arbStep imm ∧ imm.getLsbD 0 = true) ∧ s.arb.mode = .assessing ∧ s.arb.clearValid = true ∧
      (s.arg1.extractLsb' 0 16).toInt ≤ s.ccaThreshold.toInt ∧
      s.cfg.settleTicks.toNat < (s.arg0 - s.arb.clearStart).toNat

/-- 45_channel_arbiter.md R248: scenario 4, five passes from AssessingChannel with threshold -90 and settle
interval 1000. -/
def Obligations.ScenarioFour : Prop :=
  let pass (a : Arbiter) (p : Word × Half) := arbiterPass 1000 true false (sampleClear p.2 (-90)) p.1 a
  let start : Arbiter := { mode := .assessing, clearValid := false, clearStart := 0, lastBusy := 0 }
  let a1 := pass start (0, -89)
  let a2 := pass a1 (1000, -89)
  let a3 := pass a2 (2000, -91)
  let a4 := pass a3 (3000, -91)
  let a5 := pass a4 (4000, -91)
  a1 = { mode := .assessing, clearValid := false, clearStart := 0, lastBusy := 0 } ∧
    a2 = { mode := .assessing, clearValid := false, clearStart := 0, lastBusy := 1000 } ∧
    a3 = { mode := .assessing, clearValid := true, clearStart := 2000, lastBusy := 1000 } ∧
    a4 = a3 ∧ a5 = { mode := .transmitting, clearValid := false, clearStart := 2000, lastBusy := 1000 } ∧
    [a1, a2, a3, a4, a5].map (fun a => arbiterCode a.mode) =
      [.channelBusy, .channelBusy, .channelBusy, .channelBusy, .ok]

/-! ### Every command -/

/-- 60_exceptions.md R272: a command that ends with one of these error codes changed nothing but STATUS and
RESULT0 to RESULT2: no LMEM byte, buffer, register or arbiter field. -/
def Obligations.ErrorsLeaveNothingBehind : Prop :=
  ∀ (i : Instr) (s t : State), exec i s = .next t → silentError t.status.code = true →
    t = errorState s t.status.code

/-- 60_exceptions.md R271: each command completes, with one of its own codes. -/
def Obligations.CommandCompletesWithItsCodes : Prop :=
  ∀ (i : Instr) (s : State), ∃ t, exec i s = .next t ∧ t.status.code ∈ codesOf i

/-- 60_exceptions.md R270, 10_state.md R25, R28, R29, R30: no command writes CONFIG, the threshold or the
parameters, and none but SOFT_RESET writes ARG0 to ARG3. That `exec` leaves CMD as it is rests on the model's split
of the CMD write into storing the word and running it (log 17), and the host's queue is the model's own field
(log 7). -/
def Obligations.CommandsKeepHostSettings : Prop :=
  ∀ (i : Instr) (s t : State), exec i s = .next t →
    t.cmd = s.cmd ∧ t.crcStrict = s.crcStrict ∧ t.ccaThreshold = s.ccaThreshold ∧ t.cfg = s.cfg ∧
      t.port = s.port ∧
      (i ≠ .softReset → t.arg0 = s.arg0 ∧ t.arg1 = s.arg1 ∧ t.arg2 = s.arg2 ∧ t.arg3 = s.arg3)

/-- 10_state.md R32, R33, R40, R46, 45_channel_arbiter.md R240, 41_scrambler.md R151: the state of each unit is
written by that unit's commands and SOFT_RESET alone. -/
def Obligations.UnitStateWrittenOnlyByItsCommands : Prop :=
  ∀ (i : Instr) (s t : State), exec i s = .next t → i ≠ .softReset →
    ((∀ imm, i ≠ .arbStep imm) → t.arb = s.arb) ∧
    ((∀ imm, i ≠ .scrBit imm) → t.scrTx = s.scrTx) ∧
    ((∀ imm, i ≠ .descrBit imm) → t.scrRx = s.scrRx) ∧
    (i ≠ .fcEncode → t.fcStage.tx = s.fcStage.tx) ∧ (i ≠ .fcDecode → t.fcStage.rx = s.fcStage.rx) ∧
    ((∀ imm, i ≠ .bufWrite imm) → t.cmdBuf.ovf = s.cmdBuf.ovf ∧ t.dataBuf.ovf = s.dataBuf.ovf ∧
      t.cmdBuf.drops = s.cmdBuf.drops ∧ t.dataBuf.drops = s.dataBuf.drops) ∧
    ((∀ imm, i ≠ .bufWrite imm ∧ i ≠ .bufPop imm ∧ i ≠ .bufClear imm ∧ i ≠ .findFrame imm) →
      t.cmdBuf = s.cmdBuf ∧ t.dataBuf = s.dataBuf)

/-- 20_memory.md R68, R70, R79, 60_exceptions.md R272: LMEM changes only by a command that stores an output and
ends OK, and then the output stands in the bytes from the address in ARG2 on, which lie inside LMEM, and every other
byte reads as before. -/
def Obligations.LmemChangesOnlyAtTheDestination : Prop :=
  ∀ (i : Instr) (s t : State), exec i s = .next t →
    let dst := s.arg2.toNat
    let out := outputBytes i s
    (storesNothing i = true → t.lmem = s.lmem) ∧
    (t.status.code ≠ .ok → t.lmem = s.lmem) ∧
    (storesNothing i = false → t.status.code = .ok → regionOk s.cfg dst out.length ∧ Stored s.lmem t.lmem dst out) ∧
    ∀ a, a < dst ∨ dst + out.length ≤ a ∨ s.cfg.lmemSize ≤ a → lmemByte t.lmem a = lmemByte s.lmem a

/-! ### The invariant -/

/-- 70_reset_and_hazards.md R301, 40_byte_framer.md R104: the block right after power-on is a good state, for
every valid choice of the parameters, and so is the reset state. -/
def Obligations.InvariantAtReset : Prop := State.reset.Inv ∧ ∀ c, paramsValid c = true → (State.powerOn c).Inv

/-- 40_byte_framer.md R104, 10_state.md R32, R33, R40, R42: every step keeps the invariant. -/
def Obligations.StepKeepsInvariant : Prop := ∀ s t : State, s.Inv → step s = .next t → t.Inv
end

