-- ==== Sys2Proof/Laws/Memory.lean ====
section
/-! SUPPORT. The laws of bytes by address: a read after a write, the canonical form, and what a region of LMEM
reads as after a region was written (20_memory.md R61, R69, R70). -/

namespace Sys2Proof.Machine

@[simp] theorem memLookup_nil (a : Nat) : memLookup [] a = none := rfl

@[simp] theorem memLookup_memWrite_same (m : Memory) (a : Nat) (v : Byte) :
    memLookup (memWrite m a v) a = some v := by
  induction m with
  | nil => simp [memWrite, memLookup]
  | cons p m ih =>
    obtain ⟨x, w⟩ := p
    by_cases h1 : a < x
    · simp [memWrite, memLookup, h1]
    · by_cases h2 : x = a
      · simp [memWrite, memLookup, h2]
      · simp [memWrite, memLookup, h1, h2, ih]

theorem memLookup_memWrite_ne (m : Memory) {a b : Nat} (v : Byte) (h : b ≠ a) :
    memLookup (memWrite m a v) b = memLookup m b := by
  induction m with
  | nil => simp [memWrite, memLookup, Ne.symm h]
  | cons p m ih =>
    obtain ⟨x, w⟩ := p
    by_cases h1 : a < x
    · simp [memWrite, memLookup, h1, Ne.symm h]
    · by_cases h2 : x = a
      · subst h2
        simp [memWrite, memLookup, Ne.symm h]
      · by_cases h3 : x = b
        · subst h3
          simp [memWrite, memLookup, h1, h2]
        · simp [memWrite, memLookup, h1, h2, h3, ih]

theorem memLookup_memWrite (m : Memory) (a b : Nat) (v : Byte) :
    memLookup (memWrite m a v) b = if b = a then some v else memLookup m b := by
  by_cases h : b = a
  · subst h; simp
  · simp [h, memLookup_memWrite_ne]

/-- A write adds no address but the one written. -/
theorem mem_memWrite {m : Memory} {a : Nat} {v : Byte} {p : Host.Cell} (h : p ∈ memWrite m a v) :
    p = (a, v) ∨ p ∈ m := by
  induction m with
  | nil => simpa [memWrite] using h
  | cons q m ih =>
    obtain ⟨x, w⟩ := q
    by_cases h1 : a < x
    · simpa [memWrite, h1] using h
    · by_cases h2 : x = a
      · subst h2
        simp only [memWrite, Nat.lt_irrefl, if_true, if_false, List.mem_cons] at h
        rcases h with h | h
        · exact .inl h
        · exact .inr (List.mem_cons_of_mem _ h)
      · simp only [memWrite, h1, h2, if_false, List.mem_cons] at h
        rcases h with h | h
        · exact .inr (h ▸ List.mem_cons_self ..)
        · rcases ih h with h | h
          · exact .inl h
          · exact .inr (List.mem_cons_of_mem _ h)

theorem memWf_nil (size : Nat) : memWf size [] := by simp [memWf]

/-- A write below `size` keeps the canonical form. -/
theorem memWf_memWrite {size : Nat} {m : Memory} {a : Nat} (v : Byte) (h : memWf size m) (ha : a < size) :
    memWf size (memWrite m a v) := by
  refine ⟨?_, fun p hp => (mem_memWrite hp).elim (fun e => e ▸ ha) (h.2 p)⟩
  have hs := h.1
  clear h ha
  induction m with
  | nil => simp [memWrite]
  | cons q m ih =>
    obtain ⟨x, w⟩ := q
    rw [List.pairwise_cons] at hs
    by_cases h1 : a < x
    · simp only [memWrite, h1, if_true]
      refine List.pairwise_cons.2 ⟨fun p hp => ?_, List.pairwise_cons.2 hs⟩
      rcases List.mem_cons.1 hp with rfl | hp
      · exact h1
      · exact Nat.lt_trans h1 (hs.1 p hp)
    · by_cases h2 : x = a
      · subst h2
        simp only [memWrite, if_true, Nat.lt_irrefl, if_false]
        exact List.pairwise_cons.2 ⟨fun p hp => hs.1 p hp, hs.2⟩
      · simp only [memWrite, h1, h2, if_false]
        refine List.pairwise_cons.2 ⟨fun p hp => ?_, ih hs.2⟩
        rcases mem_memWrite hp with rfl | hp
        · simp only; omega
        · exact hs.1 p hp

/-- What address `b` holds after the bytes `s` were written from `a` on. -/
theorem memLookup_memWriteBytes (s : Bytes) (m : Memory) (a b : Nat) :
    memLookup (memWriteBytes m a s) b = if a ≤ b ∧ b < a + s.length then s[b - a]? else memLookup m b := by
  induction s generalizing m a with
  | nil => simp only [memWriteBytes, List.length_nil]; rw [if_neg (by omega)]
  | cons v s ih =>
    rw [memWriteBytes, ih, memLookup_memWrite]
    by_cases h : a + 1 ≤ b ∧ b < a + 1 + s.length
    · rw [if_pos h, if_pos (by simp only [List.length_cons]; omega)]
      obtain ⟨j, rfl⟩ : ∃ j, b = a + 1 + j := ⟨b - (a + 1), by omega⟩
      rw [show a + 1 + j - (a + 1) = j by omega, show a + 1 + j - a = j + 1 by omega, List.getElem?_cons_succ]
    · rw [if_neg h]
      by_cases h2 : b = a
      · subst h2; simp
      · rw [if_neg h2, if_neg (by simp only [List.length_cons]; omega)]

/-- Writing a region inside `size` keeps the canonical form. -/
theorem memWf_memWriteBytes {size : Nat} (s : Bytes) {m : Memory} {a : Nat} (h : memWf size m)
    (ha : s = [] ∨ a + s.length ≤ size) : memWf size (memWriteBytes m a s) := by
  induction s generalizing m a with
  | nil => exact h
  | cons v s ih =>
    have hl : a + (s.length + 1) ≤ size := by simpa using ha
    exact ih (memWf_memWrite v h (by omega)) (.inr (by omega))

/-- What LMEM byte `b` reads as after the bytes `s` were written from `a` on. -/
theorem lmemByte_memWriteBytes (s : Bytes) (m : Memory) (a b : Nat) :
    lmemByte (memWriteBytes m a s) b = if a ≤ b ∧ b < a + s.length then s.getD (b - a) 0 else lmemByte m b := by
  unfold lmemByte
  rw [memLookup_memWriteBytes]
  by_cases h : a ≤ b ∧ b < a + s.length
  · have hb : b - a < s.length := by omega
    simp [h, hb]
  · simp [h]

@[simp] theorem lmemBytes_length (m : Memory) (a n : Nat) : (lmemBytes m a n).length = n := by simp [lmemBytes]

theorem lmemBytes_getElem (m : Memory) (a n i : Nat) (h : i < (lmemBytes m a n).length) :
    (lmemBytes m a n)[i] = lmemByte m (a + i) := by simp [lmemBytes]

/-- A region just written reads back. -/
theorem lmemBytes_memWriteBytes (s : Bytes) (m : Memory) (a : Nat) :
    lmemBytes (memWriteBytes m a s) a s.length = s := by
  refine List.ext_getElem (by simp) fun i h1 h2 => ?_
  rw [lmemBytes_getElem, lmemByte_memWriteBytes, if_pos (by omega)]
  simp [h2]

end Sys2Proof.Machine
end

