-- ==== Sys2Proof/Laws/Buffers.lean ====
section
/-! SUPPORT. The laws of the circular buffers: what Push and Pop do to the content, and that they keep the
invariant of 40_byte_framer.md R104. -/

namespace Sys2Proof.Machine

@[simp] theorem bufContent_length (sel : BufSel) (cap : Nat) (b : Buffer) :
    (bufContent sel cap b).length = b.count := by simp [bufContent]

theorem bufContent_getElem (sel : BufSel) (cap : Nat) (b : Buffer) (i : Nat)
    (h : i < (bufContent sel cap b).length) : (bufContent sel cap b)[i] = bufPeek sel cap b i := by
  simp [bufContent]

theorem storeByte_memWrite (sel : BufSel) (m : Memory) (a b : Nat) (v : Byte) :
    storeByte sel (memWrite m a v) b = if b = a then v else storeByte sel m b := by
  unfold storeByte
  rw [memLookup_memWrite]
  split <;> simp

/-- Two indices of a ring less than its capacity apart fall on different places. -/
theorem ring_index_ne {head cap i j : Nat} (hij : i < j) (hj : j < cap) : (head + i) % cap ≠ (head + j) % cap := by
  intro h
  have h2 : (j - i) % cap = 0 := by
    have : ((head + i) + (j - i)) % cap = (head + i) % cap := by rw [show head + i + (j - i) = head + j by omega, h]
    have h3 : (head + i) + (j - i) ≡ (head + i) + 0 [MOD cap] := by simpa [Nat.ModEq] using this
    simpa [Nat.ModEq] using Nat.ModEq.add_left_cancel' _ h3
  rw [Nat.mod_eq_of_lt (by omega)] at h2
  omega

/-- Push of a byte that fits puts it at the tail of the content (40_byte_framer.md R103). -/
theorem bufPush_content (sel : BufSel) {cap : Nat} {b : Buffer} (v : Byte) (h : b.count < cap) :
    bufContent sel cap (bufPush cap b v) = bufContent sel cap b ++ [v] := by
  refine List.ext_getElem (by simp [bufPush, h]) fun i h1 h2 => ?_
  rw [bufContent_getElem]
  simp only [bufPush, h, if_true, bufPeek, storeByte_memWrite]
  have hi : i < b.count + 1 := by simpa [bufPush, h] using h1
  by_cases hlast : i = b.count
  · subst hlast; simp
  · rw [if_neg (ring_index_ne (by omega) h), List.getElem_append_left (by simp; omega), bufContent_getElem]
    rfl

/-- Push of a byte that does not fit leaves the content and reports the drop (40_byte_framer.md R103). -/
theorem bufPush_full {cap : Nat} {b : Buffer} (v : Byte) (h : ¬b.count < cap) : bufPush cap b v = reportDrop b := by
  simp [bufPush, h]

@[simp] theorem bufContent_reportDrop (sel : BufSel) (cap : Nat) (b : Buffer) :
    bufContent sel cap (reportDrop b) = bufContent sel cap b := rfl

/-- Pop removes the head byte of the content (40_byte_framer.md R102). -/
theorem bufPop_content (sel : BufSel) (cap : Nat) (b : Buffer) :
    bufContent sel cap (bufPop cap b) = (bufContent sel cap b).drop 1 := by
  refine List.ext_getElem (by simp [bufPop]) fun i h1 h2 => ?_
  rw [List.getElem_drop, bufContent_getElem, bufContent_getElem]
  simp only [bufPop, bufPeek]
  congr 1
  rw [Nat.add_mod, Nat.mod_mod, ← Nat.add_mod, Nat.add_assoc]

/-- n pops remove the first n bytes of the content (40_byte_framer.md R107). -/
theorem bufPopN_content (sel : BufSel) (cap n : Nat) (b : Buffer) :
    bufContent sel cap (bufPopN cap n b) = (bufContent sel cap b).drop n := by
  induction n generalizing b with
  | zero => simp [bufPopN]
  | succ n ih => rw [bufPopN, ih, bufPop_content, List.drop_drop, Nat.add_comm]

@[simp] theorem bufPopN_count (cap n : Nat) (b : Buffer) : (bufPopN cap n b).count = b.count - n := by
  induction n generalizing b with
  | zero => rfl
  | succ n ih => rw [bufPopN, ih]; simp only [bufPop]; omega

@[simp] theorem bufPopN_store (cap n : Nat) (b : Buffer) : (bufPopN cap n b).store = b.store := by
  induction n generalizing b with
  | zero => rfl
  | succ n ih => rw [bufPopN, ih]; rfl

@[simp] theorem bufPopN_ovf (cap n : Nat) (b : Buffer) : (bufPopN cap n b).ovf = b.ovf := by
  induction n generalizing b with
  | zero => rfl
  | succ n ih => rw [bufPopN, ih]; rfl

@[simp] theorem bufPopN_drops (cap n : Nat) (b : Buffer) : (bufPopN cap n b).drops = b.drops := by
  induction n generalizing b with
  | zero => rfl
  | succ n ih => rw [bufPopN, ih]; rfl

/-- The content is a function of head, count and store alone. -/
theorem bufContent_congr (sel : BufSel) (cap : Nat) {b b' : Buffer} (h1 : b.head = b'.head)
    (h2 : b.count = b'.count) (h3 : b.store = b'.store) : bufContent sel cap b = bufContent sel cap b' := by
  unfold bufContent bufPeek
  rw [h1, h2, h3]

@[simp] theorem dropCount_ne_zero (d : Half) : dropCount d ≠ 0#16 := by
  unfold dropCount
  split
  · decide
  · rename_i h
    intro h0
    apply h
    bv_omega

theorem bufWf_powerOn {cap : Nat} (h : 0 < cap) : bufWf cap bufferPowerOn := by
  simp [bufWf, bufferPowerOn, memWf, h]

theorem bufWf_bufPush {cap : Nat} {b : Buffer} (v : Byte) (h : bufWf cap b) : bufWf cap (bufPush cap b v) := by
  obtain ⟨hc, hh, hm, hl, ho⟩ := h
  unfold bufPush
  split
  · rename_i hlt
    refine ⟨by simpa using hlt, hh, memWf_memWrite v hm (Nat.mod_lt _ (by omega)), fun i hi => ?_, ho⟩
    simp only [memLookup_memWrite]
    split
    · rfl
    · rename_i hne
      have : i ≠ b.count := fun e => hne (by rw [e])
      exact hl i (by simp only at hi; omega)
  · exact ⟨hc, hh, hm, hl, by simp [reportDrop]⟩

theorem bufWf_bufPop {cap : Nat} {b : Buffer} (h : bufWf cap b) : bufWf cap (bufPop cap b) := by
  obtain ⟨hc, hh, hm, hl, ho⟩ := h
  refine ⟨by simp only [bufPop]; omega, Nat.mod_lt _ (by omega), hm, fun i hi => ?_, ho⟩
  simp only [bufPop] at hi ⊢
  have := hl (i + 1) (by omega)
  rwa [Nat.add_mod, Nat.mod_mod, ← Nat.add_mod, Nat.add_assoc, Nat.add_comm 1 i]

theorem bufWf_bufPopN {cap : Nat} (n : Nat) {b : Buffer} (h : bufWf cap b) : bufWf cap (bufPopN cap n b) := by
  induction n generalizing b with
  | zero => exact h
  | succ n ih => exact ih (bufWf_bufPop h)

theorem bufWf_bufEmpty {cap : Nat} {b : Buffer} (h : bufWf cap b) : bufWf cap (bufEmpty b) := by
  obtain ⟨hc, hh, hm, hl, ho⟩ := h
  exact ⟨Nat.zero_le _, by simp only [bufEmpty]; omega, hm, by simp [bufEmpty], ho⟩

theorem bufWf_clearReport {cap : Nat} (bit : Bool) {b : Buffer} (h : bufWf cap b) :
    bufWf cap (clearReport bit b) := by
  unfold clearReport
  split
  · obtain ⟨hc, hh, hm, hl, ho⟩ := h
    exact ⟨hc, hh, hm, hl, by simp⟩
  · exact h

/-- Pushing a byte sequence keeps the buffer's invariant, whatever is accepted. -/
theorem bufWf_bufPushAll {cap : Nat} (s : Bytes) {b : Buffer} (acc drop : Nat) (h : bufWf cap b) :
    bufWf cap (bufPushAll cap s b acc drop).1 := by
  induction s generalizing b acc drop with
  | nil => exact h
  | cons v s ih =>
    unfold bufPushAll
    split <;> exact ih _ _ (bufWf_bufPush v h)

@[simp] theorem bufPush_count (cap : Nat) (b : Buffer) (v : Byte) :
    (bufPush cap b v).count = if b.count < cap then b.count + 1 else b.count := by
  unfold bufPush
  split <;> rfl

/-- Everything the pushes of BUF_WRITE do (40_byte_framer.md R105): the bytes that fit are at the tail of the
content in order, the rest is counted as dropped. -/
theorem bufPushAll_spec (sel : BufSel) {cap : Nat} (s : Bytes) {b : Buffer} (acc drop : Nat)
    (h : b.count ≤ cap) :
    bufContent sel cap (bufPushAll cap s b acc drop).1 = bufContent sel cap b ++ s.take (cap - b.count) ∧
      (bufPushAll cap s b acc drop).2.1 = acc + min s.length (cap - b.count) ∧
      (bufPushAll cap s b acc drop).2.2 = drop + (s.length - (cap - b.count)) := by
  induction s generalizing b acc drop with
  | nil => simp [bufPushAll]
  | cons v s ih =>
    unfold bufPushAll
    split
    · rename_i hlt
      obtain ⟨h1, h2, h3⟩ := ih (b := bufPush cap b v) (acc + 1) drop (by simp [hlt])
      simp only [bufPush_count, hlt, if_true] at h1 h2 h3
      refine ⟨?_, ?_, ?_⟩
      · rw [h1, bufPush_content sel v hlt, show cap - b.count = (cap - (b.count + 1)) + 1 by omega,
          List.take_succ_cons, List.append_assoc]
        rfl
      · rw [h2]; simp only [List.length_cons]; omega
      · rw [h3]; simp only [List.length_cons]; omega
    · rename_i hge
      obtain ⟨h1, h2, h3⟩ := ih (b := bufPush cap b v) acc (drop + 1) (by simpa [hge] using h)
      simp only [bufPush_count, hge, if_false] at h1 h2 h3
      refine ⟨?_, ?_, ?_⟩
      · rw [h1, bufPush_full v hge, show cap - b.count = 0 by omega]; simp
      · rw [h2]; simp only [List.length_cons]; omega
      · rw [h3]; simp only [List.length_cons]; omega

end Sys2Proof.Machine
end

