-- ==== Sys2Proof/Laws/Codec.lean ====
section
/-! SUPPORT. The lengths of what the codec functions answer (41_scrambler.md R146, R148; 42_reed_solomon.md
R164, R169; 44_frame_codec.md R211, R212). -/

namespace Sys2Proof.Machine

/-! ### Scrambler -/

@[simp] theorem bitsOf_length (p : Bytes) : (bitsOf p).length = 8 * p.length := by
  induction p with
  | nil => rfl
  | cons v p ih =>
    rw [bitsOf, List.flatMap_cons, List.length_append, ← bitsOf, ih, List.length_cons]
    simp only [byteBits, List.length_cons, List.length_nil]
    omega

@[simp] theorem shiftRun_length (f : ShiftFn) (xs : List Bool) (s : Word) : (shiftRun f xs s).1.length = xs.length := by
  induction xs generalizing s with
  | nil => rfl
  | cons x xs ih => simp [shiftRun, ih]

theorem bytesOf_length (n : Nat) (y : List Bool) (h : y.length = 8 * n) : (bytesOf y).length = n := by
  induction n generalizing y with
  | zero =>
    obtain rfl : y = [] := List.length_eq_zero_iff.1 (by omega)
    rfl
  | succ n ih =>
    match y, h with
    | b7 :: b6 :: b5 :: b4 :: b3 :: b2 :: b1 :: b0 :: y, h =>
      simp only [bytesOf, List.length_cons]
      rw [ih y (by simp only [List.length_cons] at h; omega)]

/-- A block scrambled with a skip count of at most a byte keeps its length (41_scrambler.md R146). -/
theorem scrambleBlock_length {c : Config} (h : c.scrSkip ≤ 8) {p : Bytes} (hp : 1 ≤ p.length) :
    (scrambleBlock c p).length = p.length := by
  refine bytesOf_length _ _ ?_
  simp only [List.length_append, List.length_drop, shiftRun_length, bitsOf_length, List.length_replicate]
  omega

@[simp] theorem descrambleBlock_length (c : Config) (p : Bytes) : (descrambleBlock c p).length = p.length :=
  bytesOf_length _ _ (by simp)

/-! ### Reed–Solomon -/

@[simp] theorem polyMulRoot_length (t : GfTables) (a : Byte) (p : Bytes) :
    (polyMulRoot t a p).length = p.length + 1 := by simp [polyMulRoot]

@[simp] theorem rsGenerator_length (c : Config) (t : GfTables) (nroots : Nat) : (rsGenerator c t nroots).length = nroots + 1 := by
  unfold rsGenerator
  induction nroots with
  | zero => rfl
  | succ n ih => rw [List.range_succ, List.foldl_append]; simpa using ih

theorem parityShift_length (t : GfTables) {g bb : Bytes} (d : Byte) (hg : g.length = bb.length)
    (hb : 0 < bb.length) : (parityShift t g bb d).length = bb.length := by
  simp only [parityShift, List.length_zipWith, List.length_append, List.length_tail, List.length_map,
    List.length_cons, List.length_nil]
  omega

theorem rsParity_length (c : Config) {nroots : Nat} (d : Bytes) (h : 0 < nroots) :
    (rsParity c nroots d).length = nroots := by
  have key : ∀ (bb : Bytes), bb.length = nroots →
      (d.foldl (parityShift (gfTables c.rsGfPoly)
        ((rsGenerator c (gfTables c.rsGfPoly) nroots).take nroots).reverse) bb).length = nroots := by
    induction d with
    | nil => exact fun bb hb => hb
    | cons v d ih => exact fun bb hb => ih _ (by rw [parityShift_length] <;> simp [hb, h])
  exact key _ (by simp)

@[simp] theorem correctAt_length (c : Config) (t : GfTables) (omega lam : Bytes) (deg pad : Nat) (blk : Bytes) (i : Nat) :
    (correctAt c t omega lam deg pad blk i).length = blk.length := by
  unfold correctAt
  split <;> simp

/-- A decoded block has the length of the received one (42_reed_solomon.md R170). -/
theorem rsDecode_length {c : Config} {nroots : Nat} {blk : Bytes} {r : Nat × Bytes}
    (h : rsDecode c nroots blk = some r) : r.2.length = blk.length := by
  have key : ∀ (t : GfTables) (om lam : Bytes) (deg pad : Nat) (roots : List Nat) (b : Bytes),
      (roots.foldl (correctAt c t om lam deg pad) b).length = b.length := by
    intro t om lam deg pad roots
    induction roots with
    | nil => exact fun _ => rfl
    | cons i is ih => exact fun b => (ih _).trans (correctAt_length ..)
  simp only [rsDecode] at h
  split at h
  · cases h; rfl
  · split at h
    · cases h
    · split at h
      · cases h
      · cases h; exact key ..

/-! ### Frame -/

@[simp] theorem hdrBuild_length (c : Config) (n : Nat) : (hdrBuild c n).length = 13 := by
  have key : ∀ (l : List ((Fin 13 × Fin 8) × Nat)) (h : Bytes),
      (l.foldl (fun h pj => h.modify pj.1.1.val (setBit pj.1.2.val (n.testBit pj.2))) h).length = h.length := by
    intro l
    induction l with
    | nil => exact fun _ => rfl
    | cons p l ih => exact fun h => (ih _).trans (List.length_modify ..)
  exact (key _ _).trans c.hdrTemplate.size_toArray

/-- The layout of R211 has 39 + N bytes (44_frame_codec.md R211). -/
theorem fcEncode_length {c : Config} (h : c.scrSkip ≤ 8) (cmd : Byte) {d : Bytes} (hd : 1 ≤ d.length) :
    (fcEncode c cmd d).frame.length = 39 + d.length := by
  have h2 := rsParity_length c (scrambleBlock c (hdrBuild c d.length)) (nroots := 2) (by decide)
  have h16 := rsParity_length c (scrambleBlock c d) (nroots := 16) (by decide)
  have hs : (scrambleBlock c (hdrBuild c d.length)).length = 13 := by
    rw [scrambleBlock_length h (by simp), hdrBuild_length]
  simp only [fcEncode, List.length_append, hs, scrambleBlock_length h hd, hdrParity, payParity, h2, h16,
    crcWireBytes, List.length_cons, List.length_nil, Vector.length_toList]
  omega

end Sys2Proof.Machine
end

