-- ==== Sys2Proof/Laws/State.lean ====
section
/-! SUPPORT. The small lemmas of the state: what each named update leaves in each field, true by definition,
so that no later proof unfolds a record update. -/

namespace Sys2Proof.Machine

/-! ### The prologue -/

@[simp] theorem State.prologue_cfg (s : State) : (s.prologue).cfg = s.cfg := rfl
@[simp] theorem State.prologue_cmd (s : State) : (s.prologue).cmd = s.cmd := rfl
@[simp] theorem State.prologue_status (s : State) : (s.prologue).status = statusClear := rfl
@[simp] theorem State.prologue_crcStrict (s : State) : (s.prologue).crcStrict = s.crcStrict := rfl
@[simp] theorem State.prologue_ccaThreshold (s : State) : (s.prologue).ccaThreshold = s.ccaThreshold := rfl
@[simp] theorem State.prologue_arg0 (s : State) : (s.prologue).arg0 = s.arg0 := rfl
@[simp] theorem State.prologue_arg1 (s : State) : (s.prologue).arg1 = s.arg1 := rfl
@[simp] theorem State.prologue_arg2 (s : State) : (s.prologue).arg2 = s.arg2 := rfl
@[simp] theorem State.prologue_arg3 (s : State) : (s.prologue).arg3 = s.arg3 := rfl
@[simp] theorem State.prologue_result0 (s : State) : (s.prologue).result0 = 0 := rfl
@[simp] theorem State.prologue_result1 (s : State) : (s.prologue).result1 = 0 := rfl
@[simp] theorem State.prologue_result2 (s : State) : (s.prologue).result2 = 0 := rfl
@[simp] theorem State.prologue_scrTx (s : State) : (s.prologue).scrTx = s.scrTx := rfl
@[simp] theorem State.prologue_scrRx (s : State) : (s.prologue).scrRx = s.scrRx := rfl
@[simp] theorem State.prologue_arb (s : State) : (s.prologue).arb = s.arb := rfl
@[simp] theorem State.prologue_cmdBuf (s : State) : (s.prologue).cmdBuf = s.cmdBuf := rfl
@[simp] theorem State.prologue_dataBuf (s : State) : (s.prologue).dataBuf = s.dataBuf := rfl
@[simp] theorem State.prologue_fcStage (s : State) : (s.prologue).fcStage = s.fcStage := rfl
@[simp] theorem State.prologue_lmem (s : State) : (s.prologue).lmem = s.lmem := rfl
@[simp] theorem State.prologue_port (s : State) : (s.prologue).port = s.port := rfl

/-! ### The end of a command -/

@[simp] theorem State.finish_cfg (s : State) (code : ResultCode) : (s.finish code).cfg = s.cfg := rfl
@[simp] theorem State.finish_cmd (s : State) (code : ResultCode) : (s.finish code).cmd = s.cmd := rfl
@[simp] theorem State.finish_status (s : State) (code : ResultCode) : (s.finish code).status = { s.status with code := code } := rfl
@[simp] theorem State.finish_crcStrict (s : State) (code : ResultCode) : (s.finish code).crcStrict = s.crcStrict := rfl
@[simp] theorem State.finish_ccaThreshold (s : State) (code : ResultCode) : (s.finish code).ccaThreshold = s.ccaThreshold := rfl
@[simp] theorem State.finish_arg0 (s : State) (code : ResultCode) : (s.finish code).arg0 = s.arg0 := rfl
@[simp] theorem State.finish_arg1 (s : State) (code : ResultCode) : (s.finish code).arg1 = s.arg1 := rfl
@[simp] theorem State.finish_arg2 (s : State) (code : ResultCode) : (s.finish code).arg2 = s.arg2 := rfl
@[simp] theorem State.finish_arg3 (s : State) (code : ResultCode) : (s.finish code).arg3 = s.arg3 := rfl
@[simp] theorem State.finish_result0 (s : State) (code : ResultCode) : (s.finish code).result0 = s.result0 := rfl
@[simp] theorem State.finish_result1 (s : State) (code : ResultCode) : (s.finish code).result1 = s.result1 := rfl
@[simp] theorem State.finish_result2 (s : State) (code : ResultCode) : (s.finish code).result2 = s.result2 := rfl
@[simp] theorem State.finish_scrTx (s : State) (code : ResultCode) : (s.finish code).scrTx = s.scrTx := rfl
@[simp] theorem State.finish_scrRx (s : State) (code : ResultCode) : (s.finish code).scrRx = s.scrRx := rfl
@[simp] theorem State.finish_arb (s : State) (code : ResultCode) : (s.finish code).arb = s.arb := rfl
@[simp] theorem State.finish_cmdBuf (s : State) (code : ResultCode) : (s.finish code).cmdBuf = s.cmdBuf := rfl
@[simp] theorem State.finish_dataBuf (s : State) (code : ResultCode) : (s.finish code).dataBuf = s.dataBuf := rfl
@[simp] theorem State.finish_fcStage (s : State) (code : ResultCode) : (s.finish code).fcStage = s.fcStage := rfl
@[simp] theorem State.finish_lmem (s : State) (code : ResultCode) : (s.finish code).lmem = s.lmem := rfl
@[simp] theorem State.finish_port (s : State) (code : ResultCode) : (s.finish code).port = s.port := rfl

/-! ### A write to LMEM -/

@[simp] theorem State.memWrite_cfg (s : State) (a : Nat) (v : Bytes) : (s.memWrite a v).cfg = s.cfg := rfl
@[simp] theorem State.memWrite_cmd (s : State) (a : Nat) (v : Bytes) : (s.memWrite a v).cmd = s.cmd := rfl
@[simp] theorem State.memWrite_status (s : State) (a : Nat) (v : Bytes) : (s.memWrite a v).status = s.status := rfl
@[simp] theorem State.memWrite_crcStrict (s : State) (a : Nat) (v : Bytes) : (s.memWrite a v).crcStrict = s.crcStrict := rfl
@[simp] theorem State.memWrite_ccaThreshold (s : State) (a : Nat) (v : Bytes) : (s.memWrite a v).ccaThreshold = s.ccaThreshold := rfl
@[simp] theorem State.memWrite_arg0 (s : State) (a : Nat) (v : Bytes) : (s.memWrite a v).arg0 = s.arg0 := rfl
@[simp] theorem State.memWrite_arg1 (s : State) (a : Nat) (v : Bytes) : (s.memWrite a v).arg1 = s.arg1 := rfl
@[simp] theorem State.memWrite_arg2 (s : State) (a : Nat) (v : Bytes) : (s.memWrite a v).arg2 = s.arg2 := rfl
@[simp] theorem State.memWrite_arg3 (s : State) (a : Nat) (v : Bytes) : (s.memWrite a v).arg3 = s.arg3 := rfl
@[simp] theorem State.memWrite_result0 (s : State) (a : Nat) (v : Bytes) : (s.memWrite a v).result0 = s.result0 := rfl
@[simp] theorem State.memWrite_result1 (s : State) (a : Nat) (v : Bytes) : (s.memWrite a v).result1 = s.result1 := rfl
@[simp] theorem State.memWrite_result2 (s : State) (a : Nat) (v : Bytes) : (s.memWrite a v).result2 = s.result2 := rfl
@[simp] theorem State.memWrite_scrTx (s : State) (a : Nat) (v : Bytes) : (s.memWrite a v).scrTx = s.scrTx := rfl
@[simp] theorem State.memWrite_scrRx (s : State) (a : Nat) (v : Bytes) : (s.memWrite a v).scrRx = s.scrRx := rfl
@[simp] theorem State.memWrite_arb (s : State) (a : Nat) (v : Bytes) : (s.memWrite a v).arb = s.arb := rfl
@[simp] theorem State.memWrite_cmdBuf (s : State) (a : Nat) (v : Bytes) : (s.memWrite a v).cmdBuf = s.cmdBuf := rfl
@[simp] theorem State.memWrite_dataBuf (s : State) (a : Nat) (v : Bytes) : (s.memWrite a v).dataBuf = s.dataBuf := rfl
@[simp] theorem State.memWrite_fcStage (s : State) (a : Nat) (v : Bytes) : (s.memWrite a v).fcStage = s.fcStage := rfl
@[simp] theorem State.memWrite_lmem (s : State) (a : Nat) (v : Bytes) : (s.memWrite a v).lmem = memWriteBytes s.lmem a v := rfl
@[simp] theorem State.memWrite_port (s : State) (a : Nat) (v : Bytes) : (s.memWrite a v).port = s.port := rfl

/-! ### A value the host observed -/

@[simp] theorem State.observe_cfg (s : State) (v : Word) : (s.observe v).cfg = s.cfg := rfl
@[simp] theorem State.observe_cmd (s : State) (v : Word) : (s.observe v).cmd = s.cmd := rfl
@[simp] theorem State.observe_status (s : State) (v : Word) : (s.observe v).status = s.status := rfl
@[simp] theorem State.observe_crcStrict (s : State) (v : Word) : (s.observe v).crcStrict = s.crcStrict := rfl
@[simp] theorem State.observe_ccaThreshold (s : State) (v : Word) : (s.observe v).ccaThreshold = s.ccaThreshold := rfl
@[simp] theorem State.observe_arg0 (s : State) (v : Word) : (s.observe v).arg0 = s.arg0 := rfl
@[simp] theorem State.observe_arg1 (s : State) (v : Word) : (s.observe v).arg1 = s.arg1 := rfl
@[simp] theorem State.observe_arg2 (s : State) (v : Word) : (s.observe v).arg2 = s.arg2 := rfl
@[simp] theorem State.observe_arg3 (s : State) (v : Word) : (s.observe v).arg3 = s.arg3 := rfl
@[simp] theorem State.observe_result0 (s : State) (v : Word) : (s.observe v).result0 = s.result0 := rfl
@[simp] theorem State.observe_result1 (s : State) (v : Word) : (s.observe v).result1 = s.result1 := rfl
@[simp] theorem State.observe_result2 (s : State) (v : Word) : (s.observe v).result2 = s.result2 := rfl
@[simp] theorem State.observe_scrTx (s : State) (v : Word) : (s.observe v).scrTx = s.scrTx := rfl
@[simp] theorem State.observe_scrRx (s : State) (v : Word) : (s.observe v).scrRx = s.scrRx := rfl
@[simp] theorem State.observe_arb (s : State) (v : Word) : (s.observe v).arb = s.arb := rfl
@[simp] theorem State.observe_cmdBuf (s : State) (v : Word) : (s.observe v).cmdBuf = s.cmdBuf := rfl
@[simp] theorem State.observe_dataBuf (s : State) (v : Word) : (s.observe v).dataBuf = s.dataBuf := rfl
@[simp] theorem State.observe_fcStage (s : State) (v : Word) : (s.observe v).fcStage = s.fcStage := rfl
@[simp] theorem State.observe_lmem (s : State) (v : Word) : (s.observe v).lmem = s.lmem := rfl
@[simp] theorem State.observe_port (s : State) (v : Word) : (s.observe v).port = { s.port with observed := v :: s.port.observed } := rfl

/-! ### The host's next access taken -/

@[simp] theorem State.dropAccess_cfg (s : State) : (s.dropAccess).cfg = s.cfg := rfl
@[simp] theorem State.dropAccess_cmd (s : State) : (s.dropAccess).cmd = s.cmd := rfl
@[simp] theorem State.dropAccess_status (s : State) : (s.dropAccess).status = s.status := rfl
@[simp] theorem State.dropAccess_crcStrict (s : State) : (s.dropAccess).crcStrict = s.crcStrict := rfl
@[simp] theorem State.dropAccess_ccaThreshold (s : State) : (s.dropAccess).ccaThreshold = s.ccaThreshold := rfl
@[simp] theorem State.dropAccess_arg0 (s : State) : (s.dropAccess).arg0 = s.arg0 := rfl
@[simp] theorem State.dropAccess_arg1 (s : State) : (s.dropAccess).arg1 = s.arg1 := rfl
@[simp] theorem State.dropAccess_arg2 (s : State) : (s.dropAccess).arg2 = s.arg2 := rfl
@[simp] theorem State.dropAccess_arg3 (s : State) : (s.dropAccess).arg3 = s.arg3 := rfl
@[simp] theorem State.dropAccess_result0 (s : State) : (s.dropAccess).result0 = s.result0 := rfl
@[simp] theorem State.dropAccess_result1 (s : State) : (s.dropAccess).result1 = s.result1 := rfl
@[simp] theorem State.dropAccess_result2 (s : State) : (s.dropAccess).result2 = s.result2 := rfl
@[simp] theorem State.dropAccess_scrTx (s : State) : (s.dropAccess).scrTx = s.scrTx := rfl
@[simp] theorem State.dropAccess_scrRx (s : State) : (s.dropAccess).scrRx = s.scrRx := rfl
@[simp] theorem State.dropAccess_arb (s : State) : (s.dropAccess).arb = s.arb := rfl
@[simp] theorem State.dropAccess_cmdBuf (s : State) : (s.dropAccess).cmdBuf = s.cmdBuf := rfl
@[simp] theorem State.dropAccess_dataBuf (s : State) : (s.dropAccess).dataBuf = s.dataBuf := rfl
@[simp] theorem State.dropAccess_fcStage (s : State) : (s.dropAccess).fcStage = s.fcStage := rfl
@[simp] theorem State.dropAccess_lmem (s : State) : (s.dropAccess).lmem = s.lmem := rfl
@[simp] theorem State.dropAccess_port (s : State) : (s.dropAccess).port = { s.port with pending := s.port.pending.tail } := rfl

/-! ### A discarded frame -/

@[simp] theorem State.discard_cfg (s : State) (code : ResultCode) : (s.discard code).cfg = s.cfg := rfl
@[simp] theorem State.discard_cmd (s : State) (code : ResultCode) : (s.discard code).cmd = s.cmd := rfl
@[simp] theorem State.discard_status (s : State) (code : ResultCode) : (s.discard code).status = { s.status with code := code } := rfl
@[simp] theorem State.discard_crcStrict (s : State) (code : ResultCode) : (s.discard code).crcStrict = s.crcStrict := rfl
@[simp] theorem State.discard_ccaThreshold (s : State) (code : ResultCode) : (s.discard code).ccaThreshold = s.ccaThreshold := rfl
@[simp] theorem State.discard_arg0 (s : State) (code : ResultCode) : (s.discard code).arg0 = s.arg0 := rfl
@[simp] theorem State.discard_arg1 (s : State) (code : ResultCode) : (s.discard code).arg1 = s.arg1 := rfl
@[simp] theorem State.discard_arg2 (s : State) (code : ResultCode) : (s.discard code).arg2 = s.arg2 := rfl
@[simp] theorem State.discard_arg3 (s : State) (code : ResultCode) : (s.discard code).arg3 = s.arg3 := rfl
@[simp] theorem State.discard_result0 (s : State) (code : ResultCode) : (s.discard code).result0 = s.result0 := rfl
@[simp] theorem State.discard_result1 (s : State) (code : ResultCode) : (s.discard code).result1 = s.result1 := rfl
@[simp] theorem State.discard_result2 (s : State) (code : ResultCode) : (s.discard code).result2 = s.result2 := rfl
@[simp] theorem State.discard_scrTx (s : State) (code : ResultCode) : (s.discard code).scrTx = s.scrTx := rfl
@[simp] theorem State.discard_scrRx (s : State) (code : ResultCode) : (s.discard code).scrRx = s.scrRx := rfl
@[simp] theorem State.discard_arb (s : State) (code : ResultCode) : (s.discard code).arb = s.arb := rfl
@[simp] theorem State.discard_cmdBuf (s : State) (code : ResultCode) : (s.discard code).cmdBuf = s.cmdBuf := rfl
@[simp] theorem State.discard_dataBuf (s : State) (code : ResultCode) : (s.discard code).dataBuf = s.dataBuf := rfl
@[simp] theorem State.discard_fcStage (s : State) (code : ResultCode) : (s.discard code).fcStage = { s.fcStage with rx := .discarded } := rfl
@[simp] theorem State.discard_lmem (s : State) (code : ResultCode) : (s.discard code).lmem = s.lmem := rfl
@[simp] theorem State.discard_port (s : State) (code : ResultCode) : (s.discard code).port = s.port := rfl

/-! ### A buffer replaced -/

@[simp] theorem State.setBuf_cfg (s : State) (sel : BufSel) (b : Buffer) : (s.setBuf sel b).cfg = s.cfg := by cases sel <;> rfl
@[simp] theorem State.setBuf_cmd (s : State) (sel : BufSel) (b : Buffer) : (s.setBuf sel b).cmd = s.cmd := by cases sel <;> rfl
@[simp] theorem State.setBuf_status (s : State) (sel : BufSel) (b : Buffer) : (s.setBuf sel b).status = s.status := by cases sel <;> rfl
@[simp] theorem State.setBuf_crcStrict (s : State) (sel : BufSel) (b : Buffer) : (s.setBuf sel b).crcStrict = s.crcStrict := by cases sel <;> rfl
@[simp] theorem State.setBuf_ccaThreshold (s : State) (sel : BufSel) (b : Buffer) : (s.setBuf sel b).ccaThreshold = s.ccaThreshold := by cases sel <;> rfl
@[simp] theorem State.setBuf_arg0 (s : State) (sel : BufSel) (b : Buffer) : (s.setBuf sel b).arg0 = s.arg0 := by cases sel <;> rfl
@[simp] theorem State.setBuf_arg1 (s : State) (sel : BufSel) (b : Buffer) : (s.setBuf sel b).arg1 = s.arg1 := by cases sel <;> rfl
@[simp] theorem State.setBuf_arg2 (s : State) (sel : BufSel) (b : Buffer) : (s.setBuf sel b).arg2 = s.arg2 := by cases sel <;> rfl
@[simp] theorem State.setBuf_arg3 (s : State) (sel : BufSel) (b : Buffer) : (s.setBuf sel b).arg3 = s.arg3 := by cases sel <;> rfl
@[simp] theorem State.setBuf_result0 (s : State) (sel : BufSel) (b : Buffer) : (s.setBuf sel b).result0 = s.result0 := by cases sel <;> rfl
@[simp] theorem State.setBuf_result1 (s : State) (sel : BufSel) (b : Buffer) : (s.setBuf sel b).result1 = s.result1 := by cases sel <;> rfl
@[simp] theorem State.setBuf_result2 (s : State) (sel : BufSel) (b : Buffer) : (s.setBuf sel b).result2 = s.result2 := by cases sel <;> rfl
@[simp] theorem State.setBuf_scrTx (s : State) (sel : BufSel) (b : Buffer) : (s.setBuf sel b).scrTx = s.scrTx := by cases sel <;> rfl
@[simp] theorem State.setBuf_scrRx (s : State) (sel : BufSel) (b : Buffer) : (s.setBuf sel b).scrRx = s.scrRx := by cases sel <;> rfl
@[simp] theorem State.setBuf_arb (s : State) (sel : BufSel) (b : Buffer) : (s.setBuf sel b).arb = s.arb := by cases sel <;> rfl
@[simp] theorem State.setBuf_fcStage (s : State) (sel : BufSel) (b : Buffer) : (s.setBuf sel b).fcStage = s.fcStage := by cases sel <;> rfl
@[simp] theorem State.setBuf_lmem (s : State) (sel : BufSel) (b : Buffer) : (s.setBuf sel b).lmem = s.lmem := by cases sel <;> rfl
@[simp] theorem State.setBuf_port (s : State) (sel : BufSel) (b : Buffer) : (s.setBuf sel b).port = s.port := by cases sel <;> rfl

@[simp] theorem State.buf_setBuf (s : State) (sel : BufSel) (b : Buffer) : (s.setBuf sel b).buf sel = b := by
  cases sel <;> rfl

theorem State.buf_setBuf_ne (s : State) {sel other : BufSel} (b : Buffer) (h : other ≠ sel) :
    (s.setBuf sel b).buf other = s.buf other := by cases sel <;> cases other <;> first | rfl | exact absurd rfl h

@[simp] theorem State.setBuf_buf (s : State) (sel : BufSel) : s.setBuf sel (s.buf sel) = s := by cases sel <;> rfl

@[simp] theorem State.buf_prologue (s : State) (sel : BufSel) : s.prologue.buf sel = s.buf sel := by
  cases sel <;> rfl

@[simp] theorem State.buf_finish (s : State) (code : ResultCode) (sel : BufSel) :
    (s.finish code).buf sel = s.buf sel := by cases sel <;> rfl

@[simp] theorem State.buf_memWrite (s : State) (a : Nat) (v : Bytes) (sel : BufSel) :
    (s.memWrite a v).buf sel = s.buf sel := by cases sel <;> rfl

@[simp] theorem State.content_prologue (s : State) (sel : BufSel) : s.prologue.content sel = s.content sel := by
  cases sel <;> rfl

end Sys2Proof.Machine
end

