-- ==== Sys2Proof/Laws/Ops.lean ====
section
/-! SUPPORT. What the shared operations of the execution cycle can do, said once: `check`, `withOperand`,
`deliver` and `command`, and the operand forms. -/

namespace Sys2Proof.Machine

theorem State.check_pos (s : State) {p : Prop} [Decidable p] (code : ResultCode) (k : State → State) (h : p) :
    s.check p code k = k s := by simp [State.check, h]

theorem State.check_neg (s : State) {p : Prop} [Decidable p] (code : ResultCode) (k : State → State) (h : ¬p) :
    s.check p code k = s.finish code := by simp [State.check, h]

/-- A check goes on, or ends the command with its code. -/
theorem State.check_cases (s : State) (p : Prop) [Decidable p] (code : ResultCode) (k : State → State) :
    (p ∧ s.check p code k = k s) ∨ (¬p ∧ s.check p code k = s.finish code) := by
  by_cases h : p
  · exact .inl ⟨h, s.check_pos code k h⟩
  · exact .inr ⟨h, s.check_neg code k h⟩

@[simp] theorem State.withOperand_some {α : Type} (s : State) (x : α) (k : α → State) :
    s.withOperand (some x) k = k x := rfl

@[simp] theorem State.withOperand_none {α : Type} (s : State) (k : α → State) :
    s.withOperand none k = s.finish .invalidParam := rfl

/-- The output of a command is written and the command ends OK, or its region is outside LMEM and nothing is
written (20_memory.md R70). -/
theorem State.deliver_cases (s : State) (dst : Nat) (bytes : Bytes) (k : State → State) :
    (regionOk s.cfg dst bytes.length ∧ s.deliver dst bytes k = (k (s.memWrite dst bytes)).finish .ok) ∨
      (¬regionOk s.cfg dst bytes.length ∧ s.deliver dst bytes k = s.finish .addressError) :=
  s.check_cases _ _ _

/-- A command always completes: its outcome is the state its rule reaches from the prologue. -/
theorem command_eq (s : State) (rule : State → State) : command s rule = .next (rule s.prologue) := rfl

/-- A valid region writes inside LMEM. -/
theorem memWf_memWrite_region {s : State} {dst : Nat} {bytes : Bytes} (h : memWf s.cfg.lmemSize s.lmem)
    (hr : regionOk s.cfg dst bytes.length) : memWf s.cfg.lmemSize (s.memWrite dst bytes).lmem :=
  memWf_memWriteBytes bytes h (hr.imp List.length_eq_zero_iff.1 id)

/-! ### The operand forms -/

theorem bufOperand_eq_none (imm : Byte) : bufOperand imm = none ↔ ImmKind.buf.allows imm = false := by
  revert imm; decide +kernel

theorem bitOperand_eq_none (imm : Byte) : bitOperand imm = none ↔ ImmKind.bit.allows imm = false := by
  revert imm; decide +kernel

theorem parityOperand_eq_none (imm : Byte) : parityOperand imm = none ↔ ImmKind.nr.allows imm = false := by
  revert imm; decide +kernel

theorem arbOperand_eq_none (imm : Byte) : arbOperand imm = none ↔ ImmKind.af.allows imm = false := by
  revert imm; decide +kernel

end Sys2Proof.Machine
end

