-- ==== Sys2Proof/Laws/Params.lean ====
section
/-! SUPPORT. What a valid choice of the parameters gives, field by field (00_scope.md R10). -/

namespace Sys2Proof.Machine

/-- The constraints of `paramsValid` as propositions. -/
structure ValidParams (c : Config) : Prop where
  lmemSize : 1024 ≤ c.lmemSize ∧ c.lmemSize ≤ 61440
  cmdCap : 3 ≤ c.cmdCap ∧ c.cmdCap ≤ 65535
  dataCap : 3 ≤ c.dataCap ∧ c.dataCap ≤ 65535
  scrSkip : c.scrSkip = 5
  rsFcr : c.rsFcr = 0
  rsPrim : c.rsPrim = 1
  scrWidth : 1 ≤ c.scrWidth ∧ c.scrWidth ≤ 32
  scrambler : c.scrambler.next.length = c.scrWidth
  descrambler : c.descrambler.next.length = c.scrWidth
  scrTxSeed : c.scrTxSeed.toNat < 2 ^ c.scrWidth
  scrRxSeed : c.scrRxSeed.toNat < 2 ^ c.scrWidth
  seedsDiffer : c.scrTxSeed ≠ c.scrRxSeed
  inverts : pairInverts c = true
  gfPoly : gfPrimitive c.rsGfPoly = true
  hamEnc : hamEncCorrects c.hamEnc.toList = true
  hdrLenPos : (c.hdrLenPos.toList.map Prod.fst).Nodup
  settleTicks : c.settleTicks.toNat < 2 ^ 31

theorem validParams {c : Config} (h : paramsValid c = true) : ValidParams c := by
  simp only [paramsValid, sourceValues, scramblerValid, scramblerShape, descramblerShape, shiftFnFits,
    Bool.and_eq_true, beq_iff_eq, bne_iff_ne, decide_eq_true_eq] at h
  constructor <;> tauto

end Sys2Proof.Machine
end

