-- ==== Sys2Proof/Laws/PerInstr.lean ====
section
/-! SUPPORT. Statements about every command as syntax, one lemma per constructor of Instr: its opcode is
assigned to it, and its word holds its fields (30_encoding.md R80, R81, R85). -/

namespace Sys2Proof.Laws

/-- The opcode of a command, with its immediate, names that command (30_encoding.md R85). -/
def OpcodeAssigned.Statement (i : Instr) : Prop := ofOpcode i.opcode i.imm8 = some i

theorem OpcodeAssigned.nop : OpcodeAssigned.Statement .nop := rfl
theorem OpcodeAssigned.softReset : OpcodeAssigned.Statement .softReset := rfl
theorem OpcodeAssigned.kissEscape : OpcodeAssigned.Statement .kissEscape := rfl
theorem OpcodeAssigned.kissUnescape : OpcodeAssigned.Statement .kissUnescape := rfl
theorem OpcodeAssigned.findFrame (imm : Byte) : OpcodeAssigned.Statement (.findFrame imm) := rfl
theorem OpcodeAssigned.bufWrite (imm : Byte) : OpcodeAssigned.Statement (.bufWrite imm) := rfl
theorem OpcodeAssigned.bufPeek (imm : Byte) : OpcodeAssigned.Statement (.bufPeek imm) := rfl
theorem OpcodeAssigned.bufPop (imm : Byte) : OpcodeAssigned.Statement (.bufPop imm) := rfl
theorem OpcodeAssigned.bufClear (imm : Byte) : OpcodeAssigned.Statement (.bufClear imm) := rfl
theorem OpcodeAssigned.scrBit (imm : Byte) : OpcodeAssigned.Statement (.scrBit imm) := rfl
theorem OpcodeAssigned.descrBit (imm : Byte) : OpcodeAssigned.Statement (.descrBit imm) := rfl
theorem OpcodeAssigned.scrBlock : OpcodeAssigned.Statement .scrBlock := rfl
theorem OpcodeAssigned.descrBlock : OpcodeAssigned.Statement .descrBlock := rfl
theorem OpcodeAssigned.rsEncode (imm : Byte) : OpcodeAssigned.Statement (.rsEncode imm) := rfl
theorem OpcodeAssigned.rsDecode (imm : Byte) : OpcodeAssigned.Statement (.rsDecode imm) := rfl
theorem OpcodeAssigned.crcCalc : OpcodeAssigned.Statement .crcCalc := rfl
theorem OpcodeAssigned.crcVerify : OpcodeAssigned.Statement .crcVerify := rfl
theorem OpcodeAssigned.hdrBuild : OpcodeAssigned.Statement .hdrBuild := rfl
theorem OpcodeAssigned.hdrParse : OpcodeAssigned.Statement .hdrParse := rfl
theorem OpcodeAssigned.fcEncode : OpcodeAssigned.Statement .fcEncode := rfl
theorem OpcodeAssigned.fcDecode : OpcodeAssigned.Statement .fcDecode := rfl
theorem OpcodeAssigned.arbStep (imm : Byte) : OpcodeAssigned.Statement (.arbStep imm) := rfl

/-- The fields of a word built from an opcode and an immediate (30_encoding.md R80). -/
theorem fields_of_word (opc imm : Byte) :
    opcField ((0#16 ++ imm ++ opc).setWidth 32) = opc ∧ immField ((0#16 ++ imm ++ opc).setWidth 32) = imm ∧
      rsvField ((0#16 ++ imm ++ opc).setWidth 32) = 0 := by
  refine ⟨?_, ?_, ?_⟩ <;> apply BitVec.eq_of_getElem_eq <;> intro k hk <;>
    simp only [opcField, immField, rsvField, BitVec.getElem_extractLsb', BitVec.getLsbD_setWidth,
      BitVec.getLsbD_append]
  · simp only [Nat.zero_add, hk, if_true, BitVec.getLsbD_eq_getElem]
    simp; omega
  · simp [hk]; omega
  · rw [if_neg (by omega), if_neg (by omega)]
    simp

/-- The word of a command holds its opcode, its immediate and RSV = 0 (30_encoding.md R80, R81). -/
def EncodeFields.Statement (i : Instr) : Prop :=
  opcField (encode i) = i.opcode ∧ immField (encode i) = i.imm8 ∧ rsvField (encode i) = 0

theorem EncodeFields.nop : EncodeFields.Statement .nop := fields_of_word _ _
theorem EncodeFields.softReset : EncodeFields.Statement .softReset := fields_of_word _ _
theorem EncodeFields.kissEscape : EncodeFields.Statement .kissEscape := fields_of_word _ _
theorem EncodeFields.kissUnescape : EncodeFields.Statement .kissUnescape := fields_of_word _ _
theorem EncodeFields.findFrame (imm : Byte) : EncodeFields.Statement (.findFrame imm) := fields_of_word _ _
theorem EncodeFields.bufWrite (imm : Byte) : EncodeFields.Statement (.bufWrite imm) := fields_of_word _ _
theorem EncodeFields.bufPeek (imm : Byte) : EncodeFields.Statement (.bufPeek imm) := fields_of_word _ _
theorem EncodeFields.bufPop (imm : Byte) : EncodeFields.Statement (.bufPop imm) := fields_of_word _ _
theorem EncodeFields.bufClear (imm : Byte) : EncodeFields.Statement (.bufClear imm) := fields_of_word _ _
theorem EncodeFields.scrBit (imm : Byte) : EncodeFields.Statement (.scrBit imm) := fields_of_word _ _
theorem EncodeFields.descrBit (imm : Byte) : EncodeFields.Statement (.descrBit imm) := fields_of_word _ _
theorem EncodeFields.scrBlock : EncodeFields.Statement .scrBlock := fields_of_word _ _
theorem EncodeFields.descrBlock : EncodeFields.Statement .descrBlock := fields_of_word _ _
theorem EncodeFields.rsEncode (imm : Byte) : EncodeFields.Statement (.rsEncode imm) := fields_of_word _ _
theorem EncodeFields.rsDecode (imm : Byte) : EncodeFields.Statement (.rsDecode imm) := fields_of_word _ _
theorem EncodeFields.crcCalc : EncodeFields.Statement .crcCalc := fields_of_word _ _
theorem EncodeFields.crcVerify : EncodeFields.Statement .crcVerify := fields_of_word _ _
theorem EncodeFields.hdrBuild : EncodeFields.Statement .hdrBuild := fields_of_word _ _
theorem EncodeFields.hdrParse : EncodeFields.Statement .hdrParse := fields_of_word _ _
theorem EncodeFields.fcEncode : EncodeFields.Statement .fcEncode := fields_of_word _ _
theorem EncodeFields.fcDecode : EncodeFields.Statement .fcDecode := fields_of_word _ _
theorem EncodeFields.arbStep (imm : Byte) : EncodeFields.Statement (.arbStep imm) := fields_of_word _ _

end Sys2Proof.Laws
end

