-- ==== Sys2Proof/Laws/ShiftRegister.lean ====
section
/-! SUPPORT. What a bit function of SCR_FN does to each bit of its register, and that a run over formal bits is,
coefficient by coefficient, a run of the bit function (41_scrambler.md R140). -/

namespace Sys2Proof.Machine

@[simp] theorem bitsNumber_nil : bitsNumber [] = 0 := rfl

@[simp] theorem bitsNumber_cons (b : Bool) (l : List Bool) : bitsNumber (b :: l) = b.toNat + 2 * bitsNumber l := rfl

theorem bitsNumber_lt (l : List Bool) : bitsNumber l < 2 ^ l.length := by
  induction l with
  | nil => simp
  | cons b l ih => simp only [bitsNumber_cons, List.length_cons, Nat.pow_succ]; have := b.toNat_lt; omega

@[simp] theorem testBit_bitsNumber (l : List Bool) (k : Nat) : (bitsNumber l).testBit k = l.getD k false := by
  induction l generalizing k with
  | nil => simp
  | cons b l ih =>
    have h : b.toNat < 2 := b.toNat_lt
    cases k with
    | zero =>
      rw [Nat.testBit_zero, bitsNumber_cons, Nat.add_mul_mod_self_left, Nat.mod_eq_of_lt h]
      cases b <;> rfl
    | succ k =>
      rw [Nat.testBit_succ, bitsNumber_cons, Nat.add_mul_div_left _ _ (by decide), Nat.div_eq_of_lt h, Nat.zero_add, ih]
      rfl

/-- Bit `k` of the next state is the sum entry `k` gives. -/
theorem shiftNext_getLsbD (f : ShiftFn) (x : Bool) (s : Word) (h : f.next.length ≤ 32) (k : Nat) :
    (shiftNext f x s).getLsbD k = (f.next.map fun b => bitSum b x s).getD k false := by
  by_cases hk : k < 32
  · rw [shiftNext, BitVec.getLsbD_ofNat, testBit_bitsNumber, decide_eq_true hk, Bool.true_and]
  · rw [BitVec.getLsbD_of_ge _ _ (by omega), List.getD_eq_default _ _ (by simp; omega)]

/-- The next state lies inside the register. -/
theorem shiftNext_lt (f : ShiftFn) (x : Bool) (s : Word) : (shiftNext f x s).toNat < 2 ^ f.next.length := by
  refine Nat.lt_of_le_of_lt (Nat.mod_le _ _) ?_
  simpa using bitsNumber_lt (f.next.map fun b => bitSum b x s)

/-- Coefficient `i` of a formal sum is the sum of the coefficients. -/
theorem testBit_formalSum (b : BitSum) (x : FormalBit) (s : List FormalBit) (w : Word) (i : Nat)
    (h : ∀ k, w.getLsbD k = (s.getD k 0).testBit i) : (formalSum b x s).testBit i = bitSum b (x.testBit i) w := by
  unfold formalSum bitSum tapSum
  induction b.taps with
  | nil => cases b.input <;> simp
  | cons k taps ih => simp only [List.foldr_cons, Nat.testBit_xor, ih, h k, Bool.xor_assoc]

/-- Coefficient `i` of a formal run is a run of the bit function. -/
theorem formalRun_testBit (f : ShiftFn) (hf : f.next.length ≤ 32) (i : Nat) (xs s : List FormalBit) (w : Word)
    (h : ∀ k, w.getLsbD k = (s.getD k 0).testBit i) :
    (formalRun f xs s).map (·.testBit i) = (shiftRun f (xs.map (·.testBit i)) w).1 := by
  induction xs generalizing s w with
  | nil => rfl
  | cons x xs ih =>
    simp only [formalRun, shiftRun, List.map_cons, shiftOut, testBit_formalSum _ _ _ _ _ h]
    rw [ih _ (shiftNext f (x.testBit i) w) fun k => ?_]
    rw [shiftNext_getLsbD f _ _ hf]
    by_cases hk : k < f.next.length
    · simp [hk, testBit_formalSum _ _ _ _ _ h]
    · simp [hk]

end Sys2Proof.Machine
end

