-- ==== Sys2Proof/Machine/HostText.lean ====
section
/-! DEFINITION. The text of host programs: lines, mnemonics, operands, numbers and comments (30_encoding.md
R89, R90). A line of any other form is rejected. The lexical details R89 leaves out are those of log 18. -/

namespace Sys2Proof.Machine

/-- A word of a line, its characters. -/
abbrev Token := List Char

/-- The characters between words (log 18). -/
def isSeparator (c : Char) : Bool := c == ' ' || c == ',' || c == '\t'

/-- The words of the characters, with the characters of the word begun, last first. -/
def tokensFrom : List Char → Token → List Token
  | [], word => if word.isEmpty then [] else [word.reverse]
  | c :: cs, word =>
    if isSeparator c then
      if word.isEmpty then tokensFrom cs [] else word.reverse :: tokensFrom cs []
    else tokensFrom cs (c :: word)

/-- The words of a line; `;` starts a comment (30_encoding.md R89). -/
def lineTokens (line : List Char) : List Token := tokensFrom (line.takeWhile (· ≠ ';')) []

/-- The value of a digit, if it is one below `base`. -/
def digitValue (base : Nat) (c : Char) : Option Nat :=
  let n := c.toNat
  let d := if 48 ≤ n ∧ n ≤ 57 then n - 48
    else if 97 ≤ n ∧ n ≤ 102 then n - 87
    else if 65 ≤ n ∧ n ≤ 70 then n - 55
    else base
  if d < base then some d else none

/-- The number whose digits follow the number `n`. -/
def digitsFrom (base : Nat) : List Char → Nat → Option Nat
  | [], n => some n
  | c :: cs, n =>
    match digitValue base c with
    | some d => digitsFrom base cs (base * n + d)
    | none => none

/-- A number of at least one digit. -/
def digits (base : Nat) (t : Token) : Option Nat := if t.isEmpty then none else digitsFrom base t 0

/-- A decimal or `0x` hexadecimal number (30_encoding.md R89). -/
def number (t : Token) : Option Nat :=
  if t.take 2 = ['0', 'x'] then digits 16 (t.drop 2) else digits 10 t

/-- A number below `bound`. That a number too large for its field makes the line no line of a program is the
model's choice; the rules do not say what such a line stands for (log 18). -/
def numberBelow (bound : Nat) (t : Token) : Option Nat := (number t).filter (· < bound)

/-- A 32-bit operand. -/
def wordOperand (t : Token) : Option Word := (numberBelow (2 ^ 32) t).map (BitVec.ofNat 32)

/-- An IMM8 operand. -/
def immOperand (t : Token) : Option Byte := (numberBelow 256 t).map (BitVec.ofNat 8)

/-- A byte of a `wrb` line: two hexadecimal digits, or `0x` and digits (00_scope.md R14; log 18). -/
def byteOperand (t : Token) : Option Byte :=
  ((if t.take 2 = ['0', 'x'] then number t else digits 16 t).filter (· < 256)).map (BitVec.ofNat 8)

/-- An s16 operand, with a sign in front if it is negative (30_encoding.md R90). -/
def s16Operand (t : Token) : Option Half :=
  if t.take 1 = ['-'] then (numberBelow 32769 (t.drop 1)).map fun n => BitVec.ofInt 16 (-n)
  else (numberBelow 32768 t).map (BitVec.ofNat 16)

/-- A 0 or 1 operand. -/
def flagOperand (t : Token) : Option Bool := (numberBelow 2 t).map (· == 1)

/-- A buffer operand, `cmd` or `data` (30_encoding.md R90). -/
def bufferOperand (t : Token) : Option BufSel :=
  if t = "cmd".toList then some .cmd else if t = "data".toList then some .data else none

/-- The name of a register (10_state.md R23). -/
def regName : Reg → String
  | .cmd => "CMD"
  | .status => "STATUS"
  | .flags => "FLAGS"
  | .config => "CONFIG"
  | .ccaThreshold => "CCA_THRESHOLD"
  | .arg0 => "ARG0"
  | .arg1 => "ARG1"
  | .arg2 => "ARG2"
  | .arg3 => "ARG3"
  | .result0 => "RESULT0"
  | .result1 => "RESULT1"
  | .result2 => "RESULT2"
  | .scrTxState => "SCR_TX_STATE"
  | .scrRxState => "SCR_RX_STATE"
  | .arbState => "ARB_STATE"
  | .arbClearStart => "ARB_CLEAR_START"
  | .arbLastBusy => "ARB_LAST_BUSY"
  | .arbSettle => "ARB_SETTLE"
  | .bufCount => "BUF_COUNT"
  | .ovfCount => "OVF_COUNT"
  | .fcStage => "FC_STAGE"
  | .bufCap => "BUF_CAP"

/-- The register a word names. -/
def regOperand (t : Token) : Option Reg := allRegs.find? fun r => (regName r).toList = t

/-- A command line from its mnemonic, the command name in lower case, and its operands (30_encoding.md
R90). -/
def parseCommand (mnemonic : String) (operands : List Token) : Option CommandLine :=
  match mnemonic, operands with
  | "nop", [] => some .nop
  | "soft_reset", [] => some .softReset
  | "kiss_escape", [a, b, c] =>
    return .kissEscape (← wordOperand a) (← wordOperand b) (← wordOperand c)
  | "kiss_unescape", [a, b, c] =>
    return .kissUnescape (← wordOperand a) (← wordOperand b) (← wordOperand c)
  | "find_frame", [a] => return .findFrame (← bufferOperand a)
  | "buf_write", [a, b, c] => return .bufWrite (← bufferOperand a) (← wordOperand b) (← wordOperand c)
  | "buf_peek", [a, b, c, d] =>
    return .bufPeek (← bufferOperand a) (← wordOperand b) (← wordOperand c) (← wordOperand d)
  | "buf_pop", [a, b] => return .bufPop (← bufferOperand a) (← wordOperand b)
  | "buf_clear", [a] => return .bufClear (← bufferOperand a)
  | "scr_bit", [a] => return .scrBit (← immOperand a)
  | "descr_bit", [a] => return .descrBit (← immOperand a)
  | "scr_block", [a, b, c] => return .scrBlock (← wordOperand a) (← wordOperand b) (← wordOperand c)
  | "descr_block", [a, b, c] => return .descrBlock (← wordOperand a) (← wordOperand b) (← wordOperand c)
  | "rs_encode", [a, b, c, d] =>
    return .rsEncode (← immOperand a) (← wordOperand b) (← wordOperand c) (← wordOperand d)
  | "rs_decode", [a, b, c, d] =>
    return .rsDecode (← immOperand a) (← wordOperand b) (← wordOperand c) (← wordOperand d)
  | "crc_calc", [a, b] => return .crcCalc (← wordOperand a) (← wordOperand b)
  | "crc_verify", [a, b, c] => return .crcVerify (← wordOperand a) (← wordOperand b) (← wordOperand c)
  | "hdr_build", [a, b] => return .hdrBuild (← wordOperand a) (← wordOperand b)
  | "hdr_parse", [a] => return .hdrParse (← wordOperand a)
  | "fc_encode", [a, b, c] => return .fcEncode (← wordOperand a) (← wordOperand b) (← wordOperand c)
  | "fc_decode", [a, b, c] => return .fcDecode (← wordOperand a) (← wordOperand b) (← wordOperand c)
  | "arb_step", [a, b, c, d] =>
    return .arbStep (← wordOperand a) (← s16Operand b) (← flagOperand c) (← flagOperand d)
  | _, _ => none

/-- The operation of a line, none for a line of no form of R89; an empty line has no operation
(30_encoding.md R89). -/
def parseLine (line : List Char) : Option (List HostLine) :=
  match lineTokens line with
  | [] => some []
  | name :: operands =>
    match String.ofList name, operands with
    | "wr", [r, v] => return [.wr (← regOperand r) (← wordOperand v)]
    | "rd", [r] => return [.rd (← regOperand r)]
    | "wrb", a :: b :: bs => return [.wrb (← number a) (← (b :: bs).mapM byteOperand)]
    | "rdb", [a, n] => return [.rdb (← number a) (← number n)]
    | mnemonic, ops => return [.command (← parseCommand mnemonic ops)]

/-- A host program from its lines (30_encoding.md R89). -/
def parseProgram : List String → Option (List HostLine)
  | [] => some []
  | l :: ls => return (← parseLine l.toList) ++ (← parseProgram ls)

end Sys2Proof.Machine
end

