-- ==== Sys2Proof/Tests/Slice0.lean ====
section
/-! SUPPORT. Tests with expected values from spec/ (the vector names K-, S-, R-, H-, F-, A-, Y- are those of
95_test_vectors.md), and for each statement of the certificates a witness that meets its hypotheses. -/

namespace Sys2Proof.Tests

open Sys2Proof Sys2Proof.Machine

-- The kernel checks one test at a time, so that the threads waiting for it do not pile up.
set_option Elab.async false

/-! ### Small states -/

/-- The reset state with byte sequences written to LMEM and the four arguments set. -/
def start (mem : List (Nat × Bytes)) (a0 a1 a2 a3 : Word) : State :=
  { State.reset with arg0 := a0, arg1 := a1, arg2 := a2, arg3 := a3,
                     lmem := mem.foldl (fun m p => memWriteBytes m p.1 p.2) [] }

/-- The power-on state at P0 with the block at address 0x40000000. -/
def based : State := State.powerOn { p0 with blockBase := 0x40000000 }

/-- The state with `content` pushed into the command buffer. -/
def holding (content : Bytes) (s : State) : State :=
  { s with cmdBuf := (bufPushAll s.cfg.cmdCap content s.cmdBuf 0 0).1 }

/-- The arbiter in a mode, on a clear run that began at `since` if `run`, with threshold -90. -/
def arbiter (mode : ArbMode) (run : Bool) (since now sample : Word) : State :=
  { start [] now sample 0 0 with
    ccaThreshold := 0xFFA6, arb := { mode := mode, clearValid := run, clearStart := since, lastBusy := 0 } }

/-- The state with one host access waiting. -/
def waiting (a : HostAccess) (s : State) : State := { s with port := { s.port with pending := [a] } }

/-- One step that runs the command (`test_step_at_p0`) answers a next state with the property. -/
def runs (s : State) (i : Instr) (p : State → Bool) : Bool :=
  match hostStep (s.issueCommand (encode i)) with
  | .next t => p t
  | .fault _ => false
  | .refused _ => false

/-- One host access answers a next state with the property. -/
def accesses (s : State) (a : HostAccess) (p : State → Bool) : Bool :=
  match hostStep (waiting a s) with
  | .next t => p t
  | .fault _ => false
  | .refused _ => false

/-- One host access is refused for the given reason. -/
def refuses (a : HostAccess) (why : Refusal) : Bool :=
  match hostStep (waiting a State.reset) with
  | .next _ => false
  | .fault _ => false
  | .refused r => r = why

/-- The code and the first two results of a command. -/
def ends (t : State) (code : ResultCode) (r0 r1 : Word) : Bool :=
  t.status.code = code && t.result0 = r0 && t.result1 = r1

/-- The command byte 00 and "HELLO" (F-E1). -/
def hello : Bytes := [0x00, 0x48, 0x45, 0x4C, 0x4C, 0x4F]

/-- The encoded frame F-E1. -/
def helloFrame : Bytes :=
  [0x00, 0xF1, 0x5E, 0x48] ++ [0x0F, 0x70, 0xB3, 0x6F, 0x43, 0x98, 0x48, 0xAE, 0xBC, 0x1F, 0xF0, 0x7F, 0xC3] ++
    [0x46, 0x37] ++ [0x43, 0xD9, 0x33, 0xEB, 0x0A] ++
    [0xAE, 0xE6, 0x53, 0x21, 0x89, 0xB1, 0x26, 0xCB, 0x75, 0x8F, 0x34, 0x38, 0x36, 0x27, 0x45, 0x05] ++
    [0x54, 0x54, 0x13, 0x25]

/-- The data block 01 .. 0D of R-E1. -/
def count13 : Bytes := [1, 2, 3, 4, 5, 6, 7, 8, 9, 10, 11, 12, 13]

/-! ### Well-formed commands (30_encoding.md R82) -/

theorem test_wf_buffer : (Instr.findFrame 1).wf = true ∧ (Instr.findFrame 2).wf = false := by decide

theorem test_wf_parity : (Instr.rsDecode 16).wf = true ∧ (Instr.rsDecode 17).wf = false ∧
    (Instr.rsEncode 3).wf = false ∧ (Instr.rsEncode 0).wf = false := by decide

theorem test_wf_bit : (Instr.scrBit 1).wf = true ∧ (Instr.descrBit 2).wf = false := by decide

theorem test_wf_arbiter : (Instr.arbStep 3).wf = true ∧ (Instr.arbStep 4).wf = false := by decide

theorem test_wf_none : Instr.nop.wf = true ∧ ImmKind.z.allows 1 = false := by decide

/-- 00_scope.md R10: P0 keeps the constraints; a count of 2 bytes, a polynomial that is not primitive (0x11B), a
repeated codeword, a seed of 10 bits, a settle interval of 2^31 and a skip count of 4 (R11) break them. -/
theorem test_parameters : paramsValid p0 = true ∧ paramsValid { p0 with cmdCap := 2 } = false ∧
    paramsValid { p0 with rsGfPoly := 0x11B } = false ∧
    paramsValid { p0 with hamEnc := p0.hamEnc.set 1 0 } = false ∧
    paramsValid { p0 with scrTxSeed := 0x200 } = false ∧
    paramsValid { p0 with settleTicks := 0x80000000 } = false ∧
    paramsValid { p0 with scrSkip := 4 } = false := by decide +kernel

/-- The P0 functions with the numbering of the bits turned round, so that the register shifts the other way. -/
def mirrored (f : ShiftFn) : ShiftFn :=
  let turn (b : BitSum) : BitSum := ⟨b.taps.map (8 - ·), b.input⟩
  { out := turn f.out, next := (f.next.map turn).reverse }

/-- 41_scrambler.md R140, R150, 90_conflicts.md C1: one shared seed, or a receive seed that does not belong to the
transmit seed, breaks the constraints; the P0 pair in a register that shifts the other way keeps them. -/
theorem test_scrambler_parameters : scramblerValid p0 = true ∧ scramblerValid { p0 with scrRxSeed := 0x00F } = false ∧
    scramblerValid { p0 with scrRxSeed := 0x1F1 } = false ∧
    scramblerValid { p0 with scrambler := mirrored p0Scrambler, descrambler := mirrored p0Descrambler,
                             scrTxSeed := 0x1E0, scrRxSeed := 0x01F } = true := by decide +kernel

/-- 41_scrambler.md R140: an output of one tap twice, an input that is not combined with a state bit, and a register
with a bit that takes no neighbour do not have the structure. -/
theorem test_scrambler_shape : scramblerShape { p0Scrambler with out := ⟨[4, 4], false⟩ } 9 = false ∧
    scramblerShape { p0Scrambler with next := p0Scrambler.next.set 8 ⟨[], true⟩ } 9 = false ∧
    scramblerShape { p0Scrambler with next := p0Scrambler.next.set 5 ⟨[0], false⟩ } 9 = false ∧
    descramblerShape { p0Descrambler with out := ⟨[0, 4], true⟩ } 9 = false := by decide

/-! ### Decoding: words written out from 30_encoding.md R80, R81 and the opcodes of R85 -/

theorem test_decode_system : decodeTableWord 32 0x00000000 = some .nop ∧
    decodeTableWord 32 0x00000001 = some .softReset := by decide

theorem test_decode_framer : decodeTableWord 32 0x00000010 = some .kissEscape ∧
    decodeTableWord 32 0x00000011 = some .kissUnescape ∧
    decodeTableWord 32 0x00000112 = some (.findFrame 1) := by decide

theorem test_decode_buffers : decodeTableWord 32 0x00000113 = some (.bufWrite 1) ∧
    decodeTableWord 32 0x00000014 = some (.bufPeek 0) ∧ decodeTableWord 32 0x00000115 = some (.bufPop 1) ∧
    decodeTableWord 32 0x00000016 = some (.bufClear 0) := by decide

theorem test_decode_scrambler : decodeTableWord 32 0x00000120 = some (.scrBit 1) ∧
    decodeTableWord 32 0x00000021 = some (.descrBit 0) ∧ decodeTableWord 32 0x00000022 = some .scrBlock ∧
    decodeTableWord 32 0x00000023 = some .descrBlock := by decide

theorem test_decode_reed_solomon : decodeTableWord 32 0x00000230 = some (.rsEncode 2) ∧
    decodeTableWord 32 0x00001031 = some (.rsDecode 16) := by decide

theorem test_decode_crc : decodeTableWord 32 0x00000038 = some .crcCalc ∧
    decodeTableWord 32 0x00000039 = some .crcVerify := by decide

theorem test_decode_frame_codec : decodeTableWord 32 0x00000040 = some .hdrBuild ∧
    decodeTableWord 32 0x00000041 = some .hdrParse ∧ decodeTableWord 32 0x00000042 = some .fcEncode ∧
    decodeTableWord 32 0x00000043 = some .fcDecode := by decide

theorem test_decode_arbiter : decodeTableWord 32 0x00000350 = some (.arbStep 3) := by decide

/-- Y-3 to Y-6. -/
theorem test_decode_illegal : decodeTableWord 32 0x00010000 = none ∧ decodeTableWord 32 0x00000110 = none ∧
    decodeTableWord 32 0x00000002 = none ∧ decodeTableWord 32 0x000000FF = none := by decide

/-! ### Host programs: lines of P1, P3, P4 and 30_encoding.md R91 -/

theorem test_program_text :
    parseProgram ["wrb 0x000, 11 C0", "find_frame data ; R91", "arb_step 4000, -91, 1, 0", "wr CCA_THRESHOLD, 0xFFA6",
      "rs_decode 3, 0x000, 13, 0x000", "rdb 16, 2"] =
    some [.wrb 0 [0x11, 0xC0], .command (.findFrame .data), .command (.arbStep 4000 (-91) true false),
      .wr .ccaThreshold 0xFFA6, .command (.rsDecode 3 0 13 0), .rdb 16 2] := by decide +kernel

theorem test_program_text_rejected : parseProgram ["find_frame 2"] = none ∧ parseProgram ["wr CMD, 0x1G"] = none := by
  decide +kernel

/-! ### Host accesses -/

theorem test_reset_memory_form : memWf State.reset.cfg.lmemSize State.reset.lmem := by decide

/-- 20_memory.md R63: an unmapped offset, a wrong width, a misaligned word. -/
theorem test_refused_accesses : refuses (.read 4 0x58) (.unmappedOffset 0x58) = true ∧
    refuses (.read 4 0x2000) (.unmappedOffset 0x2000) = true ∧ refuses (.write 1 0x14 0) (.wrongWidth 1 0x14) = true ∧
    refuses (.write 4 0x16 0) (.misaligned 0x16) = true ∧ refuses (.read 4 0x1002) (.misaligned 0x1002) = true := by
  decide +kernel

/-- 20_memory.md R60: offset 0 is at BLOCK_BASE; nothing of the block lies below it. -/
theorem test_base_address : accesses based (.write 4 0x40000014 7) (fun t => t.arg0 = 7) = true ∧
    accessTarget based.cfg 4 0x3FFFFFFC = .refused (.outsideWindow 0x3FFFFFFC) ∧
    accessTarget based.cfg 4 0x14 = .refused (.outsideWindow 0x14) ∧
    accessTarget based.cfg 1 0x40001FFF = .lmemByte 4095 := by decide +kernel

/-- 20_memory.md R64: a word in LMEM is little-endian. -/
theorem test_word_little_endian : accesses State.reset (.write 4 0x1FFC 0x11223344) (fun t =>
    t.memRead 4092 4 = [0x44, 0x33, 0x22, 0x11]) = true := by decide +kernel

/-- 10_state.md R32: only the SCR_W low bits are kept. -/
theorem test_scrambler_register_width : accesses State.reset (.write 4 0x30 0xFFFFFFFF) (fun t =>
    readReg t .scrTxState = 0x1FF) = true := by decide +kernel

/-- K-B3. -/
theorem test_flags_clear : accesses
    { State.reset with cmdBuf := { State.reset.cmdBuf with ovf := true, drops := 6 } } (.write 4 0x08 1)
    (fun t => readReg t .flags = 0 && readReg t .ovfCount = 0) = true := by decide +kernel

/-! ### One step of each command -/

/-- At P0 a step is the host's next access: the parameters are valid. -/
theorem test_step_at_p0 (s : State) (h : s.cfg = p0) : step s = hostStep s := by
  rw [step, h, if_pos (by decide +kernel)]

theorem test_nop : runs { State.reset with result0 := 7 } .nop (fun t => ends t .ok 0 0) = true := by decide +kernel

/-- Y-2. -/
theorem test_soft_reset : runs (holding [1, 2] { arbiter .transmitting false 9 0 0 with crcStrict := true, scrTx := 0 })
    .softReset (fun t => t.cmdBuf.count = 0 && t.arb = arbiterReset && t.scrTx = 0x00F && t.crcStrict &&
      t.ccaThreshold = 0xFFA6) = true := by decide +kernel

/-- K-E2. -/
theorem test_kiss_escape : runs (start [(0, [0x01, 0xC0, 0xDB, 0x02])] 0 4 0x10 0) .kissEscape (fun t =>
    ends t .ok 8 0 && t.memRead 0x10 8 = [0xC0, 0x01, 0xDB, 0xDC, 0xDB, 0xDD, 0x02, 0xC0]) = true := by
  decide +kernel

/-- K-E9 and K-E10: the destination ends one byte past LMEM, or with it. -/
theorem test_kiss_escape_destination :
    runs (start [(0, [0xC0, 0xC0])] 0 2 4091 0) .kissEscape (fun t => ends t .addressError 0 0) = true ∧
    runs (start [(0, [0xC0, 0xC0])] 0 2 4090 0) .kissEscape (fun t => ends t .ok 6 0) = true := by decide +kernel

/-- K-U1. -/
theorem test_kiss_unescape :
    runs (start [(0, [0xC0, 0x01, 0xDB, 0xDC, 0xDB, 0xDD, 0x02, 0xC0])] 0 8 0x20 0) .kissUnescape (fun t =>
      ends t .ok 4 8 && !t.status.noTrailer && t.memRead 0x20 4 = [0x01, 0xC0, 0xDB, 0x02]) = true := by
  decide +kernel

/-- K-U2 and K-U9. -/
theorem test_kiss_unescape_corners :
    runs (start [(0, [1, 2])] 0 2 0x20 0) .kissUnescape (fun t => ends t .ok 2 2 && t.status.noTrailer) = true ∧
    runs (start [(0, [0xC0, 1, 0xDB, 0xC0])] 0 4 0x20 0) .kissUnescape (fun t => ends t .frameCorrupt 0 0) = true := by
  decide +kernel

/-- K-F1. -/
theorem test_find_frame :
    runs (holding [0x11, 0x22, 0xC0, 0xC0, 0xC0, 0x09, 0x41, 0xC0] State.reset) (.findFrame 0) (fun t =>
      ends t .ok 4 4 && t.status.discarded && t.content .cmd = [0xC0, 0x09, 0x41, 0xC0]) = true := by decide +kernel

/-- K-F9: the full-buffer branch. -/
theorem test_find_frame_full :
    runs (holding (0xC0 :: List.replicate 63 1) State.reset) (.findFrame 0) (fun t =>
      ends t .notFound 0 64 && t.content .cmd = []) = true := by decide +kernel

/-- K-B1. -/
theorem test_buf_write : runs (start [(0, [1, 2, 3])] 0 3 0 0) (.bufWrite 0) (fun t =>
    ends t .ok 3 0 && t.content .cmd = [1, 2, 3] && readReg t .bufCount = 3) = true := by decide +kernel

/-- K-B2. -/
theorem test_buf_write_overflow : runs (start [(0, List.replicate 70 5)] 0 70 0 0) (.bufWrite 0) (fun t =>
    ends t .bufferOverflow 64 6 && readReg t .flags = 1 && readReg t .ovfCount = 6) = true := by decide +kernel

/-- K-B6. -/
theorem test_buf_peek : runs (holding [0xC0, 0x09, 0xC0] (start [] 0 3 0x100 0)) (.bufPeek 0) (fun t =>
    ends t .ok 3 0 && t.memRead 0x100 3 = [0xC0, 0x09, 0xC0] && t.cmdBuf.count = 3) = true := by decide +kernel

/-- K-B7. -/
theorem test_buf_peek_length : runs (holding [0xC0, 0x09, 0xC0] (start [] 1 3 0x100 0)) (.bufPeek 0) (fun t =>
    ends t .invalidLength 0 0) = true := by decide +kernel

/-- K-B9. -/
theorem test_buf_pop : runs (holding [0xC0, 0x09, 0xC0] (start [] 0 2 0 0)) (.bufPop 0) (fun t =>
    ends t .ok 2 0 && t.content .cmd = [0xC0]) = true := by decide +kernel

/-- K-B10. -/
theorem test_buf_pop_length : runs (holding [0xC0, 0x09, 0xC0] (start [] 0 4 0 0)) (.bufPop 0) (fun t =>
    ends t .invalidLength 0 0 && t.cmdBuf.count = 3) = true := by decide +kernel

/-- K-B11, for the other buffer. -/
theorem test_buf_clear : runs (holding [1, 2, 3] State.reset) (.bufClear 0) (fun t =>
    ends t .ok 3 0 && t.content .cmd = []) = true := by decide +kernel

/-- S-S2, the second bit. -/
theorem test_scr_bit : runs State.reset (.scrBit 0) (fun t => ends t .ok 1 0 && t.scrTx = 0x10F) = true ∧
    runs State.reset (.scrBit 1) (fun t => ends t .ok 1 0 && t.scrTx = 0x00F) = true := by decide +kernel

/-- S-S4. -/
theorem test_descr_bit : runs State.reset (.descrBit 1) (fun t => ends t .ok 1 0 && t.scrRx = 0x1F0) = true ∧
    runs State.reset (.descrBit 0) (fun t => ends t .ok 0 0 && t.scrRx = 0x0F8) = true := by decide +kernel

/-- S-K4. -/
theorem test_scr_block : runs (start [(0, hello.tail)] 0 5 0x10 0) .scrBlock (fun t =>
    ends t .ok 5 0 && t.memRead 0x10 5 = [0x43, 0xD9, 0x33, 0xEB, 0x0A]) = true := by decide +kernel

/-- S-K4, the second column. -/
theorem test_descr_block : runs (start [(0, [0x43, 0xD9, 0x33, 0xEB, 0x0A])] 0 5 0x10 0) .descrBlock (fun t =>
    ends t .ok 5 0 && t.memRead 0x10 5 = hello.tail) = true := by decide +kernel

/-- R-E1. -/
theorem test_rs_encode : runs (start [(0, count13)] 0 13 13 0) (.rsEncode 2) (fun t =>
    ends t .ok 2 0 && t.memRead 13 2 = [0xF0, 0xF1]) = true := by decide +kernel

/-- R-E6 and R-E7. -/
theorem test_rs_encode_refused :
    runs (start [] 0 13 13 0) (.rsEncode 3) (fun t => ends t .invalidParam 0 0) = true ∧
    runs (start [] 0 254 13 0) (.rsEncode 2) (fun t => ends t .invalidLength 0 0) = true := by decide +kernel

/-- R-D2, in place as in R-D11. -/
theorem test_rs_decode : runs (start [(0, 0 :: (count13.tail ++ [0xF0, 0xF1]))] 0 13 0 0) (.rsDecode 2) (fun t =>
    ends t .ok 1 0 && t.memRead 0 15 = count13 ++ [0xF0, 0xF1]) = true := by decide +kernel

/-- R-D9 and R-D10. -/
theorem test_rs_decode_uncorrectable :
    runs (start [(0, [0x00, 0x07, 0x06])] 0 1 0 0) (.rsDecode 2) (fun t => ends t .uncorrectable 0 0) = true ∧
    runs (start [(0, [0x00, 0x01, 0x01])] 0 1 0 0) (.rsDecode 2) (fun t => ends t .uncorrectable 0 0) = true := by
  decide +kernel

/-- H-C4. -/
theorem test_crc_calc : runs (start [(0, hello.tail)] 0 5 0 0) .crcCalc (fun t =>
    ends t .ok 0x54491D36 0x49D6) = true := by decide +kernel

/-- H-V3. -/
theorem test_crc_verify : runs (start [(0, hello.tail)] 0 5 0 0xD4C99DB6) .crcVerify (fun t =>
    ends t .ok 1 0 && t.result2 = 0x49D649D6) = true := by decide +kernel

/-- H-V5. -/
theorem test_crc_verify_mismatch : runs (start [(0, hello.tail)] 0 5 0 0x54491D35) .crcVerify (fun t =>
    ends t .crcMismatch 0 0 && t.result2 = 0x49D549D6 && t.status.crcBad) = true := by decide +kernel

/-- F-H3. -/
theorem test_hdr_build : runs (start [] 0 0 0x30 239) .hdrBuild (fun t => ends t .ok 13 0 &&
    t.memRead 0x30 13 = [0, 0, 0, 0, 0x80, 0x80, 0x80, 0, 0x80, 0x80, 0x80, 0x80, 0]) = true := by decide +kernel

/-- F-H5. -/
theorem test_hdr_parse : runs (start [(0, [0, 0, 0x80, 0, 0x80, 0, 0x80, 0, 0x80, 0, 0x80, 0, 0])] 0 0 0 0) .hdrParse
    (fun t => ends t .ok 682 0) = true := by decide +kernel

/-- F-E1. -/
theorem test_fc_encode : runs (start [(0, hello)] 0 6 0x100 0) .fcEncode (fun t =>
    ends t .ok 44 0x54541325 && t.result2 = 0x4435 && t.memRead 0x100 44 = helloFrame && readReg t .fcStage = 7) =
    true := by decide +kernel

/-- F-D2. -/
theorem test_fc_decode : runs (start [(0x100, helloFrame.set 19 0x42)] 0x100 44 0x200 0) .fcDecode (fun t =>
    ends t .ok 6 0x100 && t.result2 = 0x44354435 && t.memRead 0x200 6 = hello && readReg t .fcStage = 0x70) = true := by
  decide +kernel

/-- F-D5: the strict policy discards. -/
theorem test_fc_decode_strict :
    runs { start [(0x100, helloFrame.set 40 0x57)] 0x100 44 0x200 0 with crcStrict := true } .fcDecode (fun t =>
      ends t .crcMismatch 0 0 && !t.status.crcBad && readReg t .fcStage = 0x80) = true := by decide +kernel

/-- A-C1 and A-C2: elapsed 1000 does not suffice, 1001 does, across the wrap of the timestamp. -/
theorem test_arb_step_settle :
    runs (arbiter .assessing true 0xFFFFFF00 0x2E8 0xFF9C) (.arbStep 1) (fun t => ends t .channelBusy 1 0) = true ∧
    runs (arbiter .assessing true 0xFFFFFF00 0x2E9 0xFF9C) (.arbStep 1) (fun t => ends t .ok 2 0) = true := by
  decide +kernel

/-- A-C3 and A-C4: one above the threshold is busy, equal to it is clear. -/
theorem test_arb_step_threshold :
    runs (arbiter .assessing true 100 500 0xFFA7) (.arbStep 1) (fun t =>
      ends t .channelBusy 1 0 && !t.arb.clearValid && t.arb.lastBusy = 500) = true ∧
    runs (arbiter .assessing true 100 500 0xFFA6) (.arbStep 1) (fun t =>
      ends t .channelBusy 1 0 && t.arb.clearValid) = true := by decide +kernel

/-! ### Witnesses: states and operands that meet the hypotheses of the statements -/

theorem witness_RowsByMaskAndMatch : (decode 0x00000212 = .ok (.findFrame 2)) ∧
    (0x00000212 : Word) &&& rowMask (Instr.findFrame 0).immKind = rowMatch (.findFrame 0) ∧
    (0x00000212 : Word) &&& rowMask (Instr.findFrame 9).immKind = rowMatch (.findFrame 9) := ⟨rfl, by decide, by decide⟩

theorem witness_PowerOnRegisters : paramsValid p0 = true := by decide +kernel

theorem based_valid : paramsValid based.cfg = true := by decide +kernel

/-- No command's word has a reserved bit, the opcode 02, or an immediate beside the opcode 10. -/
theorem illegal_words (i : Instr) : encode i ≠ 0x00010000 ∧ encode i ≠ 0x00000002 ∧ encode i ≠ 0x00000110 := by
  obtain ⟨ho, hi, hr⟩ : opcField (encode i) = i.opcode ∧ immField (encode i) = i.imm8 ∧ rsvField (encode i) = 0 :=
    Sys2Proof.Laws.fields_of_word i.opcode i.imm8
  refine ⟨fun h => ?_, fun h => ?_, fun h => ?_⟩ <;> rw [h] at ho hi hr
  · exact absurd hr (by decide)
  · cases i <;> exact absurd ho (by simp only [Instr.opcode]; decide)
  · cases i <;> first | exact absurd ho (by simp only [Instr.opcode]; decide) | exact absurd hi (by decide)

theorem witness_IllegalWordReported : ∀ w ∈ [(0x00010000 : Word), 0x00000002, 0x00000110],
    paramsValid (waiting (.write 4 0x000 w) State.reset).cfg = true ∧
      (waiting (.write 4 0x000 w) State.reset).port.pending = [.write 4 0x000 w] ∧ ∀ i, w ≠ encode i := by
  intro w hw
  refine ⟨witness_PowerOnRegisters, rfl, fun i h => ?_⟩
  obtain ⟨h1, h2, h3⟩ := illegal_words i
  subst h
  simp only [List.mem_cons, List.not_mem_nil, or_false] at hw
  exact hw.elim h1 fun hw => hw.elim h2 h3

theorem witness_StepRunsDecodedCommand :
    paramsValid (waiting (.write 4 (based.cfg.blockBase + 0x000) 0x350) based).cfg = true ∧
      (waiting (.write 4 (based.cfg.blockBase + 0x000) 0x350) based).port.pending =
        [.write 4 (based.cfg.blockBase + 0x000) 0x350] ∧
      decode 0x350 = .ok (.arbStep 3) ∧
      (waiting (.write 4 (based.cfg.blockBase + 0x000) 0x110) based).port.pending =
        [.write 4 (based.cfg.blockBase + 0x000) 0x110] ∧
      decode 0x110 = .error .immediateNotZero := ⟨based_valid, rfl, rfl, rfl, rfl⟩

/-- The first value past each kind, as the statement on every command and the clauses on single ones take it. -/
theorem witness_ImmediateOutsideKind : 1 < (2 : Byte).toNat ∧ (3 : Byte).toNat ∉ parityCounts ∧
    (17 : Byte).toNat ∉ parityCounts ∧ 3 < (4 : Byte).toNat ∧ (Instr.bufWrite 2).wf = false ∧ (Instr.rsDecode 17).wf = false ∧
    (Instr.scrBit 2).wf = false ∧ (Instr.arbStep 4).wf = false := by decide

/-- The last register, the first offset past it, both ends of LMEM, the address below the block; and an aligned word
that runs past the end of an LMEM of 1026 bytes (log 19). -/
theorem witness_AccessStepsExactlyWhenPermitted :
    paramsValid (waiting (.read 4 0x40000054) based).cfg = true ∧
      (waiting (.read 4 0x40000054) based).port.pending = [.read 4 0x40000054] ∧
      accessPermitted based.cfg 4 0x40000054 ∧ ¬accessPermitted based.cfg 4 0x40000058 ∧
      ¬accessPermitted based.cfg 1 0x40000FFF ∧ accessPermitted based.cfg 1 0x40001000 ∧
      accessPermitted based.cfg 4 0x40001FFC ∧ accessPermitted based.cfg 1 0x40001FFF ∧
      ¬accessPermitted based.cfg 4 0x40001FFE ∧ ¬accessPermitted based.cfg 1 0x40002000 ∧
      ¬accessPermitted based.cfg 2 0x40001000 ∧ ¬accessPermitted based.cfg 4 0x3FFFFFFC ∧
      ¬accessPermitted { p0 with lmemSize := 1026 } 4 0x1400 := by
  unfold accessPermitted offsetPermitted
  refine ⟨based_valid, rfl, ?_, ?_, ?_, ?_, ?_, ?_, ?_, ?_, ?_, ?_, ?_⟩ <;> decide

theorem witness_HostRead : paramsValid based.cfg = true ∧
    (waiting (.read 4 (based.cfg.blockBase + regOffset .bufCap)) based).port.pending =
      [.read 4 (based.cfg.blockBase + regOffset .bufCap)] ∧
    4095 < based.cfg.lmemSize ∧
    (waiting (.read 1 (based.cfg.blockBase + (0x1000 + 4095))) based).port.pending =
      [.read 1 (based.cfg.blockBase + (0x1000 + 4095))] ∧
    4092 % 4 = 0 ∧ 4092 + 4 ≤ based.cfg.lmemSize ∧
    (waiting (.read 4 (based.cfg.blockBase + (0x1000 + 4092))) based).port.pending =
      [.read 4 (based.cfg.blockBase + (0x1000 + 4092))] :=
  ⟨based_valid, rfl, by decide, rfl, rfl, by decide, rfl⟩

theorem witness_HostWriteToLmem : paramsValid based.cfg = true ∧
    4095 < based.cfg.lmemSize ∧
    (waiting (.write 1 (based.cfg.blockBase + (0x1000 + 4095)) 7) based).port.pending =
      [.write 1 (based.cfg.blockBase + (0x1000 + 4095)) 7] ∧
    4092 % 4 = 0 ∧ 4092 + 4 ≤ based.cfg.lmemSize ∧
    (waiting (.write 4 (based.cfg.blockBase + (0x1000 + 4092)) 7) based).port.pending =
      [.write 4 (based.cfg.blockBase + (0x1000 + 4092)) 7] := ⟨based_valid, by decide, rfl, rfl, by decide, rfl⟩

theorem witness_ReservedBitsAndReadOnlyRegisters : paramsValid based.cfg = true ∧ Reg.config ≠ .cmd ∧
    (0xFFFFFFFF : Word) &&& fieldMask based.cfg .config = 0x1 &&& fieldMask based.cfg .config ∧
    (waiting (.write 4 (based.cfg.blockBase + regOffset .config) 0xFFFFFFFF) based).port.pending =
      [.write 4 (based.cfg.blockBase + regOffset .config) 0xFFFFFFFF] ∧
    Reg.status ∈ readOnlyRegs ∧
    (waiting (.write 4 (based.cfg.blockBase + regOffset .status) 7) based).port.pending =
      [.write 4 (based.cfg.blockBase + regOffset .status) 7] :=
  ⟨based_valid, by decide, by decide, rfl, by decide, rfl⟩

theorem witness_WritableRegistersReadBack : Reg.scrTxState ∈ readWriteRegs ∧ paramsValid based.cfg = true ∧
    (waiting (.write 4 (based.cfg.blockBase + regOffset .scrTxState) 0xFFFFFFFF) based).port.pending =
      [.write 4 (based.cfg.blockBase + regOffset .scrTxState) 0xFFFFFFFF] := ⟨by decide, based_valid, rfl⟩

theorem witness_FlagsWriteOneToClear : paramsValid based.cfg = true ∧
    (waiting (.write 4 (based.cfg.blockBase + 0x008) 1) based).port.pending =
      [.write 4 (based.cfg.blockBase + 0x008) 1] ∧
    (1 : Word).getLsbD 0 = true ∧ (1 : Word).getLsbD 1 = false ∧
    (2 : Word).getLsbD 0 = false ∧ (2 : Word).getLsbD 1 = true :=
  ⟨based_valid, rfl, by decide, by decide, by decide, by decide⟩

theorem witness_StepWithoutAnAccess : paramsValid State.reset.cfg = true ∧ State.reset.port.pending = [] := by
  decide +kernel

/-- The source region one byte past LMEM, and just inside it. -/
theorem witness_BufWriteResult :
    (bufWf (bufCap State.reset.cfg .cmd) (State.reset.buf .cmd) ∧ ¬regionOk p0 (4095 : Word).toNat (2 : Word).toNat) ∧
    regionOk p0 (4094 : Word).toNat (2 : Word).toNat := by decide +kernel

/-- A buffer of 3 bytes: one byte too many, the destination outside LMEM, everything inside. -/
theorem witness_BufPeekResult :
    ¬1 + 3 ≤ ((holding [1, 2, 3] (start [] 1 3 0 0)).buf .cmd).count ∧
    (1 + 2 ≤ ((holding [1, 2, 3] (start [] 1 2 4095 0)).buf .cmd).count ∧ ¬regionOk p0 4095 2) ∧
    (1 + 2 ≤ ((holding [1, 2, 3] (start [] 1 2 4094 0)).buf .cmd).count ∧ regionOk p0 4094 2) := by decide +kernel

theorem witness_BufPopResult : ¬4 ≤ ((holding [1, 2, 3] (start [] 0 4 0 0)).buf .cmd).count ∧
    3 ≤ ((holding [1, 2, 3] (start [] 0 3 0 0)).buf .cmd).count := by decide +kernel

/-- The reset state with a byte in the command buffer is a good state. -/
theorem witness_Inv : (holding [0xC0] State.reset).Inv :=
  ⟨by decide +kernel, by decide +kernel, by decide +kernel, by decide +kernel, by decide +kernel, by decide +kernel,
    .inl rfl⟩

/-- BUF_WRITE of one byte behind another, and BUF_POP of one byte of three. -/
theorem witness_NoCommandOverwritesContent :
    ((holding [0xC0] (start [(0, [7])] 0 1 0 0)).Inv ∧
      ∃ t, exec (.bufWrite 0) (holding [0xC0] (start [(0, [7])] 0 1 0 0)) = .next t ∧ t.content .cmd = [0xC0, 7]) ∧
    (holding [1, 2, 3] (start [] 0 1 0 0)).Inv ∧ (∀ imm, Instr.bufPop 0 ≠ .bufWrite imm) ∧
      ∃ t, exec (.bufPop 0) (holding [1, 2, 3] (start [] 0 1 0 0)) = .next t ∧ t.content .cmd = [2, 3] :=
  ⟨⟨⟨witness_PowerOnRegisters, by decide +kernel, by decide +kernel, by decide +kernel, by decide +kernel,
      by decide +kernel, .inl rfl⟩, _, rfl, by decide +kernel⟩,
    ⟨witness_PowerOnRegisters, by decide +kernel, by decide +kernel, by decide +kernel, by decide +kernel,
      by decide +kernel, .inl rfl⟩, by simp, _, rfl, by decide +kernel⟩

theorem witness_FoundFrameIsDelimited :
    findFrame 64 [0x11, 0xC0, 0xC0, 0x09, 0xC0] = { length := some 3, disc := 2 } := by decide +kernel

/-- A partial frame, noise alone, and a partial frame that fills the buffer. -/
theorem witness_NoFrameMeansNoClosingDelimiter :
    ([0x11, 0xC0, 0xC0, 0x09] : Bytes).length ≤ 5 ∧
      findFrame 5 [0x11, 0xC0, 0xC0, 0x09] = { length := none, disc := 2 } ∧
      findFrame 5 [0x55, 0x66] = { length := none, disc := 2 } ∧
      findFrame 5 [0xC0, 1, 1, 1, 1] = { length := none, disc := 5 } := by decide +kernel

theorem witness_FindFrameRobust : fend ∉ ([0x11, 0x22] : Bytes) ∧ 1 ≤ 3 ∧ (0x09 : Byte) ≠ fend ∧
    fend ∉ ([0x41] : Bytes) ∧ ([0x11, 0x22] : Bytes).length + 3 + ([0x41] : Bytes).length + 2 ≤ 8 := by decide

/-- Source outside LMEM, destination outside LMEM, both inside, at the last byte. -/
theorem witness_KissEscapeResult :
    ¬regionOk p0 (start [] 4090 7 0 0).arg0.toNat (start [] 4090 7 0 0).arg1.toNat ∧
    (regionOk p0 0 2 ∧ ¬regionOk p0 4091 (escape (lmemBytes (start [(0, [0xC0, 0xC0])] 0 2 4091 0).lmem 0 2)).length) ∧
    regionOk p0 4090 (escape (lmemBytes (start [(0, [0xC0, 0xC0])] 0 2 4090 0).lmem 0 2)).length := by decide +kernel

theorem witness_KissUnescapeResult :
    ¬regionOk p0 4090 7 ∧
    (regionOk p0 0 3 ∧ unescape (lmemBytes (start [(0, [0xC0, 1, 0xDB])] 0 3 0 0).lmem 0 3) = none) ∧
    (unescape (lmemBytes (start [(0, [1, 2])] 0 2 0 0).lmem 0 2) = some { out := [1, 2], noTrailer := true, used := 2 } ∧
      ¬regionOk p0 4095 2 ∧ regionOk p0 4094 2) := by decide +kernel

theorem witness_BitFunctionsAtP0 : (0x1FF : Word).toNat < 2 ^ 9 := by decide

theorem witness_BitCommandResults : State.reset.scrTx.toNat < 2 ^ State.reset.cfg.scrWidth ∧
    State.reset.scrRx.toNat < 2 ^ State.reset.cfg.scrWidth ∧ paramsValid State.reset.cfg = true := by decide +kernel

/-- Length 0, source outside, destination outside, both inside. -/
theorem witness_BlockCommandResults :
    paramsValid (start [] 0 0 0 0).cfg = true ∧ (start [] 0 0 0 0).arg1.toNat = 0 ∧
    (1 ≤ (start [] 4095 2 0 0).arg1.toNat ∧ ¬regionOk p0 4095 2) ∧
    (1 ≤ (start [] 0 1 4096 0).arg1.toNat ∧ regionOk p0 0 1 ∧ ¬regionOk p0 4096 1) ∧
    (1 ≤ (start [] 0 1 4095 0).arg1.toNat ∧ regionOk p0 0 1 ∧ regionOk p0 4095 1) := by decide +kernel

theorem witness_DescramblerSelfSynchronises : (0x1F0 : Word).toNat < 2 ^ 9 ∧ 9 ≤ 9 ∧
    9 < (List.replicate 10 true).length := by decide

theorem witness_ScramblerRoundTrip : 1 ≤ ([0x48] : Bytes).length := by decide

theorem witness_CodewordDecodesToItself : 16 ∈ parityCounts ∧ 1 ≤ (List.replicate 239 (0x5A : Byte)).length ∧
    (List.replicate 239 (0x5A : Byte)).length + 16 ≤ 255 := by decide +kernel

theorem witness_SingleSymbolCorrected : 1 ≤ (List.replicate 253 (0x5A : Byte)).length ∧
    (List.replicate 253 (0x5A : Byte)).length + 2 ≤ 255 ∧ 254 < (List.replicate 253 (0x5A : Byte)).length + 2 ∧
    (0x80 : Byte) ≠ 0 := by decide +kernel

/-- The length out of range, source outside, destination outside, all inside. -/
theorem witness_RsEncodeResult :
    (2 ∈ parityCounts ∧ ¬(1 ≤ (start [] 0 254 0 0).arg1.toNat ∧ (start [] 0 254 0 0).arg1.toNat + 2 ≤ 255)) ∧
    ((1 ≤ 253 ∧ 253 + 2 ≤ 255) ∧ ¬regionOk p0 4095 253) ∧
    (regionOk p0 3843 253 ∧ ¬regionOk p0 4095 2) ∧ regionOk p0 4094 2 := by decide +kernel

/-- The length out of range, source outside, uncorrectable, destination outside, all inside. -/
theorem witness_RsDecodeResult :
    (2 ∈ parityCounts ∧ ¬(1 ≤ (start [] 0 0 0 0).arg1.toNat ∧ (start [] 0 0 0 0).arg1.toNat + 2 ≤ 255)) ∧
    ((1 ≤ 1 ∧ 1 + 2 ≤ 255) ∧ ¬regionOk p0 4094 3) ∧
    (regionOk p0 0 3 ∧ rsDecode p0 2 (lmemBytes (start [(0, [0, 7, 6])] 0 1 0 0).lmem 0 3) = none) ∧
    (rsDecode p0 2 (lmemBytes (start [(0, [0, 1, 2])] 0 1 4094 0).lmem 0 3) = some (0, [0, 1, 2]) ∧
      ¬regionOk p0 4094 3 ∧ regionOk p0 4093 3) := by decide +kernel

theorem witness_HamDecodeIsNearest : hamDistance p0 0x70 1 = hamDistance p0 0x70 (hamDecode p0 0x70) := by
  decide +kernel

/-- One bit changed in each byte of H-C6. -/
theorem witness_OneBitPerCrcByteIsCorrected : paramsValid p0 = true ∧ ∀ i < 4, popcount (crcCodeByte 0xD4551B24 i ^^^
    crcCodeByte (crcCalculate p0 [0x43, 0xD9, 0x33, 0xEB, 0x0A]) i) ≤ 1 := by decide +kernel

theorem witness_CrcCommandResults :
    ¬regionOk p0 4090 7 ∧
    (regionOk p0 0 5 ∧ crcDecode p0 0x54491D36 = crc16 p0 (lmemBytes (start [(0, hello.tail)] 0 5 0 0).lmem 0 5)) ∧
    crcDecode p0 0x54491D35 ≠ crc16 p0 (lmemBytes (start [(0, hello.tail)] 0 5 0 0).lmem 0 5) := by decide +kernel

theorem witness_HeaderLengthField : paramsValid p0 = true ∧ 1023 ≤ 1023 ∧
    ∀ j : Fin 10, p0.hdrLenPos.get j ≠ (0, 7) := by decide +kernel

theorem witness_HeaderCommandResults :
    1023 < (start [] 0 0 0 1024).arg3.toNat ∧
    ((start [] 0 0 4084 1023).arg3.toNat ≤ 1023 ∧ ¬regionOk p0 4084 13) ∧
    (regionOk p0 4083 13 ∧ regionOk p0 (start [] 4083 0 0 0).arg0.toNat 13) := by decide +kernel

theorem witness_EncodedFrameLayout : paramsValid p0 = true ∧ 1 ≤ ([0x48] : Bytes).length ∧ (List.replicate 239 (1 : Byte)).length ≤ 239 := by
  decide +kernel

/-- The length out of range, source outside, destination outside, all inside. -/
theorem witness_FcEncodeResult : paramsValid (start [] 0 1 0 0).cfg = true ∧
    ¬(2 ≤ (start [] 0 1 0 0).arg1.toNat ∧ (start [] 0 1 0 0).arg1.toNat ≤ 240) ∧
    ¬(2 ≤ (start [] 0 241 0 0).arg1.toNat ∧ (start [] 0 241 0 0).arg1.toNat ≤ 240) ∧
    ((2 ≤ 240 ∧ 240 ≤ 240) ∧ ¬regionOk p0 3857 240) ∧
    (regionOk p0 3856 240 ∧ ¬regionOk p0 3819 (38 + 240)) ∧ regionOk p0 3818 (38 + 240) :=
  ⟨witness_PowerOnRegisters, by decide⟩

/-- Source outside, a discarded frame, destination outside, a delivered frame. -/
theorem witness_FcDecodeResult :
    ¬regionOk p0 4096 1 ∧
    (regionOk p0 4096 0 ∧
      fcDecode p0 (lmemBytes (start [] 4096 0 0 0).lmem 4096 0) false matches .error .frameLength) ∧
    ((fcDecode p0 (lmemBytes (start [(0x100, helloFrame)] 0x100 44 4091 0).lmem 0x100 44) false).toOption.map
        (fun d => d.payload.length) = some 5 ∧ ¬regionOk p0 4091 (1 + 5) ∧ regionOk p0 4090 (1 + 5)) := by
  decide +kernel

/-- An encoded header that carries the length `n`. -/
def header (n : Nat) : Bytes :=
  let hs := scrambleBlock p0 (hdrBuild p0 n)
  hs ++ rsParity p0 2 hs

/-- A frame with header length `n` and `rest` zero bytes behind the header: zero data has zero parity. -/
def zeroFrame (n rest : Nat) : Bytes := [0x42, 0xF1, 0x5E, 0x48] ++ header n ++ List.replicate rest 0

/-- The code of a discarded frame, none for a delivered one. -/
def discardCode (w : Bytes) (strict : Bool) : Option ResultCode :=
  match fcDecode p0 w strict with
  | .ok _ => none
  | .error code => some code

/-- 18 and 19 bytes with a good header, 19 bytes with a header that cannot be corrected. -/
theorem witness_FcDecodeHeader :
    ((zeroFrame 1 0).take 18).length < 19 ∧ discardCode ((zeroFrame 1 0).take 18) false = some .frameLength ∧
    19 ≤ (zeroFrame 1 0).length ∧
    (rsDecode p0 2 (((zeroFrame 1 0).drop 4).take 15)).map Prod.fst = some 0 ∧
    discardCode (zeroFrame 1 0) false = some .frameLength ∧
    19 ≤ (List.replicate 17 0 ++ [(1 : Byte), 1]).length ∧
    rsDecode p0 2 (((List.replicate 17 0 ++ [1, 1]).drop 4).take 15) = none ∧
    discardCode (List.replicate 17 0 ++ [1, 1]) false = some .headerUncorrectable := by decide +kernel

/-- Payload lengths 0, 1, 239 and 240, and 38 + N and 39 + N bytes. -/
theorem witness_FcDecodeLength :
    [0, 1, 239, 240].map (fun n => hdrParse p0 (descrambleBlock p0 ((header n).take 13))) = [0, 1, 239, 240] ∧
    [0, 1, 239, 240].map (fun n => (zeroFrame n (20 + n)).length) = [39, 40, 278, 279] ∧
    discardCode (zeroFrame 0 20) false = some .frameLength ∧ discardCode (zeroFrame 240 260) false = some .frameLength ∧
    discardCode (zeroFrame 1 20) false = some .frameLength ∧ discardCode (zeroFrame 1 21) false = none ∧
    discardCode (zeroFrame 239 258) false = some .frameLength := by decide +kernel

/-- The longest payload, with every byte there. -/
theorem witness_FcDecodeLongest : 39 + 239 ≤ (zeroFrame 239 259).length ∧
    (rsDecode p0 16 (((zeroFrame 239 259).drop 19).take (239 + 16))).map Prod.fst = some 0 := by decide +kernel

/-- A payload that cannot be corrected, and a CRC of zeros that does not verify, under both policies. -/
theorem witness_FcDecodePayload :
    discardCode (zeroFrame 1 0 ++ List.replicate 21 0xFF) false = some .payloadUncorrectable ∧
    crcDecode p0 0 ≠ crc16 p0 [0] ∧ discardCode (zeroFrame 1 21) true = some .crcMismatch ∧
    discardCode (zeroFrame 1 21) false = none := by decide +kernel

theorem witness_CrcPolicy :
    (fcDecode p0 (helloFrame.set 40 0x57) false).toOption.map (fun d => d.crcOk) = some false ∧
    (fcDecode p0 helloFrame false).toOption.map (fun d => d.crcOk) = some true ∧
    fcDecode p0 [] false matches .error .frameLength := by decide +kernel

theorem witness_EncodeDecodeRoundTrip : 1 ≤ ([0x48] : Bytes).length ∧ ([0x48] : Bytes).length ≤ 239 ∧
    1 ≤ (List.replicate 239 (1 : Byte)).length ∧ (List.replicate 239 (1 : Byte)).length ≤ 239 := by decide +kernel

/-- Every clause of ARB_STEP: the modes, a sample one above and equal to the threshold, elapsed 1000 and 1001. -/
theorem witness_ArbStepResult :
    State.reset.arb.mode = .receiving ∧
    (arbiter .assessing true 20 1020 0xFFA7).arb.mode = .assessing ∧
    ¬((0xFFA7 : Word).extractLsb' 0 16).toInt ≤ (0xFFA6 : Half).toInt ∧
    ((0xFFA6 : Word).extractLsb' 0 16).toInt ≤ (0xFFA6 : Half).toInt ∧
    (arbiter .assessing false 20 1020 0xFFA6).arb.clearValid = false ∧
    (arbiter .assessing true 20 1020 0xFFA6).arb.clearValid = true ∧
    ((1020 : Word) - 20).toNat ≤ p0.settleTicks.toNat ∧ p0.settleTicks.toNat < ((1021 : Word) - 20).toNat ∧
    (arbiter .transmitting false 20 1500 0xFFCE).arb.mode = .transmitting := by decide +kernel

theorem witness_TransmitOnlyAfterSettling : ∃ t,
    exec (.arbStep 1) (arbiter .assessing true 20 1021 0xFF9C) = .next t ∧ t.arb.mode = .transmitting ∧
      (arbiter .assessing true 20 1021 0xFF9C).arb.mode ≠ .transmitting := ⟨_, rfl, by decide +kernel, by decide⟩

theorem witness_ErrorsLeaveNothingBehind : ∃ t,
    exec .crcCalc (start [] 4096 1 0 0) = .next t ∧ silentError t.status.code = true := ⟨_, rfl, by decide +kernel⟩

theorem witness_CommandsKeepHostSettings : ∃ t, exec .nop State.reset = .next t ∧ Instr.nop ≠ .softReset :=
  ⟨_, rfl, by decide⟩

/-- NOP is none of the commands that a clause excepts. -/
theorem witness_UnitStateWrittenOnlyByItsCommands : ∃ t, exec .nop State.reset = .next t ∧ Instr.nop ≠ .softReset ∧
    (∀ imm, Instr.nop ≠ .arbStep imm) ∧ (∀ imm, Instr.nop ≠ .scrBit imm) ∧ (∀ imm, Instr.nop ≠ .descrBit imm) ∧
    Instr.nop ≠ .fcEncode ∧ Instr.nop ≠ .fcDecode ∧ (∀ imm, Instr.nop ≠ .bufWrite imm) ∧
    (∀ imm, Instr.nop ≠ .bufWrite imm ∧ Instr.nop ≠ .bufPop imm ∧ Instr.nop ≠ .bufClear imm ∧
      Instr.nop ≠ .findFrame imm) := ⟨_, rfl, by simp⟩

/-- A command that stores nothing, one that fails, one that stores 13 bytes from 0x30 on. -/
theorem witness_LmemChangesOnlyAtTheDestination :
    (storesNothing .crcCalc = true ∧ ∃ t, exec .crcCalc (start [] 0 0 0x30 5) = .next t) ∧
    (∃ t, exec .hdrBuild (start [] 0 0 4084 5) = .next t ∧ t.status.code ≠ .ok) ∧
    (storesNothing .hdrBuild = false ∧
      (∃ t, exec .hdrBuild (start [] 0 0 0x30 5) = .next t ∧ t.status.code = .ok) ∧
      0x2F < (start [] 0 0 0x30 5).arg2.toNat ∧
      (start [] 0 0 0x30 5).arg2.toNat + (outputBytes .hdrBuild (start [] 0 0 0x30 5)).length ≤ 0x3D ∧
      (start [] 0 0 0x30 5).cfg.lmemSize ≤ 4096) :=
  ⟨⟨rfl, _, rfl⟩, ⟨_, rfl, by decide +kernel⟩, rfl, ⟨_, rfl, by decide +kernel⟩, by decide +kernel, by decide +kernel,
    by decide +kernel⟩

theorem witness_StepKeepsInvariant : (holding [0xC0] State.reset).Inv ∧
    ∃ t, step (holding [0xC0] State.reset) = .next t := ⟨witness_Inv, holding [0xC0] State.reset, by
  rw [step, if_pos (by decide +kernel)]; rfl⟩

end Sys2Proof.Tests
end

section
/-! What ends a step. A command always completes, a host access answers a next state or a refusal, and so the
only fault is that of `step` itself, on broken parameters (00_scope.md R10; 60_exceptions.md R284). -/

namespace Sys2Proof.Machine

/-! ### Commands complete -/

/-- Each arm of `exec` is by definition `command` around a rule of its own, and `command` answers the state that
rule reaches, whatever it is (`command_eq`; 60_exceptions.md R270, R284). -/
theorem exec_completes (i : Instr) (s : State) : ∃ t, exec i s = .next t := by
  cases i <;> exact ⟨_, rfl⟩

theorem execWord_of_decode_ok {w : Word} {i : Instr} (h : decode w = .ok i) (s : State) :
    execWord w s = exec i s := by
  simp only [execWord, h]

theorem execWord_of_decode_error {w : Word} {e : DecodeError} (h : decode w = .error e) (s : State) :
    execWord w s = .next (s.prologue.finish .illegalCommand) := by
  simp only [execWord, h, command_eq]

theorem execWord_completes (w : Word) (s : State) : ∃ t, execWord w s = .next t := by
  cases h : decode w with
  | ok i =>
    rw [execWord_of_decode_ok h]
    exact exec_completes i s
  | error e => exact ⟨_, execWord_of_decode_error h s⟩

/-! ### Host accesses do not fault -/

theorem writeReg_cmd (v : Word) (s : State) : writeReg .cmd v s = execWord v { s with cmd := v } :=
  if_pos rfl

theorem writeReg_of_ne_cmd {r : Reg} (h : r ≠ .cmd) (v : Word) (s : State) :
    writeReg r v s = .next (writePlainReg s v r) :=
  if_neg h

theorem writeReg_completes (r : Reg) (v : Word) (s : State) : ∃ t, writeReg r v s = .next t := by
  by_cases h : r = .cmd
  · rw [h, writeReg_cmd]
    exact execWord_completes v _
  · exact ⟨_, writeReg_of_ne_cmd h v s⟩

theorem hostRead_ne_fault (width address : Nat) (s : State) (f : Fault) :
    hostRead width address s ≠ .fault f := by
  unfold hostRead
  cases accessTarget s.cfg width address <;> exact nofun

theorem hostWrite_ne_fault (width address : Nat) (v : Word) (s : State) (f : Fault) :
    hostWrite width address v s ≠ .fault f := by
  unfold hostWrite
  cases accessTarget s.cfg width address with
  | reg r =>
    obtain ⟨t, ht⟩ := writeReg_completes r v s
    exact ne_of_eq_of_ne ht nofun
  | lmemByte a => exact nofun
  | lmemWord a => exact nofun
  | refused why => exact nofun

theorem hostAccess_ne_fault (a : HostAccess) (s : State) (f : Fault) : hostAccess a s ≠ .fault f :=
  match a with
  | .read width address => hostRead_ne_fault width address s f
  | .write width address value => hostWrite_ne_fault width address value s f

/-! ### One step -/

theorem hostStep_of_pending_nil {s : State} (h : s.port.pending = []) : hostStep s = .next s := by
  simp only [hostStep, h]

theorem hostStep_of_pending_cons {s : State} {a : HostAccess} {rest : List HostAccess}
    (h : s.port.pending = a :: rest) : hostStep s = hostAccess a s.dropAccess := by
  simp only [hostStep, h]

theorem hostStep_ne_fault (s : State) (f : Fault) : hostStep s ≠ .fault f := by
  cases h : s.port.pending with
  | nil => exact ne_of_eq_of_ne (hostStep_of_pending_nil h) nofun
  | cons a rest =>
    rw [hostStep_of_pending_cons h]
    exact hostAccess_ne_fault a _ f

theorem step_of_valid {s : State} (h : paramsValid s.cfg = true) : step s = hostStep s :=
  if_pos h

theorem step_of_invalid {s : State} (h : paramsValid s.cfg = false) : step s = .fault .parameterConstraint :=
  if_neg (Bool.eq_false_iff.1 h)

/-- The parameter check is the one source of faults (00_scope.md R10; log 2). -/
theorem step_faults_iff (s : State) : step s = .fault .parameterConstraint ↔ paramsValid s.cfg = false := by
  refine ⟨fun hfault => ?_, step_of_invalid⟩
  by_contra hparams
  rw [step_of_valid (Bool.eq_true_of_not_eq_false hparams)] at hfault
  exact hostStep_ne_fault s _ hfault

end Sys2Proof.Machine
end

section
/-! The obligations of 00_scope.md. -/

namespace Sys2Proof.Proofs

open Sys2Proof.Machine

/-- Settles O14: the parameter check is the only source of faults, and on an empty queue the block waits. -/
theorem stepWithoutAnAccess : Obligations.StepWithoutAnAccess := by
  intro s
  refine ⟨step_faults_iff s, fun hparams hidle => ?_⟩
  calc step s = hostStep s := step_of_valid hparams
    _ = .next s := hostStep_of_pending_nil hidle

end Sys2Proof.Proofs
end

section
/-! What a host access does, said once: an access to a register's address reaches that register, and an access
that answers a next state is a read, a register write, or a write inside LMEM (20_memory.md R60 to R68). -/

namespace Sys2Proof.Machine

/-! ### Where an access goes -/

theorem regOffset_lt_regEnd (r : Reg) : regOffset r < regEnd := by
  cases r <;> decide

@[simp] theorem regAt_regOffset (r : Reg) : regAt (regOffset r) = some r := by
  cases r <;> rfl

theorem windowTarget_regOffset (c : Config) (r : Reg) : windowTarget c 4 (regOffset r) = .reg r := by
  simp [windowTarget, regOffset_lt_regEnd]

/-- A word access to the address of a register reaches it, whatever BLOCK_BASE is (20_memory.md R60). -/
theorem accessTarget_regOffset (c : Config) (r : Reg) :
    accessTarget c 4 (c.blockBase + regOffset r) = .reg r := by
  rw [accessTarget, if_neg (by omega), Nat.add_sub_cancel_left, windowTarget_regOffset]

/-- The LMEM bytes a target names lie below `size`. -/
def Target.InLmem (size : Nat) : Target → Prop
  | .reg _ => True
  | .lmemByte a => a + 1 ≤ size
  | .lmemWord a => a + 4 ≤ size
  | .refused _ => True

theorem windowTarget_inLmem (c : Config) (width offset : Nat) :
    (windowTarget c width offset).InLmem c.lmemSize := by
  unfold windowTarget
  split
  · split
    · trivial
    · split <;> trivial
  · split_ifs
    · trivial
    · simp only [Target.InLmem]; omega
    · trivial
    · trivial
    · trivial
    · simp only [Target.InLmem]; omega

theorem accessTarget_inLmem (c : Config) (width address : Nat) :
    (accessTarget c width address).InLmem c.lmemSize := by
  unfold accessTarget
  split
  · trivial
  · exact windowTarget_inLmem ..

/-! ### What an access can do -/

theorem hostRead_next {width address : Nat} {s t : State} (h : hostRead width address s = .next t) :
    ∃ v, t = s.observe v := by
  unfold hostRead at h
  split at h <;> cases h <;> exact ⟨_, rfl⟩

theorem hostWrite_next {width address : Nat} {v : Word} {s t : State} (h : hostWrite width address v s = .next t) :
    (∃ r, writeReg r v s = .next t) ∨
      ∃ a bytes, regionOk s.cfg a bytes.length ∧ t = s.memWrite a bytes := by
  have hin := accessTarget_inLmem s.cfg width address
  unfold hostWrite at h
  split at h
  case h_1 r _ => exact .inl ⟨r, h⟩
  case h_2 a heq =>
    rw [heq] at hin
    cases h
    exact .inr ⟨a, [v.extractLsb' 0 8], .inr hin, rfl⟩
  case h_3 a heq =>
    rw [heq] at hin
    cases h
    exact .inr ⟨a, wordBytes v, .inr hin, rfl⟩
  case h_4 => cases h

/-- A host access that answers a next state is a read, a register write, or a write inside LMEM. -/
theorem hostAccess_next {a : HostAccess} {s t : State} (h : hostAccess a s = .next t) :
    (∃ v, t = s.observe v) ∨ (∃ r v, writeReg r v s = .next t) ∨
      ∃ a bytes, regionOk s.cfg a bytes.length ∧ t = s.memWrite a bytes := by
  cases a with
  | read width address => exact .inl (hostRead_next h)
  | write width address v => exact .inr ((hostWrite_next h).imp_left fun ⟨r, hr⟩ => ⟨r, v, hr⟩)

/-! ### A step that writes a register -/

theorem dropAccess_of_pending {s : State} {a : HostAccess} {rest : List HostAccess}
    (h : s.port.pending = a :: rest) : s.dropAccess = { s with port := { s.port with pending := rest } } := by
  simp only [State.dropAccess, h, List.tail_cons]

/-- A word write to the address of a register is one step: the access taken, the register written. -/
theorem step_regWrite {s : State} {r : Reg} {v : Word} {rest : List HostAccess} (hparams : paramsValid s.cfg = true)
    (h : s.port.pending = .write 4 (s.cfg.blockBase + regOffset r) v :: rest) :
    step s = writeReg r v { s with port := { s.port with pending := rest } } := by
  have htarget : accessTarget s.dropAccess.cfg 4 (s.cfg.blockBase + regOffset r) = .reg r :=
    accessTarget_regOffset s.cfg r
  calc step s = hostStep s := step_of_valid hparams
    _ = hostWrite 4 (s.cfg.blockBase + regOffset r) v s.dropAccess := hostStep_of_pending_cons h
    _ = writeReg r v s.dropAccess := by simp only [hostWrite, htarget]
    _ = writeReg r v { s with port := { s.port with pending := rest } } := by rw [dropAccess_of_pending h]

/-- The step of `step_regWrite` for a register other than CMD, which runs no command. -/
theorem step_plainRegWrite {s : State} {r : Reg} {v : Word} {rest : List HostAccess} (hr : r ≠ .cmd)
    (hparams : paramsValid s.cfg = true) (h : s.port.pending = .write 4 (s.cfg.blockBase + regOffset r) v :: rest) :
    step s = .next (writePlainReg { s with port := { s.port with pending := rest } } v r) := by
  rw [step_regWrite hparams h, writeReg_of_ne_cmd hr]

end Sys2Proof.Machine
end

section
/-! The register words bit by bit: single-bit fields, the low bits of the scrambler registers, and how a host read
and a host write of a register act on its fields (10_state.md R24 to R41). -/

namespace Sys2Proof.Machine

/-! ### Fields of a word -/

@[simp] theorem getLsbD_flagAt (i : Nat) (b : Bool) (j : Nat) :
    (flagAt i b).getLsbD j = (decide (j < 32) && decide (j = i) && b) := by
  simp only [flagAt, BitVec.getLsbD_shiftLeft, BitVec.getLsbD_setWidth, BitVec.getLsbD_ofBool]
  by_cases hi : j = i
  · simp [hi]
  · by_cases hlt : j < i
    · simp [hlt, hi]
    · simp [hi, show ¬j - i = 0 by omega]

/-- The mask of the `n` lowest bits, in the form `fieldMask` has it. -/
theorem getLsbD_lowMask (n j : Nat) :
    (BitVec.ofNat 32 (2 ^ n - 1)).getLsbD j = (decide (j < 32) && decide (j < n)) := by
  rw [BitVec.getLsbD_ofNat, Nat.testBit_two_pow_sub_one]

theorem lowBits_eq_and_lowMask (n : Nat) (w : Word) : lowBits n w = w &&& BitVec.ofNat 32 (2 ^ n - 1) := by
  refine BitVec.eq_of_getLsbD_eq fun j hj => ?_
  rw [lowBits, BitVec.getLsbD_ofNat, Nat.testBit_mod_two_pow, BitVec.getLsbD_and, getLsbD_lowMask, BitVec.getLsbD]
  simp [hj, Bool.and_comm]

theorem lowBits_lt (n : Nat) (w : Word) : (lowBits n w).toNat < 2 ^ n :=
  Nat.lt_of_le_of_lt (Nat.mod_le _ _) (Nat.mod_lt _ (Nat.two_pow_pos n))

theorem lowBits_of_lt {n : Nat} {w : Word} (h : w.toNat < 2 ^ n) : lowBits n w = w := by
  rw [lowBits, Nat.mod_eq_of_lt h, BitVec.ofNat_toNat, BitVec.setWidth_eq]

@[simp] theorem lowBits_and_lowMask (n : Nat) (w : Word) :
    lowBits n (w &&& BitVec.ofNat 32 (2 ^ n - 1)) = lowBits n w := by
  simp only [lowBits_eq_and_lowMask, BitVec.and_assoc, BitVec.and_self]

/-- Clearing bits of a word with one bit leaves that bit unless its own bit is cleared. -/
theorem flagAt_and_not (i : Nat) (b : Bool) (v : Word) :
    flagAt i b &&& ~~~v = flagAt i (b && !v.getLsbD i) := by
  refine BitVec.eq_of_getLsbD_eq fun j hj => ?_
  simp only [BitVec.getLsbD_and, BitVec.getLsbD_not, getLsbD_flagAt, hj, decide_true, Bool.true_and]
  by_cases hi : j = i
  · simp only [hi, decide_true, Bool.true_and]
  · simp only [hi, decide_false, Bool.false_and]

theorem flagAt_zero_getLsbD (v : Word) : flagAt 0 (v.getLsbD 0) = v &&& 0x1 := by
  refine BitVec.eq_of_getLsbD_eq fun j hj => ?_
  simp only [BitVec.getLsbD_and, getLsbD_flagAt, hj, decide_true, Bool.true_and]
  by_cases h0 : j = 0
  · simp [h0]
  · simp [h0]

/-- The low half of a word, widened, is the word's 16 low bits. -/
theorem setWidth_extractLsb'_low (v : Word) : (v.extractLsb' 0 16).setWidth 32 = v &&& 0xFFFF := by
  have hmask : (0xFFFF : Word) = BitVec.ofNat 32 (2 ^ 16 - 1) := rfl
  refine BitVec.eq_of_getLsbD_eq fun j hj => ?_
  rw [hmask, BitVec.getLsbD_and, getLsbD_lowMask, BitVec.getLsbD_setWidth, BitVec.getLsbD_extractLsb', Nat.zero_add,
    Bool.and_comm (v.getLsbD j), Bool.and_assoc]

/-- A bit set in a union lies in the mask that each part lies in. -/
theorem or_and_not_eq_zero {m x y : Word} (hx : x &&& ~~~m = 0) (hy : y &&& ~~~m = 0) : (x ||| y) &&& ~~~m = 0 := by
  rw [BitVec.and_comm, BitVec.and_or_distrib_left, BitVec.and_comm, hx, BitVec.and_comm, hy, BitVec.or_self]

end Sys2Proof.Machine
end

section
/-! The register map read and written: a read shows fields only, a write reaches fields only, a register of access
RW reads back what was written and no other register notices (10_state.md R23 to R41). -/

namespace Sys2Proof.Machine

/-! ### A read shows fields only -/

theorem flagAt_and_not_eq_zero {i : Nat} {b : Bool} {m : Word} (h : m.getLsbD i = true) : flagAt i b &&& ~~~m = 0 := by
  rw [flagAt_and_not, h, Bool.not_true, Bool.and_false]
  simp [flagAt]

theorem statusWord_fields (st : Status) : statusWord st &&& ~~~0x7FF = 0 := by
  have hcode : (codeByte st.code).setWidth 32 &&& ~~~(0x7FF : Word) = 0 := by cases st.code <;> decide
  exact or_and_not_eq_zero
    (or_and_not_eq_zero
      (or_and_not_eq_zero hcode (flagAt_and_not_eq_zero (by decide)))
      (flagAt_and_not_eq_zero (by decide)))
    (flagAt_and_not_eq_zero (by decide))

theorem flagsWord_fields (cmdOvf dataOvf : Bool) : flagsWord cmdOvf dataOvf &&& ~~~0x3 = 0 :=
  or_and_not_eq_zero (flagAt_and_not_eq_zero (by decide)) (flagAt_and_not_eq_zero (by decide))

theorem arbStateWord_fields (a : Arbiter) : arbStateWord a &&& ~~~0x103 = 0 := by
  have hmode : modeWord a.mode &&& ~~~(0x103 : Word) = 0 := by cases a.mode <;> decide
  exact or_and_not_eq_zero hmode (flagAt_and_not_eq_zero (by decide))

theorem fcStageWord_fields (f : FcStage) : fcStageWord f &&& ~~~0xFF = 0 := by
  have htx : txStageWord f.tx &&& ~~~(0xFF : Word) = 0 := by cases f.tx <;> decide
  have hrx : (rxStageWord f.rx <<< 4) &&& ~~~(0xFF : Word) = 0 := by cases f.rx <;> decide
  exact or_and_not_eq_zero htx hrx

/-- A register all of whose bits are fields has no bit outside its fields. -/
theorem and_not_allOnes (w : Word) : w &&& ~~~0xFFFFFFFF = 0 := BitVec.and_zero

theorem lowBits_fields (n : Nat) (w : Word) : lowBits n w &&& ~~~BitVec.ofNat 32 (2 ^ n - 1) = 0 := by
  rw [lowBits_eq_and_lowMask, BitVec.and_assoc, BitVec.and_not_self]
  exact BitVec.and_zero

theorem setWidth_half_fields (h : Half) : h.setWidth 32 &&& ~~~0xFFFF = (0 : Word) := by
  have hlt : (h.setWidth 32).toNat < 2 ^ 16 := by
    rw [BitVec.toNat_setWidth_of_le (by decide)]; exact h.isLt
  rw [← lowBits_of_lt hlt]
  exact lowBits_fields 16 _

/-- Reserved bits read 0 (10_state.md R24). -/
theorem readReg_fields (s : State) (r : Reg) : readReg s r &&& ~~~fieldMask s.cfg r = 0 := by
  cases r with
  | status => exact statusWord_fields _
  | flags => exact flagsWord_fields ..
  | config => exact flagAt_and_not_eq_zero (m := 0x1) (by decide)
  | ccaThreshold => exact setWidth_half_fields _
  | scrTxState | scrRxState => exact lowBits_fields ..
  | arbState => exact arbStateWord_fields _
  | fcStage => exact fcStageWord_fields _
  | _ => exact and_not_allOnes _

/-! ### A write reaches fields only -/

theorem and_allOnes (v : Word) : v &&& 0xFFFFFFFF = v := BitVec.and_allOnes

theorem extractLsb'_and_low (v : Word) : (v &&& 0xFFFF).extractLsb' 0 16 = v.extractLsb' 0 16 := by
  rw [BitVec.extractLsb'_and, show (0xFFFF : Word).extractLsb' 0 16 = BitVec.allOnes 16 from rfl, BitVec.and_allOnes]

/-- Reserved bits ignore writes (10_state.md R24): writing the fields of a value is writing the value. -/
theorem writePlainReg_and_fieldMask (s : State) (v : Word) (r : Reg) :
    writePlainReg s (v &&& fieldMask s.cfg r) r = writePlainReg s v r := by
  cases r with
  | flags | config => simp [writePlainReg, fieldMask]
  | ccaThreshold => simp only [writePlainReg, fieldMask, extractLsb'_and_low]
  | arg0 | arg1 | arg2 | arg3 => simp only [writePlainReg, fieldMask, and_allOnes]
  | scrTxState | scrRxState => simp only [writePlainReg, fieldMask, lowBits_and_lowMask]
  | _ => rfl

theorem writePlainReg_congr {s : State} {r : Reg} {v v' : Word}
    (h : v &&& fieldMask s.cfg r = v' &&& fieldMask s.cfg r) : writePlainReg s v r = writePlainReg s v' r := by
  rw [← writePlainReg_and_fieldMask, h, writePlainReg_and_fieldMask]

theorem writePlainReg_readOnly {r : Reg} (h : r ∈ readOnlyRegs) (s : State) (v : Word) : writePlainReg s v r = s := by
  cases r with
  | flags | config | ccaThreshold | arg0 | arg1 | arg2 | arg3 | scrTxState | scrRxState => exact absurd h (by decide)
  | _ => rfl

/-! ### A register of access RW -/

theorem ne_cmd_of_readOnly {r : Reg} (h : r ∈ readOnlyRegs) : r ≠ .cmd := by
  rintro rfl; exact absurd h (by decide)

theorem ne_cmd_of_readWrite {r : Reg} (h : r ∈ readWriteRegs) : r ≠ .cmd := by
  rintro rfl; exact absurd h (by decide)

theorem lowBits_lowBits (n : Nat) (v : Word) : lowBits n (lowBits n v) = v &&& BitVec.ofNat 32 (2 ^ n - 1) := by
  rw [lowBits_of_lt (lowBits_lt n v), lowBits_eq_and_lowMask]

theorem readReg_writePlainReg_self {r : Reg} (h : r ∈ readWriteRegs) (s : State) (v : Word) :
    readReg (writePlainReg s v r) r = v &&& fieldMask s.cfg r := by
  cases r with
  | config => exact flagAt_zero_getLsbD v
  | ccaThreshold => exact setWidth_extractLsb'_low v
  | arg0 | arg1 | arg2 | arg3 => exact (and_allOnes v).symm
  | scrTxState | scrRxState => exact lowBits_lowBits ..
  | _ => exact absurd h (by decide)

/-- A write to a register of access RW sets one field of the state, and no other register shows that field. -/
theorem readReg_writePlainReg_of_ne {r r' : Reg} (h : r ∈ readWriteRegs) (hne : r' ≠ r) (s : State) (v : Word) :
    readReg (writePlainReg s v r) r' = readReg s r' := by
  simp only [readWriteRegs, List.mem_cons, List.not_mem_nil, or_false] at h
  rcases h with rfl | rfl | rfl | rfl | rfl | rfl | rfl | rfl <;> cases r' <;>
    first | rfl | exact absurd rfl hne

theorem writePlainReg_readWrite_frame {r : Reg} (h : r ∈ readWriteRegs) (s : State) (v : Word) :
    (writePlainReg s v r).lmem = s.lmem ∧ (writePlainReg s v r).cmdBuf = s.cmdBuf ∧
      (writePlainReg s v r).dataBuf = s.dataBuf ∧ (writePlainReg s v r).cfg = s.cfg ∧
      (writePlainReg s v r).port = s.port := by
  cases r with
  | flags => exact absurd h (by decide)
  | _ => exact ⟨rfl, rfl, rfl, rfl, rfl⟩

/-! ### FLAGS -/

@[simp] theorem clearReport_ovf (bit : Bool) (b : Buffer) : (clearReport bit b).ovf = (b.ovf && !bit) := by
  cases bit <;> simp [clearReport]

theorem clearReport_drops_of_true {bit : Bool} (h : bit = true) (b : Buffer) : (clearReport bit b).drops = 0 := by
  rw [h]; rfl

theorem clearReport_drops_of_false {bit : Bool} (h : bit = false) (b : Buffer) :
    (clearReport bit b).drops = b.drops := by
  rw [h]; rfl

/-- Clearing a report touches the sticky flag and the drop counter alone. -/
theorem clearReport_eq (bit : Bool) (b : Buffer) :
    clearReport bit b = { b with ovf := (clearReport bit b).ovf, drops := (clearReport bit b).drops } := by
  cases bit <;> rfl

theorem flagsWord_and_not (cmdOvf dataOvf : Bool) (v : Word) :
    flagsWord cmdOvf dataOvf &&& ~~~v = flagsWord (cmdOvf && !v.getLsbD 0) (dataOvf && !v.getLsbD 1) := by
  rw [flagsWord, BitVec.and_comm, BitVec.and_or_distrib_left, BitVec.and_comm, flagAt_and_not, BitVec.and_comm,
    flagAt_and_not, flagsWord]

theorem writePlainReg_flags_eq (s : State) (v : Word) :
    let t := writePlainReg s v .flags
    t = { s with cmdBuf := { s.cmdBuf with ovf := t.cmdBuf.ovf, drops := t.cmdBuf.drops },
                 dataBuf := { s.dataBuf with ovf := t.dataBuf.ovf, drops := t.dataBuf.drops } } :=
  congrArg₂ (fun b d => { s with cmdBuf := b, dataBuf := d }) (clearReport_eq _ _) (clearReport_eq _ _)

theorem readReg_writePlainReg_flags (s : State) (v : Word) :
    readReg (writePlainReg s v .flags) .flags = readReg s .flags &&& ~~~v := by
  simp only [readReg, writePlainReg, clearReport_ovf, flagsWord_and_not]

/-! ### Power-on -/

/-- Two numbers of 16 bits in the halves of one register. -/
theorem halves_toHalf {hi lo : Nat} (hlo : lo < 2 ^ 16) :
    halves (toHalf hi) (toHalf lo) = (BitVec.ofNat 32 hi <<< 16) ||| BitVec.ofNat 32 lo := by
  refine BitVec.eq_of_getLsbD_eq fun j hj => ?_
  simp only [halves, toHalf, BitVec.setWidth_eq, BitVec.getLsbD_append, BitVec.getLsbD_or, BitVec.getLsbD_shiftLeft,
    BitVec.getLsbD_ofNat]
  by_cases h16 : j < 16
  · simp [h16, hj]
  · have hbit : lo.testBit j = false :=
      Nat.testBit_lt_two_pow (Nat.lt_of_lt_of_le hlo (Nat.pow_le_pow_right (by decide) (by omega)))
    simp [h16, hj, hbit, show j - 16 < 16 by omega, show j - 16 < 32 by omega]

theorem readReg_powerOn {c : Config} (h : ValidParams c) (r : Reg) : readReg (State.powerOn c) r = resetWord c r := by
  cases r with
  | scrTxState => exact lowBits_of_lt h.scrTxSeed
  | scrRxState => exact lowBits_of_lt h.scrRxSeed
  | bufCap => exact halves_toHalf (Nat.lt_succ_of_le h.cmdCap.2)
  | status => exact show statusWord statusClear = 0 by decide
  | flags => exact show flagsWord false false = 0 by decide
  | arbState => exact show arbStateWord arbiterReset = 0 by decide
  | bufCount | ovfCount => exact show halves 0 0 = 0 by decide
  | fcStage => exact show fcStageWord fcStageReset = 0 by decide
  | _ => rfl

end Sys2Proof.Machine
end

section
/-! What a command can do to the state besides STATUS and RESULT0 to RESULT2, said once for all commands: one case
for each way in which a command writes LMEM, a buffer or a unit (20_memory.md R70; 40_byte_framer.md R105 to R116;
41_scrambler.md R144, R147; 44_frame_codec.md R218, R221; 45_channel_arbiter.md R242; 46_system.md R261). -/

namespace Sys2Proof.Machine

/-- What command `i`, run in `s`, can make of the state, STATUS and RESULT0 to RESULT2 aside. -/
inductive CommandEffect (s : State) : Instr → State → Prop
  /-- Every command may end with results alone. -/
  | results (i : Instr) : CommandEffect s i s
  | stored (i : Instr) (bytes : Bytes) (hi : storesNothing i = false)
      (region : regionOk s.cfg s.arg2.toNat bytes.length) : CommandEffect s i (s.memWrite s.arg2.toNat bytes)
  | pushed (imm : Byte) (sel : BufSel) : CommandEffect s (.bufWrite imm)
      (s.setBuf sel (bufPushAll (bufCap s.cfg sel) (sourceBytes s) (s.buf sel) 0 0).1)
  | popped (i : Instr) (imm : Byte) (hi : i = .bufPop imm ∨ i = .findFrame imm) (sel : BufSel) (n : Nat) :
      CommandEffect s i (s.setBuf sel (bufPopN (bufCap s.cfg sel) n (s.buf sel)))
  | emptied (imm : Byte) (sel : BufSel) : CommandEffect s (.bufClear imm) (s.setBuf sel (bufEmpty (s.buf sel)))
  | scrambled (imm : Byte) (w : Word) :
      CommandEffect s (.scrBit imm) { s with scrTx := lowBits s.cfg.scrWidth w }
  | descrambled (imm : Byte) (w : Word) :
      CommandEffect s (.descrBit imm) { s with scrRx := lowBits s.cfg.scrWidth w }
  | encoded (bytes : Bytes) (region : regionOk s.cfg s.arg2.toNat bytes.length) :
      CommandEffect s .fcEncode
        { s.memWrite s.arg2.toNat bytes with fcStage := { s.fcStage with tx := .ready } }
  | delivered (bytes : Bytes) (region : regionOk s.cfg s.arg2.toNat bytes.length) :
      CommandEffect s .fcDecode
        { s.memWrite s.arg2.toNat bytes with fcStage := { s.fcStage with rx := .delivered } }
  | discarded : CommandEffect s .fcDecode { s with fcStage := { s.fcStage with rx := .discarded } }
  | arbitrated (imm : Byte) (a : Arbiter) : CommandEffect s (.arbStep imm) { s with arb := a }
  | reset : CommandEffect s .softReset s.softReset

/-- Command `i`, run in `s`, can end in `t`: the prologue clears exactly STATUS and RESULT0 to RESULT2
(60_exceptions.md R270), so equal prologues mean that `t` is `u` in every other part of the state. -/
def EndsIn (s : State) (i : Instr) (t : State) : Prop := ∃ u, CommandEffect s i u ∧ t.prologue = u.prologue

/-- A part of the state that the prologue leaves is the same in states with equal prologues. -/
theorem eq_of_prologue_eq {α : Type} {t u : State} (h : t.prologue = u.prologue) (f : State → α)
    (hf : ∀ s, f s.prologue = f s) : f t = f u := by
  rw [← hf t, h, hf u]

/-! ### The shared operations -/

namespace EndsIn

variable {s : State} {i : Instr}

theorem of_effect {t u : State} (e : CommandEffect s i u) (h : t.prologue = u.prologue) : EndsIn s i t := ⟨u, e, h⟩

/-- A code raised from the prologue changes results alone (60_exceptions.md R272). -/
theorem finish (code : ResultCode) : EndsIn s i (s.prologue.finish code) := .of_effect (.results i) rfl

theorem check {p : Prop} [Decidable p] {code : ResultCode} {k : State → State}
    (hk : p → EndsIn s i (k s.prologue)) : EndsIn s i (s.prologue.check p code k) := by
  rcases s.prologue.check_cases p code k with ⟨hp, heq⟩ | ⟨-, heq⟩
  · rw [heq]; exact hk hp
  · rw [heq]; exact finish code

theorem withOperand {α : Type} {operand : Option α} {k : α → State} (hk : ∀ x, EndsIn s i (k x)) :
    EndsIn s i (s.prologue.withOperand operand k) := by
  cases operand with
  | none => exact finish .invalidParam
  | some x => exact hk x

/-- An output is delivered inside LMEM, or nothing but the code is written (20_memory.md R70). -/
theorem deliver_of {bytes : Bytes} {k : State → State}
    (hk : regionOk s.cfg s.arg2.toNat bytes.length →
      EndsIn s i ((k (s.prologue.memWrite s.arg2.toNat bytes)).finish .ok)) :
    EndsIn s i (s.prologue.deliver s.arg2.toNat bytes k) :=
  check hk

/-- A delivery after which the command adds results only. -/
theorem deliver {bytes : Bytes} {k : State → State} (hi : storesNothing i = false)
    (hk : ∀ u, (k u).prologue = u.prologue) : EndsIn s i (s.prologue.deliver s.arg2.toNat bytes k) :=
  deliver_of fun region => .of_effect (.stored i bytes hi region) (hk _)

/-- The shared body of SCR_BLOCK and DESCR_BLOCK. -/
theorem blockRule (f : Bytes → Bytes) (hi : storesNothing i = false) : EndsIn s i (s.prologue.blockRule f) :=
  check fun _ => check fun _ => deliver hi fun _ => rfl

end EndsIn

/-! ### The commands -/

theorem kissUnescape_endsIn {s t : State} (h : execKissUnescape s = .next t) : EndsIn s .kissUnescape t := by
  cases h
  refine .check fun _ => ?_
  split
  · exact .finish .frameCorrupt
  · exact .deliver rfl fun _ => rfl

theorem rsDecode_endsIn {imm : Byte} {s t : State} (h : execRsDecode imm s = .next t) :
    EndsIn s (.rsDecode imm) t := by
  cases h
  refine .withOperand fun nroots => .check fun _ => .check fun _ => ?_
  split
  · exact .finish .uncorrectable
  · exact .deliver rfl fun _ => rfl

theorem fcDecode_endsIn {s t : State} (h : execFcDecode s = .next t) : EndsIn s .fcDecode t := by
  cases h
  refine .check fun _ => ?_
  split
  · exact .of_effect .discarded rfl
  · exact .deliver_of fun region => .of_effect (.delivered _ region) rfl

theorem findFrame_endsIn {imm : Byte} {s t : State} (h : execFindFrame imm s = .next t) :
    EndsIn s (.findFrame imm) t := by
  cases h
  refine .withOperand fun sel => ?_
  exact .of_effect (.popped _ imm (.inr rfl) sel (findFrame (bufCap s.cfg sel) (s.content sel)).disc)
    (by cases sel <;> rfl)

/-- The inversion lemma of `exec`: each command checks its operands, and then writes what its unit owns. -/
theorem exec_endsIn {i : Instr} {s t : State} (h : exec i s = .next t) : EndsIn s i t := by
  cases i with
  | kissUnescape => exact kissUnescape_endsIn h
  | rsDecode imm => exact rsDecode_endsIn h
  | fcDecode => exact fcDecode_endsIn h
  | findFrame imm => exact findFrame_endsIn h
  | nop => cases h; exact .finish .ok
  | softReset => cases h; exact .of_effect .reset rfl
  | kissEscape => cases h; exact .check fun _ => .deliver rfl fun _ => rfl
  | bufWrite imm =>
    cases h
    exact .withOperand fun sel => .check fun _ => .of_effect (.pushed imm sel) (by cases sel <;> rfl)
  | bufPeek imm => cases h; exact .withOperand fun _ => .check fun _ => .deliver rfl fun _ => rfl
  | bufPop imm =>
    cases h
    exact .withOperand fun sel => .check fun _ =>
      .of_effect (.popped _ imm (.inl rfl) sel s.arg1.toNat) (by cases sel <;> rfl)
  | bufClear imm =>
    cases h
    exact .withOperand fun sel => .of_effect (.emptied imm sel) (by cases sel <;> rfl)
  | scrBit imm => cases h; exact .withOperand fun _ => .of_effect (.scrambled imm _) rfl
  | descrBit imm => cases h; exact .withOperand fun _ => .of_effect (.descrambled imm _) rfl
  | scrBlock => cases h; exact .blockRule _ rfl
  | descrBlock => cases h; exact .blockRule _ rfl
  | rsEncode imm =>
    cases h
    exact .withOperand fun _ => .check fun _ => .check fun _ => .deliver rfl fun _ => rfl
  | crcCalc => cases h; exact .check fun _ => .of_effect (.results _) rfl
  | crcVerify => cases h; exact .check fun _ => .of_effect (.results _) rfl
  | hdrBuild => cases h; exact .check fun _ => .deliver rfl fun _ => rfl
  | hdrParse => cases h; exact .check fun _ => .of_effect (.results _) rfl
  | fcEncode =>
    cases h
    exact .check fun _ => .check fun _ => .deliver_of fun region => .of_effect (.encoded _ region) rfl
  | arbStep imm => cases h; exact .withOperand fun _ => .of_effect (.arbitrated imm _) rfl

end Sys2Proof.Machine
end

section
/-! Which command writes which unit: what follows from `CommandEffect` for the arbiter, the scrambler registers, the
stages and the buffers (10_state.md R32, R33, R40, R46). -/

namespace Sys2Proof.Machine

/-- Replacing a buffer by one with the same report keeps both reports. -/
theorem State.setBuf_keeps_report {s : State} {sel' : BufSel} {b : Buffer} (sel : BufSel)
    (hovf : b.ovf = (s.buf sel').ovf) (hdrops : b.drops = (s.buf sel').drops) :
    ((s.setBuf sel' b).buf sel).ovf = (s.buf sel).ovf ∧ ((s.setBuf sel' b).buf sel).drops = (s.buf sel).drops := by
  by_cases h : sel = sel'
  · subst h
    rw [State.buf_setBuf]
    exact ⟨hovf, hdrops⟩
  · rw [State.buf_setBuf_ne s b h]
    exact ⟨rfl, rfl⟩

namespace CommandEffect

variable {i : Instr} {s u : State}

theorem arb_eq (e : CommandEffect s i u) (hreset : i ≠ .softReset) (hi : ∀ imm, i ≠ .arbStep imm) :
    u.arb = s.arb := by
  cases e with
  | arbitrated imm => exact absurd rfl (hi imm)
  | reset => exact absurd rfl hreset
  | pushed | popped | emptied => exact State.setBuf_arb ..
  | _ => rfl

theorem scrTx_eq (e : CommandEffect s i u) (hreset : i ≠ .softReset) (hi : ∀ imm, i ≠ .scrBit imm) :
    u.scrTx = s.scrTx := by
  cases e with
  | scrambled imm => exact absurd rfl (hi imm)
  | reset => exact absurd rfl hreset
  | pushed | popped | emptied => exact State.setBuf_scrTx ..
  | _ => rfl

theorem scrRx_eq (e : CommandEffect s i u) (hreset : i ≠ .softReset) (hi : ∀ imm, i ≠ .descrBit imm) :
    u.scrRx = s.scrRx := by
  cases e with
  | descrambled imm => exact absurd rfl (hi imm)
  | reset => exact absurd rfl hreset
  | pushed | popped | emptied => exact State.setBuf_scrRx ..
  | _ => rfl

theorem txStage_eq (e : CommandEffect s i u) (hreset : i ≠ .softReset) (hi : i ≠ .fcEncode) :
    u.fcStage.tx = s.fcStage.tx := by
  cases e with
  | encoded => exact absurd rfl hi
  | reset => exact absurd rfl hreset
  | pushed | popped | emptied => rw [State.setBuf_fcStage]
  | _ => rfl

theorem rxStage_eq (e : CommandEffect s i u) (hreset : i ≠ .softReset) (hi : i ≠ .fcDecode) :
    u.fcStage.rx = s.fcStage.rx := by
  cases e with
  | delivered | discarded => exact absurd rfl hi
  | reset => exact absurd rfl hreset
  | pushed | popped | emptied => rw [State.setBuf_fcStage]
  | _ => rfl

/-- BUF_POP, BUF_CLEAR and FIND_FRAME write a buffer and keep its report (10_state.md R27, R39). -/
theorem report_eq (e : CommandEffect s i u) (hreset : i ≠ .softReset) (hi : ∀ imm, i ≠ .bufWrite imm)
    (sel : BufSel) : (u.buf sel).ovf = (s.buf sel).ovf ∧ (u.buf sel).drops = (s.buf sel).drops := by
  cases e with
  | pushed imm => exact absurd rfl (hi imm)
  | popped _ _ _ sel' n => exact State.setBuf_keeps_report sel (bufPopN_ovf ..) (bufPopN_drops ..)
  | emptied _ sel' => exact State.setBuf_keeps_report sel rfl rfl
  | reset => exact absurd rfl hreset
  | _ => cases sel <;> exact ⟨rfl, rfl⟩

theorem buf_eq (e : CommandEffect s i u) (hreset : i ≠ .softReset)
    (hi : ∀ imm, i ≠ .bufWrite imm ∧ i ≠ .bufPop imm ∧ i ≠ .bufClear imm ∧ i ≠ .findFrame imm) (sel : BufSel) :
    u.buf sel = s.buf sel := by
  cases e with
  | pushed imm => exact absurd rfl (hi imm).1
  | popped _ imm hpop =>
    obtain ⟨-, hbufPop, -, hfindFrame⟩ := hi imm
    exact absurd hpop (not_or.2 ⟨hbufPop, hfindFrame⟩)
  | emptied imm =>
    obtain ⟨-, -, hbufClear, -⟩ := hi imm
    exact absurd rfl hbufClear
  | reset => exact absurd rfl hreset
  | _ => cases sel <;> rfl

end CommandEffect

end Sys2Proof.Machine
end

section
/-! The invariant is kept: by each update of the state, by every command through `CommandEffect`, by every host
access, and so by every step (10_state.md R32, R33, R40, R42; 40_byte_framer.md R104). -/

namespace Sys2Proof.Machine

/-! ### Updates of the state -/

namespace State.Inv

variable {s : State}

/-- STATUS and RESULT0 to RESULT2 play no part in the invariant. -/
theorem prologue_iff : s.prologue.Inv ↔ s.Inv :=
  ⟨fun h => ⟨h.params, h.lmem, h.cmdBuf, h.dataBuf, h.scrTx, h.scrRx, h.txStage⟩,
    fun h => ⟨h.params, h.lmem, h.cmdBuf, h.dataBuf, h.scrTx, h.scrRx, h.txStage⟩⟩

theorem of_prologue_eq {t : State} (h : t.prologue = s.prologue) (hs : s.Inv) : t.Inv :=
  prologue_iff.1 (h ▸ prologue_iff.2 hs)

theorem bufWf (h : s.Inv) (sel : BufSel) : bufWf (bufCap s.cfg sel) (s.buf sel) :=
  match sel with
  | .cmd => h.cmdBuf
  | .data => h.dataBuf

theorem setBuf (h : s.Inv) (sel : BufSel) {b : Buffer} (hb : Machine.bufWf (bufCap s.cfg sel) b) :
    (s.setBuf sel b).Inv :=
  match sel, hb with
  | .cmd, hb => { h with cmdBuf := hb }
  | .data, hb => { h with dataBuf := hb }

theorem memWrite (h : s.Inv) {a : Nat} {bytes : Bytes} (region : regionOk s.cfg a bytes.length) :
    (s.memWrite a bytes).Inv :=
  { h with lmem := memWf_memWrite_region h.lmem region }

theorem setScrTx (h : s.Inv) (w : Word) : { s with scrTx := lowBits s.cfg.scrWidth w }.Inv :=
  { h with scrTx := lowBits_lt .. }

theorem setScrRx (h : s.Inv) (w : Word) : { s with scrRx := lowBits s.cfg.scrWidth w }.Inv :=
  { h with scrRx := lowBits_lt .. }

theorem setTxReady (h : s.Inv) : { s with fcStage := { s.fcStage with tx := .ready } }.Inv :=
  { h with txStage := .inr rfl }

theorem setRxStage (h : s.Inv) (rx : RxStage) : { s with fcStage := { s.fcStage with rx := rx } }.Inv :=
  { h with }

theorem setArb (h : s.Inv) (a : Arbiter) : { s with arb := a }.Inv := { h with }

theorem setCmd (h : s.Inv) (w : Word) : { s with cmd := w }.Inv := { h with }

theorem observe (h : s.Inv) (v : Word) : (s.observe v).Inv := { h with }

theorem dropAccess (h : s.Inv) : s.dropAccess.Inv := { h with }

/-- The seeds of valid parameters lie inside SCR_W bits (41_scrambler.md R140). -/
theorem softReset (h : s.Inv) : s.softReset.Inv :=
  { params := h.params
    lmem := h.lmem
    cmdBuf := bufWf_clearReport true (bufWf_bufEmpty h.cmdBuf)
    dataBuf := bufWf_clearReport true (bufWf_bufEmpty h.dataBuf)
    scrTx := (validParams h.params).scrTxSeed
    scrRx := (validParams h.params).scrRxSeed
    txStage := .inl rfl }

end State.Inv

/-! ### Commands, host accesses and steps -/

theorem CommandEffect.inv {i : Instr} {s u : State} (e : CommandEffect s i u) (hs : s.Inv) : u.Inv := by
  cases e with
  | results => exact hs
  | stored _ _ _ region => exact hs.memWrite region
  | pushed _ sel => exact hs.setBuf sel (bufWf_bufPushAll _ 0 0 (hs.bufWf sel))
  | popped _ _ _ sel n => exact hs.setBuf sel (bufWf_bufPopN n (hs.bufWf sel))
  | emptied _ sel => exact hs.setBuf sel (bufWf_bufEmpty (hs.bufWf sel))
  | scrambled _ w => exact hs.setScrTx w
  | descrambled _ w => exact hs.setScrRx w
  | encoded _ region => exact (hs.memWrite region).setTxReady
  | delivered _ region => exact (hs.memWrite region).setRxStage .delivered
  | discarded => exact hs.setRxStage .discarded
  | arbitrated _ a => exact hs.setArb a
  | reset => exact hs.softReset

theorem exec_inv {i : Instr} {s t : State} (h : exec i s = .next t) (hs : s.Inv) : t.Inv := by
  obtain ⟨u, e, heq⟩ := exec_endsIn h
  exact (e.inv hs).of_prologue_eq heq

theorem execWord_inv {w : Word} {s t : State} (h : execWord w s = .next t) (hs : s.Inv) : t.Inv := by
  cases hw : decode w with
  | ok i =>
    rw [execWord_of_decode_ok hw] at h
    exact exec_inv h hs
  | error e =>
    rw [execWord_of_decode_error hw] at h
    cases h
    exact State.Inv.of_prologue_eq (s := s) rfl hs

theorem writePlainReg_inv {s : State} (hs : s.Inv) (v : Word) (r : Reg) : (writePlainReg s v r).Inv := by
  cases r with
  | flags =>
    exact { hs with
      cmdBuf := bufWf_clearReport _ hs.cmdBuf
      dataBuf := bufWf_clearReport _ hs.dataBuf }
  | scrTxState => exact hs.setScrTx v
  | scrRxState => exact hs.setScrRx v
  | _ => exact { hs with }

theorem writeReg_inv {r : Reg} {v : Word} {s t : State} (h : writeReg r v s = .next t) (hs : s.Inv) : t.Inv := by
  by_cases hr : r = .cmd
  · rw [hr, writeReg_cmd] at h
    exact execWord_inv h (hs.setCmd v)
  · rw [writeReg_of_ne_cmd hr] at h
    cases h
    exact writePlainReg_inv hs v r

theorem hostAccess_inv {a : HostAccess} {s t : State} (h : hostAccess a s = .next t) (hs : s.Inv) : t.Inv := by
  rcases hostAccess_next h with ⟨v, rfl⟩ | ⟨r, v, hwrite⟩ | ⟨dst, bytes, region, rfl⟩
  · exact hs.observe v
  · exact writeReg_inv hwrite hs
  · exact hs.memWrite region

theorem hostStep_inv {s t : State} (h : hostStep s = .next t) (hs : s.Inv) : t.Inv := by
  cases hpending : s.port.pending with
  | nil =>
    rw [hostStep_of_pending_nil hpending] at h
    cases h
    exact hs
  | cons a rest =>
    rw [hostStep_of_pending_cons hpending] at h
    exact hostAccess_inv h hs.dropAccess

end Sys2Proof.Machine
end

section
/-! The obligations of 10_state.md. -/

namespace Sys2Proof.Proofs

open Sys2Proof.Machine

/-- Settles O60: a step on good parameters is one host access, and each kind of access keeps the invariant. -/
theorem stepKeepsInvariant : Obligations.StepKeepsInvariant := by
  intro s t hs h
  rw [step_of_valid hs.params] at h
  exact hostStep_inv h hs

/-- Settles O10: what a read shows and what a write reaches are the fields of the register. -/
theorem reservedBitsAndReadOnlyRegisters : Obligations.ReservedBitsAndReadOnlyRegisters := by
  refine ⟨readReg_fields, ?_, ?_⟩
  · intro s t v v' r rest hr hparams hmask hpending ht
    have hstep' : step t = .next (writePlainReg { s with port := { s.port with pending := rest } } v' r) := by
      subst ht
      exact step_plainRegWrite hr hparams rfl
    rw [step_plainRegWrite hr hparams hpending, hstep']
    exact congrArg _ (writePlainReg_congr hmask)
  · intro s v r rest hr hparams hpending
    rw [step_plainRegWrite (ne_cmd_of_readOnly hr) hparams hpending, writePlainReg_readOnly hr]

/-- Settles O11: the step is the register write, whose effect on every register is known. -/
theorem writableRegistersReadBack : Obligations.WritableRegistersReadBack := by
  intro s v r rest hr hparams hpending
  exact ⟨_, step_plainRegWrite (ne_cmd_of_readWrite hr) hparams hpending, readReg_writePlainReg_self hr _ v,
    fun r' hne => readReg_writePlainReg_of_ne hr hne _ v, writePlainReg_readWrite_frame hr _ v⟩

/-- Settles O12: FLAGS is written by clearing the report of each buffer whose bit is 1. -/
theorem flagsWriteOneToClear : Obligations.FlagsWriteOneToClear := by
  intro s v rest hparams hpending
  exact ⟨_, step_plainRegWrite (r := .flags) (by decide) hparams hpending, writePlainReg_flags_eq _ v,
    readReg_writePlainReg_flags _ v, fun h => clearReport_drops_of_true h _, fun h => clearReport_drops_of_false h _,
    fun h => clearReport_drops_of_true h _, fun h => clearReport_drops_of_false h _⟩

/-- Settles O57: a command writes what its unit owns, case by case of `CommandEffect`, and the results. -/
theorem unitStateWrittenOnlyByItsCommands : Obligations.UnitStateWrittenOnlyByItsCommands := by
  intro i s t h hreset
  obtain ⟨u, e, heq⟩ := exec_endsIn h
  have harb : t.arb = u.arb := eq_of_prologue_eq heq State.arb fun _ => rfl
  have hscrTx : t.scrTx = u.scrTx := eq_of_prologue_eq heq State.scrTx fun _ => rfl
  have hscrRx : t.scrRx = u.scrRx := eq_of_prologue_eq heq State.scrRx fun _ => rfl
  have hstage : t.fcStage = u.fcStage := eq_of_prologue_eq heq State.fcStage fun _ => rfl
  have hcmdBuf : t.cmdBuf = u.cmdBuf := eq_of_prologue_eq heq State.cmdBuf fun _ => rfl
  have hdataBuf : t.dataBuf = u.dataBuf := eq_of_prologue_eq heq State.dataBuf fun _ => rfl
  rw [harb, hscrTx, hscrRx, hstage, hcmdBuf, hdataBuf]
  refine ⟨e.arb_eq hreset, e.scrTx_eq hreset, e.scrRx_eq hreset, e.txStage_eq hreset, e.rxStage_eq hreset,
    fun hi => ?_, fun hi => ⟨e.buf_eq hreset hi .cmd, e.buf_eq hreset hi .data⟩⟩
  obtain ⟨hcmdOvf, hcmdDrops⟩ := e.report_eq hreset hi .cmd
  obtain ⟨hdataOvf, hdataDrops⟩ := e.report_eq hreset hi .data
  exact ⟨hcmdOvf, hdataOvf, hcmdDrops, hdataDrops⟩

/-- Settles O5: the CMD write stores the word, then executes it. -/
theorem stepRunsDecodedCommand : Obligations.StepRunsDecodedCommand := by
  intro s w rest hparams hpending taken
  have hstep : step s = execWord w taken :=
    (step_regWrite (r := .cmd) hparams hpending).trans (writeReg_cmd ..)
  exact ⟨fun i hw => hstep.trans (execWord_of_decode_ok hw taken),
    fun e hw => hstep.trans (execWord_of_decode_error hw taken)⟩

/-- Settles O13: the map reads its reset column, and nothing has been pushed or written. -/
theorem powerOnRegisters : Obligations.PowerOnRegisters := by
  intro c hparams
  refine ⟨readReg_powerOn (validParams hparams), fun sel => ?_, memLookup_nil⟩
  cases sel <;> rfl

end Sys2Proof.Proofs
end

section
/-! Which accesses the block refuses: exactly those at no permitted address (20_memory.md R60, R63, R65, R66). -/

namespace Sys2Proof.Machine

/-! ### Where a permitted access goes -/

/-- Below the end of the registers there is one at every multiple of 4 and nowhere else (10_state.md R23). -/
theorem regAt_eq_none_iff {offset : Nat} (h : offset < regEnd) : regAt offset = none ↔ offset % 4 ≠ 0 := by
  have hall : ∀ o < regEnd, regAt o = none ↔ o % 4 ≠ 0 := by decide
  exact hall offset h

theorem windowTarget_registers_refused_iff {c : Config} {width offset : Nat} (h : offset < regEnd) :
    (∃ why, windowTarget c width offset = .refused why) ↔ ¬(width = 4 ∧ offset % 4 = 0) := by
  have hreg := regAt_eq_none_iff h
  by_cases hwidth : width = 4
  · cases hat : regAt offset with
    | none => simpa [windowTarget, h, hwidth, hat] using hreg.1 hat
    | some r =>
      have halign : offset % 4 = 0 := not_not.1 (mt hreg.2 (by simp [hat]))
      simp [windowTarget, h, hwidth, hat, halign]
  · simp [windowTarget, h, hwidth]

theorem windowTarget_lmem_refused_iff {c : Config} {width offset : Nat} (h : ¬offset < regEnd) :
    (∃ why, windowTarget c width offset = .refused why) ↔
      ¬(lmemBase ≤ offset ∧ offset < lmemBase + c.lmemSize ∧
        (width = 1 ∨ width = 4 ∧ offset % 4 = 0 ∧ offset + 4 ≤ lmemBase + c.lmemSize)) := by
  rw [windowTarget, if_neg h]
  split_ifs
  case pos hunmapped => exact iff_of_true ⟨_, rfl⟩ (by omega)
  case pos hbyte => exact iff_of_false nofun (by omega)
  case pos hwidth => exact iff_of_true ⟨_, rfl⟩ (by omega)
  case pos halign => exact iff_of_true ⟨_, rfl⟩ (by omega)
  case pos hend => exact iff_of_true ⟨_, rfl⟩ (by omega)
  case neg hend => exact iff_of_false nofun (by omega)

theorem windowTarget_lmemByte {c : Config} {a : Nat} (h : a < c.lmemSize) :
    windowTarget c 1 (lmemBase + a) = .lmemByte a := by
  have hreg : ¬lmemBase + a < regEnd := by simp only [lmemBase, regEnd]; omega
  have hmapped : ¬(lmemBase + a < lmemBase ∨ lmemBase + c.lmemSize ≤ lmemBase + a) := by omega
  rw [windowTarget, if_neg hreg, if_neg hmapped, if_pos rfl, Nat.add_sub_cancel_left]

theorem windowTarget_lmemWord {c : Config} {a : Nat} (halign : a % 4 = 0) (h : a + 4 ≤ c.lmemSize) :
    windowTarget c 4 (lmemBase + a) = .lmemWord a := by
  have hreg : ¬lmemBase + a < regEnd := by simp only [lmemBase, regEnd]; omega
  have hmapped : ¬(lmemBase + a < lmemBase ∨ lmemBase + c.lmemSize ≤ lmemBase + a) := by omega
  have hword : ¬(lmemBase + a) % 4 ≠ 0 := by simp only [lmemBase]; omega
  rw [windowTarget, if_neg hreg, if_neg hmapped, if_neg (by decide), if_neg (by decide), if_neg hword,
    if_neg (by omega), Nat.add_sub_cancel_left]

theorem windowTarget_refused_iff (c : Config) (width offset : Nat) :
    (∃ why, windowTarget c width offset = .refused why) ↔ ¬offsetPermitted c width offset := by
  by_cases hreg : offset < regEnd
  · rw [windowTarget_registers_refused_iff hreg]
    simp only [regEnd] at hreg
    simp only [offsetPermitted]
    omega
  · rw [windowTarget_lmem_refused_iff hreg]
    simp only [regEnd] at hreg
    simp only [offsetPermitted, lmemBase]
    omega

theorem accessTarget_refused_iff (c : Config) (width address : Nat) :
    (∃ why, accessTarget c width address = .refused why) ↔ ¬accessPermitted c width address := by
  unfold accessTarget accessPermitted
  split
  next hbelow => exact iff_of_true ⟨_, rfl⟩ fun ⟨hbase, _⟩ => Nat.not_le.2 hbelow hbase
  next hbase => rw [windowTarget_refused_iff, and_iff_right (Nat.not_lt.1 hbase)]

theorem accessTarget_lmemByte {c : Config} {a : Nat} (h : a < c.lmemSize) :
    accessTarget c 1 (c.blockBase + (0x1000 + a)) = .lmemByte a := by
  rw [accessTarget, if_neg (by omega), Nat.add_sub_cancel_left]
  exact windowTarget_lmemByte h

theorem accessTarget_lmemWord {c : Config} {a : Nat} (halign : a % 4 = 0) (h : a + 4 ≤ c.lmemSize) :
    accessTarget c 4 (c.blockBase + (0x1000 + a)) = .lmemWord a := by
  rw [accessTarget, if_neg (by omega), Nat.add_sub_cancel_left]
  exact windowTarget_lmemWord halign h

/-! ### An access is refused with its target -/

theorem hostRead_refused_iff {width address : Nat} {s : State} {why : Refusal} :
    hostRead width address s = .refused why ↔ accessTarget s.cfg width address = .refused why := by
  unfold hostRead
  cases accessTarget s.cfg width address <;> simp

theorem hostWrite_refused_iff {width address : Nat} {v : Word} {s : State} {why : Refusal} :
    hostWrite width address v s = .refused why ↔ accessTarget s.cfg width address = .refused why := by
  unfold hostWrite
  cases accessTarget s.cfg width address with
  | reg r =>
    obtain ⟨t, ht⟩ := writeReg_completes r v s
    simp [ht]
  | lmemByte a => simp
  | lmemWord a => simp
  | refused why' => simp

theorem hostAccess_refused_iff {a : HostAccess} {width address : Nat}
    (ha : a = .read width address ∨ ∃ v, a = .write width address v) (s : State) :
    (∃ why, hostAccess a s = .refused why) ↔ ¬accessPermitted s.cfg width address := by
  rw [← accessTarget_refused_iff]
  rcases ha with rfl | ⟨v, rfl⟩
  · exact exists_congr fun _ => hostRead_refused_iff
  · exact exists_congr fun _ => hostWrite_refused_iff

/-- No access faults, so one that is not refused has a step (20_memory.md R63). -/
theorem hostAccess_completes_of_not_refused {a : HostAccess} {s : State} (h : ¬∃ why, hostAccess a s = .refused why) :
    ∃ t, hostAccess a s = .next t := by
  cases heq : hostAccess a s with
  | next t => exact ⟨t, rfl⟩
  | fault f => exact absurd heq (hostAccess_ne_fault a s f)
  | refused why => exact absurd ⟨why, heq⟩ h

theorem step_of_pending_cons {s : State} {a : HostAccess} {rest : List HostAccess} (hparams : paramsValid s.cfg = true)
    (h : s.port.pending = a :: rest) : step s = hostAccess a { s with port := { s.port with pending := rest } } := by
  rw [step_of_valid hparams, hostStep_of_pending_cons h, dropAccess_of_pending h]

end Sys2Proof.Machine
end

section
/-! What a host access that is not refused reads and stores, in the numbers and bytes of the spec (20_memory.md R64,
R65). -/

namespace Sys2Proof.Machine

/-! ### A host read -/

theorem hostRead_of_reg {width address : Nat} {s : State} {r : Reg}
    (h : accessTarget s.cfg width address = .reg r) : hostRead width address s = .next (s.observe (readReg s r)) := by
  simp only [hostRead, h]

theorem hostRead_of_lmemByte {width address : Nat} {s : State} {a : Nat}
    (h : accessTarget s.cfg width address = .lmemByte a) :
    hostRead width address s = .next (s.observe ((lmemByte s.lmem a).setWidth 32)) := by
  simp only [hostRead, h]

theorem hostRead_of_lmemWord {width address : Nat} {s : State} {a : Nat}
    (h : accessTarget s.cfg width address = .lmemWord a) :
    hostRead width address s = .next (s.observe (lmemWord s.lmem a)) := by
  simp only [hostRead, h]

/-- What a register shows does not depend on the host's side of the block. -/
theorem readReg_setPort (s : State) (p : HostPort) (r : Reg) : readReg { s with port := p } r = readReg s r := by
  cases r <;> rfl

/-- The number of two adjacent bit vectors, the low one first. -/
theorem toNat_append_eq_add {m n : Nat} (hi : BitVec m) (lo : BitVec n) :
    (hi ++ lo).toNat = lo.toNat + 2 ^ n * hi.toNat := by
  rw [BitVec.toNat_append, ← Nat.shiftLeft_add_eq_or_of_lt lo.isLt, Nat.shiftLeft_eq, Nat.mul_comm, Nat.add_comm]

/-- A word of LMEM is little-endian (20_memory.md R64). -/
theorem lmemWord_eq (m : Memory) (a : Nat) :
    lmemWord m a =
      BitVec.ofNat 32 ((lmemByte m a).toNat + 256 * (lmemByte m (a + 1)).toNat +
        65536 * (lmemByte m (a + 2)).toNat + 16777216 * (lmemByte m (a + 3)).toNat) := by
  rw [lmemWord, ← BitVec.ofNat_toNat]
  congr 1
  simp only [toNat_append_eq_add]
  omega

/-! ### A host write to LMEM -/

theorem hostWrite_of_lmemByte {width address : Nat} {v : Word} {s : State} {a : Nat}
    (h : accessTarget s.cfg width address = .lmemByte a) :
    hostWrite width address v s = .next (s.memWrite a [v.extractLsb' 0 8]) := by
  simp only [hostWrite, h]

theorem hostWrite_of_lmemWord {width address : Nat} {v : Word} {s : State} {a : Nat}
    (h : accessTarget s.cfg width address = .lmemWord a) :
    hostWrite width address v s = .next (s.memWrite a (wordBytes v)) := by
  simp only [hostWrite, h]

theorem stored_memWriteBytes (m : Memory) (a : Nat) (bytes : Bytes) : Stored m (memWriteBytes m a bytes) a bytes :=
  lmemByte_memWriteBytes bytes m a

end Sys2Proof.Machine
end

section
/-! What a command does to LMEM: one that stores nothing leaves it, and one that stores ends OK with its output at
the address in ARG2, or with another code and LMEM as it was (20_memory.md R70; 60_exceptions.md R272). -/

namespace Sys2Proof.Machine

theorem CommandEffect.lmem_eq {i : Instr} {s u : State} (e : CommandEffect s i u) (hi : storesNothing i = true) :
    u.lmem = s.lmem := by
  cases e with
  | stored _ bytes hstores region => exact absurd hi (by rw [hstores]; decide)
  | encoded bytes region => cases hi
  | delivered bytes region => cases hi
  | pushed imm sel => exact State.setBuf_lmem ..
  | popped _ imm hpop sel n => exact State.setBuf_lmem ..
  | emptied imm sel => exact State.setBuf_lmem ..
  | _ => rfl

theorem exec_lmem_of_storesNothing {i : Instr} {s t : State} (h : exec i s = .next t) (hi : storesNothing i = true) :
    t.lmem = s.lmem := by
  obtain ⟨u, e, heq⟩ := exec_endsIn h
  exact (eq_of_prologue_eq heq State.lmem fun _ => rfl).trans (e.lmem_eq hi)

/-- In `t` a storing command, run in `s`, has ended: OK with `out` written from the address in ARG2 on, inside
LMEM, or with another code and nothing written. -/
structure DeliversOrKeeps (s : State) (out : Bytes) (t : State) : Prop where
  delivers : t.status.code = .ok →
    regionOk s.cfg s.arg2.toNat out.length ∧ t.lmem = memWriteBytes s.lmem s.arg2.toNat out
  keeps : t.status.code ≠ .ok → t.lmem = s.lmem

namespace DeliversOrKeeps

variable {s : State} {out : Bytes}

theorem finish {code : ResultCode} (h : code ≠ .ok) : DeliversOrKeeps s out (s.prologue.finish code) :=
  ⟨fun hok => absurd hok h, fun _ => rfl⟩

theorem check {p : Prop} [Decidable p] {code : ResultCode} {k : State → State} (hcode : code ≠ .ok)
    (hk : p → DeliversOrKeeps s out (k s.prologue)) : DeliversOrKeeps s out (s.prologue.check p code k) := by
  rcases s.prologue.check_cases p code k with ⟨hp, heq⟩ | ⟨-, heq⟩
  · rw [heq]; exact hk hp
  · rw [heq]; exact finish hcode

theorem withOperand {α : Type} {operand : Option α} {k : α → State}
    (hk : ∀ x, operand = some x → DeliversOrKeeps s out (k x)) :
    DeliversOrKeeps s out (s.prologue.withOperand operand k) := by
  cases operand with
  | none => exact finish (by decide)
  | some x => exact hk x rfl

/-- A delivery after which the command leaves LMEM alone. -/
theorem deliver {k : State → State} (hk : ∀ u, (k u).lmem = u.lmem) :
    DeliversOrKeeps s out (s.prologue.deliver s.arg2.toNat out k) :=
  check (by decide) fun region => ⟨fun _ => ⟨region, hk _⟩, fun hfails => absurd rfl hfails⟩

/-- The shared body of SCR_BLOCK and DESCR_BLOCK. -/
theorem blockRule (f : Bytes → Bytes) : DeliversOrKeeps s (f (sourceBytes s)) (s.prologue.blockRule f) :=
  check (by decide) fun _ => check (by decide) fun _ => deliver fun _ => rfl

end DeliversOrKeeps

/-! ### The storing commands -/

/-- A parity count is the number its IMM8 is (30_encoding.md R82). -/
theorem eq_toNat_of_parityOperand {imm : Byte} {nroots : Nat} (h : parityOperand imm = some nroots) :
    nroots = imm.toNat := by
  unfold parityOperand at h
  split at h
  · exact (Option.some.inj h).symm
  · cases h

/-- A discarded frame never counts as OK (44_frame_codec.md R219, R221). -/
theorem fcDecodePayload_error_ne_ok {c : Config} {w : Bytes} {strict : Bool} {hc n : Nat} {code : ResultCode}
    (h : fcDecodePayload c w strict hc n = .error code) : code ≠ .ok := by
  simp only [fcDecodePayload] at h
  split at h
  · cases h; decide
  · split at h
    · cases h; decide
    · cases h

theorem fcDecode_error_ne_ok {c : Config} {w : Bytes} {strict : Bool} {code : ResultCode}
    (h : fcDecode c w strict = .error code) : code ≠ .ok := by
  simp only [fcDecode] at h
  split at h
  · cases h; decide
  · split at h
    · cases h; decide
    · split at h
      · cases h; decide
      · exact fcDecodePayload_error_ne_ok h

theorem kissUnescape_deliversOrKeeps {s t : State} (h : execKissUnescape s = .next t) :
    DeliversOrKeeps s (outputBytes .kissUnescape s) t := by
  cases h
  refine .check (by decide) fun _ => ?_
  split
  · exact .finish (by decide)
  next u hu =>
    have hout : outputBytes .kissUnescape s = u.out := by
      rw [outputBytes, show unescape (sourceBytes s) = some u from hu]
    rw [hout]
    exact .deliver fun _ => rfl

theorem bufPeek_deliversOrKeeps {imm : Byte} {s t : State} (h : execBufPeek imm s = .next t) :
    DeliversOrKeeps s (outputBytes (.bufPeek imm) s) t := by
  cases h
  refine .withOperand fun sel hsel => .check (by decide) fun _ => ?_
  have hout : outputBytes (.bufPeek imm) s =
      (List.range s.arg1.toNat).map fun j => bufPeek sel (bufCap s.cfg sel) (s.buf sel) (s.arg0.toNat + j) := by
    rw [outputBytes, hsel]
  rw [hout, ← State.buf_prologue]
  exact .deliver fun _ => rfl

theorem rsEncode_deliversOrKeeps {imm : Byte} {s t : State} (h : execRsEncode imm s = .next t) :
    DeliversOrKeeps s (outputBytes (.rsEncode imm) s) t := by
  cases h
  refine .withOperand fun nroots hroots => .check (by decide) fun _ => .check (by decide) fun _ => ?_
  cases eq_toNat_of_parityOperand hroots
  exact .deliver fun _ => rfl

theorem rsDecode_deliversOrKeeps {imm : Byte} {s t : State} (h : execRsDecode imm s = .next t) :
    DeliversOrKeeps s (outputBytes (.rsDecode imm) s) t := by
  cases h
  refine .withOperand fun nroots hroots => .check (by decide) fun _ => .check (by decide) fun _ => ?_
  cases eq_toNat_of_parityOperand hroots
  split
  · exact .finish (by decide)
  next r hr =>
    have hout : outputBytes (.rsDecode imm) s = r.2 := by
      rw [outputBytes,
        show rsDecode s.cfg imm.toNat (lmemBytes s.lmem s.arg0.toNat (s.arg1.toNat + imm.toNat)) = some r from hr]
    rw [hout]
    exact .deliver fun _ => rfl

theorem fcDecode_deliversOrKeeps {s t : State} (h : execFcDecode s = .next t) :
    DeliversOrKeeps s (outputBytes .fcDecode s) t := by
  cases h
  refine .check (by decide) fun _ => ?_
  split
  next code hcode => exact ⟨fun hok => absurd hok (fcDecode_error_ne_ok hcode), fun _ => rfl⟩
  next d hd =>
    have hout : outputBytes .fcDecode s = d.cmd :: d.payload := by
      rw [outputBytes, show fcDecode s.cfg (sourceBytes s) s.crcStrict = .ok d from hd]
    rw [hout]
    exact .deliver fun _ => rfl

theorem exec_deliversOrKeeps {i : Instr} {s t : State} (h : exec i s = .next t) (hi : storesNothing i = false) :
    DeliversOrKeeps s (outputBytes i s) t := by
  cases i with
  | kissUnescape => exact kissUnescape_deliversOrKeeps h
  | bufPeek imm => exact bufPeek_deliversOrKeeps h
  | rsEncode imm => exact rsEncode_deliversOrKeeps h
  | rsDecode imm => exact rsDecode_deliversOrKeeps h
  | fcDecode => exact fcDecode_deliversOrKeeps h
  | kissEscape => cases h; exact .check (by decide) fun _ => .deliver fun _ => rfl
  | scrBlock => cases h; exact .blockRule (scrambleBlock s.cfg)
  | descrBlock => cases h; exact .blockRule (descrambleBlock s.cfg)
  | hdrBuild => cases h; exact .check (by decide) fun _ => .deliver fun _ => rfl
  | fcEncode => cases h; exact .check (by decide) fun _ => .check (by decide) fun _ => .deliver fun _ => rfl
  | _ => cases hi

/-! ### Every command -/

/-- No byte of a valid region lies at or above the end of LMEM (20_memory.md R70). -/
theorem not_in_region {c : Config} {dst n a : Nat} (region : regionOk c dst n)
    (ha : a < dst ∨ dst + n ≤ a ∨ c.lmemSize ≤ a) : ¬(dst ≤ a ∧ a < dst + n) := by
  rcases region with rfl | hend <;> omega

/-- A byte outside the output of a command reads as before. -/
theorem exec_lmemByte_outside {i : Instr} {s t : State} {a : Nat} (h : exec i s = .next t)
    (ha : a < s.arg2.toNat ∨ s.arg2.toNat + (outputBytes i s).length ≤ a ∨ s.cfg.lmemSize ≤ a) :
    lmemByte t.lmem a = lmemByte s.lmem a := by
  cases hi : storesNothing i with
  | true => rw [exec_lmem_of_storesNothing h hi]
  | false =>
    have hends := exec_deliversOrKeeps h hi
    by_cases hcode : t.status.code = .ok
    · obtain ⟨region, hlmem⟩ := hends.delivers hcode
      rw [hlmem, lmemByte_memWriteBytes, if_neg (not_in_region region ha)]
    · rw [hends.keeps hcode]

end Sys2Proof.Machine
end

section
/-! The obligations of 20_memory.md. -/

namespace Sys2Proof.Proofs

open Sys2Proof.Machine

/-- Settles O7: an access is refused exactly at an address that is not permitted, and nothing faults. -/
theorem accessStepsExactlyWhenPermitted : Obligations.AccessStepsExactlyWhenPermitted := by
  intro s a rest hparams hpending width address ha
  rw [step_of_pending_cons hparams hpending]
  have hrefused := hostAccess_refused_iff ha { s with port := { s.port with pending := rest } }
  exact ⟨fun hpermitted => hostAccess_completes_of_not_refused (mt hrefused.1 (not_not_intro hpermitted)), hrefused.2⟩

/-- Settles O8: each target of a read gives its value, and reading only records it. -/
theorem hostReadHasNoSideEffect : Obligations.HostReadHasNoSideEffect := by
  intro s rest hparams
  refine ⟨fun r hpending => ?_, fun a ha hpending => ?_, fun a halign ha hpending => ?_⟩
  · rw [step_of_pending_cons hparams hpending, ← readReg_setPort s { s.port with pending := rest }]
    exact hostRead_of_reg (accessTarget_regOffset s.cfg r)
  · rw [step_of_pending_cons hparams hpending]
    exact hostRead_of_lmemByte (accessTarget_lmemByte ha)
  · rw [step_of_pending_cons hparams hpending, ← lmemWord_eq]
    exact hostRead_of_lmemWord (accessTarget_lmemWord halign ha)

/-- Settles O9: a write to LMEM stores the bytes its target takes from the value. -/
theorem hostWriteToLmem : Obligations.HostWriteToLmem := by
  intro s v rest hparams
  refine ⟨fun a ha hpending => ⟨_, ?_, stored_memWriteBytes _ _ _⟩,
    fun a halign ha hpending => ⟨_, ?_, stored_memWriteBytes _ _ _⟩⟩
  · rw [step_of_pending_cons hparams hpending]
    exact hostWrite_of_lmemByte (accessTarget_lmemByte ha)
  · rw [step_of_pending_cons hparams hpending]
    exact hostWrite_of_lmemWord (accessTarget_lmemWord halign ha)

/-- Settles O58: a command leaves LMEM as it is or ends OK with its output in a valid region. -/
theorem lmemChangesOnlyAtTheDestination : Obligations.LmemChangesOnlyAtTheDestination := by
  intro i s t h dst out
  refine ⟨exec_lmem_of_storesNothing h, fun hfails => ?_, fun hi hok => ?_, fun a => exec_lmemByte_outside h⟩
  · cases hi : storesNothing i with
    | true => exact exec_lmem_of_storesNothing h hi
    | false => exact (exec_deliversOrKeeps h hi).keeps hfails
  · obtain ⟨region, hlmem⟩ := (exec_deliversOrKeeps h hi).delivers hok
    rw [hlmem]
    exact ⟨region, stored_memWriteBytes _ _ _⟩

end Sys2Proof.Proofs
end

section
/-! The word of a command by its three fields: which fields the word of a command, the mask and the match value of a
row have, and what the opcode map and the decoder answer in terms of them (30_encoding.md R80 to R88). -/

namespace Sys2Proof

/-! ### The fields of a word -/

/-- OPC, IMM8 and RSV cover a word: no bit lies outside them (30_encoding.md R80, R81). -/
theorem word_eq_iff_fields {w v : Word} :
    w = v ↔ rsvField w = rsvField v ∧ immField w = immField v ∧ opcField w = opcField v := by
  refine ⟨fun h => by simp [h], fun ⟨hrsv, himm, hopc⟩ => BitVec.eq_of_getLsbD_eq fun k hk => ?_⟩
  have bit_eq {start len : Nat} (h : w.extractLsb' start len = v.extractLsb' start len) (hstart : start ≤ k)
      (hend : k < start + len) : w.getLsbD k = v.getLsbD k := by
    have hbit := congrArg (BitVec.getLsbD · (k - start)) h
    simpa [BitVec.getLsbD_extractLsb', show k - start < len by omega, Nat.add_sub_of_le hstart] using hbit
  by_cases hopcBit : k < 8
  · exact bit_eq hopc (Nat.zero_le k) (by omega)
  by_cases himmBit : k < 16
  · exact bit_eq himm (by omega) himmBit
  · exact bit_eq hrsv (by omega) hk

@[simp] theorem opcField_encode (i : Instr) : opcField (encode i) = i.opcode :=
  (Laws.fields_of_word i.opcode i.imm8).1

@[simp] theorem immField_encode (i : Instr) : immField (encode i) = i.imm8 :=
  (Laws.fields_of_word i.opcode i.imm8).2.1

@[simp] theorem rsvField_encode (i : Instr) : rsvField (encode i) = 0 :=
  (Laws.fields_of_word i.opcode i.imm8).2.2

theorem eq_encode_iff {w : Word} {i : Instr} :
    w = encode i ↔ rsvField w = 0 ∧ immField w = i.imm8 ∧ opcField w = i.opcode := by
  rw [word_eq_iff_fields, rsvField_encode, immField_encode, opcField_encode]

/-! ### The opcode map -/

/-- The opcode of a command selects its row with every immediate (30_encoding.md R85): the row's opcode and kind are
the command's, and the immediate is kept unless the kind is Z. -/
theorem ofOpcode_row (i : Instr) (imm : Byte) :
    ∃ j, ofOpcode i.opcode imm = some j ∧ j.opcode = i.opcode ∧ j.immKind = i.immKind ∧
      j.imm8 = if i.immKind = .z then 0 else imm := by
  cases i <;> exact ⟨_, rfl, rfl, rfl, rfl⟩

theorem ofOpcode_opcode_imm8 (i : Instr) : ofOpcode i.opcode i.imm8 = some i := by
  cases i <;> rfl

theorem opcode_of_ofOpcode {opc imm : Byte} {i : Instr} (h : ofOpcode opc imm = some i) : i.opcode = opc := by
  unfold ofOpcode at h
  split at h <;> cases h
  all_goals exact BitVec.eq_of_toNat_eq (Eq.symm ‹_›)

/-- The OPC values are distinct (30_encoding.md R86): commands of one opcode are of one kind. -/
theorem immKind_eq_of_opcode_eq {i j : Instr} (h : i.opcode = j.opcode) : i.immKind = j.immKind := by
  obtain ⟨row, hrow, -, hkind, -⟩ := ofOpcode_row i 0
  obtain ⟨row', hrow', -, hkind', -⟩ := ofOpcode_row j 0
  rw [h, hrow'] at hrow
  cases hrow
  exact hkind.symm.trans hkind'

theorem imm8_of_immKind_z {i : Instr} (h : i.immKind = .z) : i.imm8 = 0 := by
  obtain ⟨j, hrow, -, -, himm⟩ := ofOpcode_row i i.imm8
  rw [ofOpcode_opcode_imm8] at hrow
  cases hrow
  exact himm.trans (if_pos h)

/-! ### The decoder -/

theorem decode_of_reservedBits {w : Word} (hrsv : rsvField w ≠ 0) : decode w = .error .reservedBits :=
  if_pos hrsv

theorem decode_of_unassigned {w : Word} (hrsv : rsvField w = 0) (hrow : ofOpcode (opcField w) (immField w) = none) :
    decode w = .error .unassignedOpcode := by
  rw [decode, if_neg (not_not_intro hrsv), hrow]

theorem decode_of_row {w : Word} {j : Instr} (hrsv : rsvField w = 0)
    (hrow : ofOpcode (opcField w) (immField w) = some j) :
    decode w = if j.imm8 = immField w then .ok j else .error .immediateNotZero := by
  rw [decode, if_neg (not_not_intro hrsv), hrow]

theorem decode_eq_ok_iff {w : Word} {i : Instr} :
    decode w = .ok i ↔ rsvField w = 0 ∧ ofOpcode (opcField w) (immField w) = some i ∧ i.imm8 = immField w := by
  constructor
  · intro h
    by_cases hrsv : rsvField w = 0
    · cases hrow : ofOpcode (opcField w) (immField w) with
      | none => rw [decode_of_unassigned hrsv hrow] at h; cases h
      | some j =>
        rw [decode_of_row hrsv hrow] at h
        split at h
        next himm => cases h; exact ⟨hrsv, rfl, himm⟩
        next => cases h
    · rw [decode_of_reservedBits hrsv] at h; cases h
  · rintro ⟨hrsv, hrow, himm⟩
    rw [decode_of_row hrsv hrow, if_pos himm]

/-- The decoder reads exactly the words the encoder writes (30_encoding.md R80, R81, R85, R87). -/
theorem decode_eq_ok_iff_eq_encode {w : Word} {i : Instr} : decode w = .ok i ↔ w = encode i := by
  rw [decode_eq_ok_iff, eq_encode_iff]
  constructor
  · rintro ⟨hrsv, hrow, himm⟩
    exact ⟨hrsv, himm.symm, (opcode_of_ofOpcode hrow).symm⟩
  · rintro ⟨hrsv, himm, hopc⟩
    exact ⟨hrsv, by rw [hopc, himm, ofOpcode_opcode_imm8], himm.symm⟩

theorem decode_error_of_ne_encode {w : Word} (h : ∀ i, w ≠ encode i) : ∃ e, decode w = .error e := by
  cases hw : decode w with
  | ok i => exact absurd (decode_eq_ok_iff_eq_encode.1 hw) (h i)
  | error e => exact ⟨e, rfl⟩

/-! ### Mask and match -/

@[simp] theorem rsvField_and (w v : Word) : rsvField (w &&& v) = rsvField w &&& rsvField v :=
  BitVec.extractLsb'_and

@[simp] theorem immField_and (w v : Word) : immField (w &&& v) = immField w &&& immField v :=
  BitVec.extractLsb'_and

@[simp] theorem opcField_and (w v : Word) : opcField (w &&& v) = opcField w &&& opcField v :=
  BitVec.extractLsb'_and

/-- Every mask covers OPC and RSV; that of kind Z covers IMM8 too (30_encoding.md R86). -/
theorem rowMask_fields (k : ImmKind) :
    rsvField (rowMask k) = BitVec.allOnes 16 ∧ immField (rowMask k) = (if k = .z then BitVec.allOnes 8 else 0) ∧
      opcField (rowMask k) = BitVec.allOnes 8 := by
  cases k <;> decide

/-- A match value is the word of the row's opcode with RSV and IMM8 0 (30_encoding.md R86). -/
theorem rowMatch_eq_word (i : Instr) : rowMatch i = (0#16 ++ (0 : Byte) ++ i.opcode).setWidth 32 := by
  simp [rowMatch, BitVec.setWidth_eq_append]

theorem rowMatch_fields (i : Instr) :
    opcField (rowMatch i) = i.opcode ∧ immField (rowMatch i) = 0 ∧ rsvField (rowMatch i) = 0 := by
  rw [rowMatch_eq_word]
  exact Laws.fields_of_word i.opcode 0

/-- A word matches a row when it has the row's opcode, no reserved bit, and no immediate where the kind is Z
(30_encoding.md R86). -/
theorem and_rowMask_eq_rowMatch_iff {w : Word} {i : Instr} :
    w &&& rowMask i.immKind = rowMatch i ↔
      rsvField w = 0 ∧ (i.immKind = .z → immField w = 0) ∧ opcField w = i.opcode := by
  obtain ⟨hmaskRsv, hmaskImm, hmaskOpc⟩ := rowMask_fields i.immKind
  obtain ⟨hopc, himm, hrsv⟩ := rowMatch_fields i
  rw [word_eq_iff_fields, rsvField_and, immField_and, opcField_and, hmaskRsv, hmaskImm, hmaskOpc, hrsv, himm, hopc,
    BitVec.and_allOnes, BitVec.and_allOnes]
  by_cases hz : i.immKind = .z
  · rw [if_pos hz, BitVec.and_allOnes, forall_prop_of_true hz]
  · simp [hz]

theorem matches_of_decode {w : Word} {i : Instr} (h : decode w = .ok i) :
    w &&& rowMask i.immKind = rowMatch i := by
  obtain ⟨hrsv, himm, hopc⟩ := eq_encode_iff.1 (decode_eq_ok_iff_eq_encode.1 h)
  exact and_rowMask_eq_rowMatch_iff.2 ⟨hrsv, fun hz => himm.trans (imm8_of_immKind_z hz), hopc⟩

/-- A word that matches a row decodes to the row's command with the word's immediate (30_encoding.md R86). -/
theorem decode_of_matches {w : Word} {i : Instr} (h : w &&& rowMask i.immKind = rowMatch i) :
    ∃ j, decode w = .ok j ∧ j.opcode = i.opcode := by
  obtain ⟨hrsv, himm, hopc⟩ := and_rowMask_eq_rowMatch_iff.1 h
  obtain ⟨j, hrow, hj, -, hjimm⟩ := ofOpcode_row i (immField w)
  refine ⟨j, decode_eq_ok_iff.2 ⟨hrsv, by rw [hopc, hrow], ?_⟩, hj⟩
  by_cases hz : i.immKind = .z
  · rw [hjimm, if_pos hz, himm hz]
  · rw [hjimm, if_neg hz]

/-- A word is no command's encoding when it matches no row (30_encoding.md R86, R87). -/
theorem ne_encode_iff_no_row_matches {w : Word} :
    (∀ i, w ≠ encode i) ↔ ∀ i : Instr, w &&& rowMask i.immKind ≠ rowMatch i := by
  refine ⟨fun h i hmatch => ?_, fun h i hw => h i (matches_of_decode (decode_eq_ok_iff_eq_encode.2 hw))⟩
  obtain ⟨j, hdecode, -⟩ := decode_of_matches hmatch
  exact h j (decode_eq_ok_iff_eq_encode.1 hdecode)

/-- The three kinds of illegal word (30_encoding.md R87). -/
theorem ne_encode_iff {w : Word} :
    (∀ i, w ≠ encode i) ↔
      rsvField w ≠ 0 ∨ (∀ i : Instr, i.opcode ≠ opcField w) ∨
        ∃ i : Instr, i.immKind = .z ∧ i.opcode = opcField w ∧ immField w ≠ 0 := by
  simp only [ne_encode_iff_no_row_matches, ne_eq, and_rowMask_eq_rowMatch_iff]
  constructor
  · intro h
    by_contra! hlegal
    obtain ⟨hrsv, ⟨i, hopc⟩, hz⟩ := hlegal
    exact h i ⟨hrsv, fun hkind => hz i hkind hopc, hopc.symm⟩
  · rintro (hbad | hbad | ⟨i, hz, hopc, hbad⟩) j ⟨hrsv, himm, hopcj⟩
    · exact hbad hrsv
    · exact hbad j hopcj.symm
    · exact hbad (himm ((immKind_eq_of_opcode_eq (hopcj.symm.trans hopc.symm)).trans hz))

end Sys2Proof
end

section
/-! A command whose IMM8 selects no operand ends with INVALID_PARAM before its rule looks at anything else
(30_encoding.md R82; 60_exceptions.md R272, R273). -/

namespace Sys2Proof.Machine

/-- A code raised from the prologue leaves the error state (60_exceptions.md R272). -/
theorem prologue_finish_eq_errorState (s : State) (code : ResultCode) : s.prologue.finish code = errorState s code :=
  rfl

theorem withOperand_eq_errorState {α : Type} {operand : Option α} {s : State} {k : α → State}
    (h : operand = none) : s.prologue.withOperand operand k = errorState s .invalidParam := by
  rw [h, State.withOperand_none, prologue_finish_eq_errorState]

/-- Each command of a kind other than Z takes its operand first; a command of kind Z has IMM8 = 0. -/
theorem exec_of_not_wf {i : Instr} (h : i.wf = false) (s : State) : exec i s = .next (errorState s .invalidParam) := by
  cases i with
  | findFrame imm => exact congrArg _ (withOperand_eq_errorState ((bufOperand_eq_none imm).2 h))
  | bufWrite imm => exact congrArg _ (withOperand_eq_errorState ((bufOperand_eq_none imm).2 h))
  | bufPeek imm => exact congrArg _ (withOperand_eq_errorState ((bufOperand_eq_none imm).2 h))
  | bufPop imm => exact congrArg _ (withOperand_eq_errorState ((bufOperand_eq_none imm).2 h))
  | bufClear imm => exact congrArg _ (withOperand_eq_errorState ((bufOperand_eq_none imm).2 h))
  | scrBit imm => exact congrArg _ (withOperand_eq_errorState ((bitOperand_eq_none imm).2 h))
  | descrBit imm => exact congrArg _ (withOperand_eq_errorState ((bitOperand_eq_none imm).2 h))
  | rsEncode imm => exact congrArg _ (withOperand_eq_errorState ((parityOperand_eq_none imm).2 h))
  | rsDecode imm => exact congrArg _ (withOperand_eq_errorState ((parityOperand_eq_none imm).2 h))
  | arbStep imm => exact congrArg _ (withOperand_eq_errorState ((arbOperand_eq_none imm).2 h))
  | _ => exact absurd h (by decide)

end Sys2Proof.Machine
end

section
/-! The obligations of 30_encoding.md. -/

namespace Sys2Proof.Proofs

open Sys2Proof.Machine

/-- Settles O1: decoder and encoder agree field by field, and the fields cover the word. -/
theorem decodeIffEncode : Obligations.DecodeIffEncode := fun _ _ => decode_eq_ok_iff_eq_encode

/-- Settles O2: a row's mask and match value are conditions on the fields, and a match fixes the opcode. -/
theorem rowsByMaskAndMatch : Obligations.RowsByMaskAndMatch := by
  refine ⟨fun w i => matches_of_decode, fun w i => decode_of_matches, fun w i j hi hj => ?_⟩
  obtain ⟨-, -, hopci⟩ := and_rowMask_eq_rowMatch_iff.1 hi
  obtain ⟨-, -, hopcj⟩ := and_rowMask_eq_rowMatch_iff.1 hj
  exact hopci.symm.trans hopcj

/-- Settles O4: a word that matches no row does not decode, and then only ILLEGAL_COMMAND is recorded. -/
theorem illegalWordReported : Obligations.IllegalWordReported := by
  refine fun w => ⟨ne_encode_iff, fun hillegal s => ?_⟩
  obtain ⟨e, hdecode⟩ := decode_error_of_ne_encode hillegal
  rw [execWord_of_decode_error hdecode, prologue_finish_eq_errorState]

/-- Settles O6: the operand is taken before the rest of the rule. -/
theorem immediateOutsideKindRaisesInvalidParam : Obligations.ImmediateOutsideKindRaisesInvalidParam :=
  fun _ s h => exec_of_not_wf h s

/-- Settles O3: the printed words are the encodings of their commands, and decode by `decode_eq_ok_iff_eq_encode`. -/
theorem workedEncodings : Obligations.WorkedEncodings := by
  refine ⟨fun c => rfl, fun c src dlen dst => rfl, fun c => rfl, rfl, rfl, ?_, ?_, ?_, ?_,
    exec_of_not_wf (by decide)⟩
  all_goals exact decode_eq_ok_iff_eq_encode.2 (by decide)

end Sys2Proof.Proofs
end

section
/-! What the push and pop commands do to a buffer besides its content, and what a peek reads of the content
(40_byte_framer.md R103, R105, R106). -/

namespace Sys2Proof.Machine

/-- The drop counter stops at its greatest value (10_state.md R39). -/
theorem dropCount_toNat (d : Half) : (dropCount d).toNat = min (d.toNat + 1) 0xFFFF := by
  unfold dropCount
  split
  next hmax => rw [hmax]; rfl
  next hmax =>
    have hlt : d.toNat < 0xFFFF := by bv_omega
    have hsucc : (d + 1).toNat = d.toNat + 1 := by bv_omega
    rw [hsucc, Nat.min_eq_left hlt]

/-- Every byte that does not fit is reported (40_byte_framer.md R103, R105). -/
theorem bufPushAll_report (cap : Nat) (s : Bytes) {b : Buffer} (acc drop : Nat) :
    (bufPushAll cap s b acc drop).1.ovf = (b.ovf || decide (cap - b.count < s.length)) ∧
      (bufPushAll cap s b acc drop).1.drops.toNat =
        min (b.drops.toNat + (s.length - (cap - b.count))) 0xFFFF := by
  induction s generalizing b acc drop with
  | nil =>
    have hmax := b.drops.isLt
    simp only [bufPushAll, List.length_nil]
    exact ⟨by simp, by omega⟩
  | cons v s ih =>
    unfold bufPushAll
    split
    next hfits =>
      obtain ⟨hovf, hdrops⟩ := ih (b := bufPush cap b v) (acc + 1) drop
      rw [hovf, hdrops, bufPush_count, if_pos hfits, List.length_cons]
      simp only [bufPush, if_pos hfits]
      refine ⟨?_, by omega⟩
      congr 2
      simp only [eq_iff_iff]; omega
    next hfull =>
      have hroom : cap - b.count = 0 := Nat.sub_eq_zero_of_le (Nat.not_lt.1 hfull)
      have saturates (a n m : Nat) : min (min (a + 1) m + n) m = min (a + (n + 1)) m := by omega
      obtain ⟨hovf, hdrops⟩ := ih (b := bufPush cap b v) acc (drop + 1)
      rw [hovf, hdrops, bufPush_count, if_neg hfull, List.length_cons, bufPush_full v hfull, hroom]
      exact ⟨by simp [reportDrop], by rw [reportDrop, dropCount_toNat]; exact saturates ..⟩

/-- Peeks at indices inside the content read the content (40_byte_framer.md R101, R106). -/
theorem map_bufPeek_eq_take_drop (sel : BufSel) (cap : Nat) {b : Buffer} {index len : Nat}
    (h : index + len ≤ b.count) :
    ((List.range len).map fun i => bufPeek sel cap b (index + i)) =
      ((bufContent sel cap b).drop index).take len := by
  refine List.ext_getElem (by simp; omega) fun i hi hi' => ?_
  rw [List.getElem_take, List.getElem_drop, bufContent_getElem, List.getElem_map, List.getElem_range]

end Sys2Proof.Machine
end

section
/-! The buffer commands from the IMM8 that selects their buffer on: what they answer on each outcome of their checks
(30_encoding.md R82; 40_byte_framer.md R105 to R108, R116). -/

namespace Sys2Proof.Machine

@[simp] theorem bufOperand_bufNumber (sel : BufSel) : bufOperand (bufNumber sel) = some sel := by
  cases sel <;> rfl

/-- Only 0 and 1 select a buffer (30_encoding.md R82). -/
theorem not_wf_of_buf {i : Instr} (hkind : i.immKind = .buf) (h : 1 < i.imm8.toNat) : i.wf = false := by
  have hzero : i.imm8 ≠ 0 := by bv_omega
  have hone : i.imm8 ≠ 1 := by bv_omega
  rw [Instr.wf, hkind, ImmKind.allows, decide_eq_false hzero, decide_eq_false hone, Bool.or_false]

theorem withOperand_bufNumber (s : State) (sel : BufSel) (k : BufSel → State) :
    s.withOperand (bufOperand (bufNumber sel)) k = k sel := by
  rw [bufOperand_bufNumber, State.withOperand_some]

/-- A command whose output fits at its destination ends OK with the output written (20_memory.md R70). -/
theorem State.deliver_of_region {s : State} {dst : Nat} {bytes : Bytes} (k : State → State)
    (h : regionOk s.cfg dst bytes.length) :
    s.prologue.deliver dst bytes k = (k (s.prologue.memWrite dst bytes)).finish .ok :=
  State.check_pos _ _ _ h

theorem State.deliver_of_not_region {s : State} {dst : Nat} {bytes : Bytes} (k : State → State)
    (h : ¬regionOk s.cfg dst bytes.length) : s.prologue.deliver dst bytes k = errorState s .addressError :=
  State.check_neg _ _ _ h

/-! ### BUF_WRITE -/

theorem exec_bufWrite_of_not_region {s : State} (sel : BufSel) (h : ¬regionOk s.cfg s.arg0.toNat s.arg1.toNat) :
    exec (.bufWrite (bufNumber sel)) s = .next (errorState s .addressError) :=
  congrArg _ ((withOperand_bufNumber ..).trans (State.check_neg _ _ _ h))

theorem exec_bufWrite_of_region {s : State} (sel : BufSel) {b : Buffer} {accepted dropped : Nat}
    (h : regionOk s.cfg s.arg0.toNat s.arg1.toNat)
    (hpush : bufPushAll (bufCap s.cfg sel) (sourceBytes s) (s.buf sel) 0 0 = (b, accepted, dropped)) :
    exec (.bufWrite (bufNumber sel)) s =
      .next ((resultState s (if 0 < dropped then .bufferOverflow else .ok) (toWord accepted) (toWord dropped)
        0).setBuf sel b) := by
  refine congrArg _ ((withOperand_bufNumber ..).trans ((State.check_pos _ _ _ h).trans ?_))
  have hpush' : bufPushAll (bufCap s.cfg sel) (s.prologue.memRead s.arg0.toNat s.arg1.toNat) (s.prologue.buf sel) 0 0 =
      (b, accepted, dropped) := by rw [State.buf_prologue]; exact hpush
  simp only [State.prologue_cfg, State.prologue_arg0, State.prologue_arg1, hpush']
  cases sel <;> rfl

/-! ### BUF_PEEK -/

theorem exec_bufPeek_of_not_held {s : State} {sel : BufSel}
    (h : ¬s.arg0.toNat + s.arg1.toNat ≤ (s.buf sel).count) :
    exec (.bufPeek (bufNumber sel)) s = .next (errorState s .invalidLength) :=
  congrArg _ ((withOperand_bufNumber ..).trans (State.check_neg _ _ _ (by simpa using h)))

/-- BUF_PEEK of bytes the buffer holds is a delivery of that part of the content (40_byte_framer.md R106). -/
theorem exec_bufPeek_of_held {s : State} {sel : BufSel} (h : s.arg0.toNat + s.arg1.toNat ≤ (s.buf sel).count) :
    exec (.bufPeek (bufNumber sel)) s =
      .next (s.prologue.deliver s.arg2.toNat (((s.content sel).drop s.arg0.toNat).take s.arg1.toNat)
        fun t => { t with result0 := s.arg1 }) := by
  refine congrArg _ ((withOperand_bufNumber ..).trans ((State.check_pos _ _ _ (by simpa using h)).trans ?_))
  rw [State.content, ← map_bufPeek_eq_take_drop sel _ h, ← State.buf_prologue s]
  rfl

/-! ### BUF_POP, BUF_CLEAR and FIND_FRAME -/

theorem exec_bufPop_of_not_held {s : State} {sel : BufSel} (h : ¬s.arg1.toNat ≤ (s.buf sel).count) :
    exec (.bufPop (bufNumber sel)) s = .next (errorState s .invalidLength) :=
  congrArg _ ((withOperand_bufNumber ..).trans (State.check_neg _ _ _ (by simpa using h)))

theorem exec_bufPop_of_held {s : State} {sel : BufSel} (h : s.arg1.toNat ≤ (s.buf sel).count) :
    exec (.bufPop (bufNumber sel)) s =
      .next ((resultState s .ok s.arg1 0 0).setBuf sel
        (bufPopN (bufCap s.cfg sel) s.arg1.toNat (s.buf sel))) := by
  refine congrArg _ ((withOperand_bufNumber ..).trans ((State.check_pos _ _ _ (by simpa using h)).trans ?_))
  cases sel <;> rfl

theorem exec_bufClear (s : State) (sel : BufSel) :
    exec (.bufClear (bufNumber sel)) s =
      .next ((resultState s .ok (toWord (s.buf sel).count) 0 0).setBuf sel (bufEmpty (s.buf sel))) := by
  refine congrArg _ ((withOperand_bufNumber ..).trans ?_)
  cases sel <;> rfl

theorem exec_findFrame (s : State) (sel : BufSel) {f : Found} (h : findFrame (bufCap s.cfg sel) (s.content sel) = f) :
    exec (.findFrame (bufNumber sel)) s =
      .next (({ resultState s .ok (toWord (f.length.getD 0)) (toWord f.disc) 0 with
        status := { code := if f.length = none then .notFound else .ok, crcBad := false, noTrailer := false,
                    discarded := decide (0 < f.disc) } } : State).setBuf sel
          (bufPopN (bufCap s.cfg sel) f.disc (s.buf sel))) := by
  subst h
  refine congrArg _ ((withOperand_bufNumber ..).trans ?_)
  have hcode (r : Option Nat) :
      (if r.isSome then ResultCode.ok else .notFound) = if r = none then .notFound else .ok := by
    cases r <;> rfl
  simp only [State.content_prologue, hcode]
  cases sel <;> rfl

end Sys2Proof.Machine
end

section
/-! What a command can do to the content of a buffer (40_byte_framer.md R104). -/

namespace Sys2Proof.Machine

/-- Replacing a buffer changes the content of no other: a relation of its old to its new content that is reflexive
holds for every buffer. -/
theorem State.content_rel_setBuf {r : Bytes → Bytes → Prop} (hr : ∀ c, r c c) {s : State} {sel' : BufSel}
    {b : Buffer} (h : r (s.content sel') (bufContent sel' (bufCap s.cfg sel') b)) (sel : BufSel) :
    r (s.content sel) ((s.setBuf sel' b).content sel) := by
  by_cases hsel : sel = sel'
  · subst hsel
    rwa [State.content, State.content, State.buf_setBuf, State.setBuf_cfg]
  · rw [State.content, State.content, State.buf_setBuf_ne s b hsel, State.setBuf_cfg]
    exact hr _

namespace CommandEffect

variable {i : Instr} {s u : State}

/-- BUF_WRITE puts bytes behind the content. -/
theorem content_prefix {imm : Byte} (e : CommandEffect s (.bufWrite imm) u) (hs : s.Inv) (sel : BufSel) :
    s.content sel <+: u.content sel := by
  cases e with
  | results => exact List.prefix_rfl
  | stored _ _ hi => cases hi
  | pushed _ sel' =>
    refine State.content_rel_setBuf (r := (· <+: ·)) (fun _ => List.prefix_rfl) ?_ sel
    obtain ⟨hcount, -⟩ := hs.bufWf sel'
    obtain ⟨hcontent, -⟩ := bufPushAll_spec sel' (sourceBytes s) 0 0 hcount
    rw [hcontent]
    exact List.prefix_append _ _
  | popped _ _ hi => exact absurd hi nofun

/-- Every other command takes bytes from the head of the content, or leaves it. -/
theorem content_suffix (e : CommandEffect s i u) (hi : ∀ imm, i ≠ .bufWrite imm) (sel : BufSel) :
    u.content sel <:+ s.content sel := by
  have setBuf {sel' : BufSel} {b : Buffer}
      (h : bufContent sel' (bufCap s.cfg sel') b <:+ s.content sel') :
      (s.setBuf sel' b).content sel <:+ s.content sel :=
    State.content_rel_setBuf (r := fun old new => new <:+ old) (fun _ => List.suffix_rfl) h sel
  cases e with
  | pushed imm => exact absurd rfl (hi imm)
  | popped _ _ _ sel' n => exact setBuf (bufPopN_content sel' _ n _ ▸ List.drop_suffix _ _)
  | emptied _ sel' => exact setBuf List.nil_suffix
  | reset => cases sel <;> exact List.nil_suffix
  | _ => cases sel <;> exact List.suffix_rfl

end CommandEffect

end Sys2Proof.Machine
end

section
/-! The obligations of 40_byte_framer.md on the buffers. -/

namespace Sys2Proof.Proofs

open Sys2Proof.Machine

/-- Settles O20: BUF_CLEAR has one outcome, and its operand is taken first. -/
theorem bufClearResult : Obligations.BufClearResult :=
  fun s => ⟨exec_bufClear s, fun imm himm => exec_of_not_wf (i := .bufClear imm) (not_wf_of_buf rfl himm) s⟩

/-- Settles O19: n pops remove n bytes from the head and touch neither the store nor the report. -/
theorem bufPopResult : Obligations.BufPopResult := by
  intro s sel
  refine ⟨exec_bufPop_of_not_held, fun hheld => ⟨_, exec_bufPop_of_held hheld, ?_⟩,
    fun imm himm => exec_of_not_wf (i := .bufPop imm) (not_wf_of_buf rfl himm) s⟩
  exact ⟨bufPopN_content .., bufPopN_store .., bufPopN_ovf .., bufPopN_drops ..⟩

/-- Settles O17: what the pushes leave in the content and in the report, byte by byte. -/
theorem bufWriteResult : Obligations.BufWriteResult := by
  intro s sel hwf
  obtain ⟨hcount, -⟩ := hwf
  refine ⟨exec_bufWrite_of_not_region sel, fun hregion => ?_,
    fun imm himm => exec_of_not_wf (i := .bufWrite imm) (not_wf_of_buf rfl himm) s⟩
  obtain ⟨hcontent, haccepted, hdropped⟩ := bufPushAll_spec sel (sourceBytes s) 0 0 hcount
  obtain ⟨hovf, hdrops⟩ := bufPushAll_report (bufCap s.cfg sel) (sourceBytes s) (b := s.buf sel) 0 0
  have hlen : (sourceBytes s).length = s.arg1.toNat := lmemBytes_length ..
  rw [hlen] at haccepted hdropped hovf hdrops
  refine ⟨_, ?_, hcontent, hovf, hdrops⟩
  rw [exec_bufWrite_of_region sel hregion rfl, haccepted, hdropped]
  simp only [Nat.zero_add, Nat.sub_pos_iff_lt]

/-- Settles O18: BUF_PEEK delivers a part of the content. -/
theorem bufPeekResult : Obligations.BufPeekResult := by
  intro s sel
  have hlen (hheld : s.arg0.toNat + s.arg1.toNat ≤ (s.buf sel).count) :
      (((s.content sel).drop s.arg0.toNat).take s.arg1.toNat).length = s.arg1.toNat := by
    simp only [State.content, List.length_take, List.length_drop, bufContent_length]
    omega
  refine ⟨exec_bufPeek_of_not_held, fun hheld hregion => ?_,
    fun hheld hregion => ⟨_, ?_, stored_memWriteBytes _ _ _⟩,
    fun imm himm => exec_of_not_wf (i := .bufPeek imm) (not_wf_of_buf rfl himm) s⟩
  · rw [exec_bufPeek_of_held hheld, State.deliver_of_not_region _ (by rwa [hlen hheld])]
  · rw [exec_bufPeek_of_held hheld, State.deliver_of_region _ (by rwa [hlen hheld])]
    rfl

/-- Settles O21: good states stay good, and the effect of a command on a content is a push, a pop or nothing. -/
theorem noCommandOverwritesContent : Obligations.NoCommandOverwritesContent := by
  intro i s t sel hs h
  obtain ⟨hcount, -⟩ := (exec_inv h hs).bufWf sel
  obtain ⟨u, e, heq⟩ := exec_endsIn h
  have hcontent : t.content sel = u.content sel :=
    eq_of_prologue_eq heq (State.content · sel) fun v => v.content_prologue sel
  rw [hcontent]
  refine ⟨hcount, ?_, fun hi => e.content_suffix hi sel⟩
  rintro ⟨imm, rfl⟩
  exact e.content_prefix hs sel

/-- Settles O22: FIND_FRAME pops what find_frame discards. -/
theorem findFrameResult : Obligations.FindFrameResult := by
  intro s sel
  refine ⟨⟨_, exec_findFrame s sel rfl, ?_⟩,
    fun imm himm => exec_of_not_wf (i := .findFrame imm) (not_wf_of_buf rfl himm) s⟩
  exact ⟨bufPopN_content .., bufPopN_store .., bufPopN_ovf .., bufPopN_drops ..⟩

end Sys2Proof.Proofs
end
section
/-! The rules of escaping and unescaping, byte by byte, and that unescaping undoes escaping (40_byte_framer.md R109,
R111, R113). -/

namespace Sys2Proof.Machine

/-! ### Escaping -/

theorem escByte_plain {v : Byte} (hfend : v ≠ fend) (hfesc : v ≠ fesc) : escByte v = [v] := by
  rw [escByte, if_neg hfend, if_neg hfesc]

/-- The three kinds of payload byte (40_byte_framer.md R109). -/
theorem escByte_cases (v : Byte) : v = fend ∨ v = fesc ∨ v ≠ fend ∧ v ≠ fesc := by
  by_cases hfend : v = fend
  · exact .inl hfend
  · by_cases hfesc : v = fesc
    · exact .inr (.inl hfesc)
    · exact .inr (.inr ⟨hfend, hfesc⟩)

theorem fend_not_mem_escByte (v : Byte) : fend ∉ escByte v := by
  rcases escByte_cases v with rfl | rfl | ⟨hfend, hfesc⟩
  · decide
  · decide
  · rw [escByte_plain hfend hfesc, List.mem_singleton]
    exact hfend.symm

theorem escByte_length (v : Byte) : (escByte v).length = if v = fend || v = fesc then 2 else 1 := by
  rcases escByte_cases v with rfl | rfl | ⟨hfend, hfesc⟩
  · rfl
  · rfl
  · simp [escByte_plain, hfend, hfesc]

theorem fend_not_mem_flatMap_escByte (p : Bytes) : fend ∉ p.flatMap escByte := by
  rw [List.mem_flatMap]
  rintro ⟨v, -, hv⟩
  exact fend_not_mem_escByte v hv

/-- One byte more for every delimiter or escape byte (00_scope.md R18). -/
theorem flatMap_escByte_length (p : Bytes) :
    (p.flatMap escByte).length = p.length + p.countP (fun v => v = fend || v = fesc) := by
  induction p with
  | nil => rfl
  | cons v p ih =>
    rw [List.flatMap_cons, List.length_append, ih, escByte_length, List.countP_cons, List.length_cons]
    split <;> omega

theorem escape_length (p : Bytes) :
    (escape p).length = p.length + 2 + p.countP (fun v => v = fend || v = fesc) := by
  rw [escape, List.length_cons, List.length_append, flatMap_escByte_length, List.length_singleton]
  omega

/-! ### Unescaping -/

theorem unescapeLoop_fend (w : Bytes) :
    unescapeLoop (fend :: w) = some { out := [], noTrailer := false, used := 1 } := by
  cases w <;> rfl

theorem unescapeLoop_plain {v : Byte} (hfend : v ≠ fend) (hfesc : v ≠ fesc) (w : Bytes) :
    unescapeLoop (v :: w) = (unescapeLoop w).map (unescapedCons v 1) := by
  cases w with
  | nil => exact (if_neg hfend).trans (if_neg hfesc)
  | cons t w => rw [unescapeLoop, if_neg hfend, if_neg hfesc]

/-- The loop reads an escaped byte back as the byte it stands for (40_byte_framer.md R109, R111). -/
theorem unescapeLoop_escByte (v : Byte) (w : Bytes) :
    unescapeLoop (escByte v ++ w) = (unescapeLoop w).map (unescapedCons v (escByte v).length) := by
  rcases escByte_cases v with rfl | rfl | ⟨hfend, hfesc⟩
  · rfl
  · rfl
  · rw [escByte_plain hfend hfesc]
    exact unescapeLoop_plain hfend hfesc w

/-- The loop on an escaped payload and its closing delimiter (40_byte_framer.md R113). -/
theorem unescapeLoop_escaped (p : Bytes) :
    unescapeLoop (p.flatMap escByte ++ [fend]) =
      some { out := p, noTrailer := false, used := (p.flatMap escByte).length + 1 } := by
  induction p with
  | nil => exact unescapeLoop_fend []
  | cons v p ih =>
    rw [List.flatMap_cons, List.append_assoc, unescapeLoop_escByte, ih, List.length_append]
    simp only [Option.map_some, unescapedCons, Option.some.injEq, Unescaped.mk.injEq, true_and]
    omega

theorem unescape_fend_cons (w : Bytes) :
    unescape (fend :: w) = (unescapeLoop w).map fun u => { u with used := u.used + 1 } := by
  rw [unescape, if_pos rfl]

theorem unescape_escape (p : Bytes) :
    unescape (escape p) = some { out := p, noTrailer := false, used := (escape p).length } := by
  rw [escape, unescape_fend_cons, unescapeLoop_escaped, Option.map_some, List.length_cons, List.length_append,
    List.length_singleton]

/-! ### The commands -/

theorem exec_kissEscape_of_not_region {s : State} (h : ¬regionOk s.cfg s.arg0.toNat s.arg1.toNat) :
    exec .kissEscape s = .next (errorState s .addressError) :=
  congrArg _ (State.check_neg _ _ _ h)

theorem exec_kissEscape_of_region {s : State} (h : regionOk s.cfg s.arg0.toNat s.arg1.toNat) :
    exec .kissEscape s =
      .next (s.prologue.deliver s.arg2.toNat (escape (sourceBytes s))
        fun t => { t with result0 := toWord (escape (sourceBytes s)).length }) :=
  congrArg _ (State.check_pos _ _ _ h)

theorem exec_kissUnescape_of_not_region {s : State} (h : ¬regionOk s.cfg s.arg0.toNat s.arg1.toNat) :
    exec .kissUnescape s = .next (errorState s .addressError) :=
  congrArg _ (State.check_neg _ _ _ h)

theorem exec_kissUnescape_of_corrupt {s : State} (h : regionOk s.cfg s.arg0.toNat s.arg1.toNat)
    (hcorrupt : unescape (sourceBytes s) = none) :
    exec .kissUnescape s = .next (errorState s .frameCorrupt) := by
  refine congrArg _ ((State.check_pos _ _ _ h).trans ?_)
  rw [show s.prologue.memRead s.prologue.arg0.toNat s.prologue.arg1.toNat = sourceBytes s from rfl, hcorrupt]
  rfl

theorem exec_kissUnescape_of_clean {s : State} {u : Unescaped} (h : regionOk s.cfg s.arg0.toNat s.arg1.toNat)
    (hclean : unescape (sourceBytes s) = some u) :
    exec .kissUnescape s =
      .next (s.prologue.deliver s.arg2.toNat u.out fun t =>
        { t with result0 := toWord u.out.length, result1 := toWord u.used,
                 status := { t.status with noTrailer := u.noTrailer } }) := by
  refine congrArg _ ((State.check_pos _ _ _ h).trans ?_)
  rw [show s.prologue.memRead s.prologue.arg0.toNat s.prologue.arg1.toNat = sourceBytes s from rfl, hclean]
  rfl

end Sys2Proof.Machine
end

section
/-! What find_frame makes of a content, by the shape of the content: noise, repeated opening delimiters, and what
follows the last of them (40_byte_framer.md R114, R115). -/

namespace Sys2Proof.Machine

/-! ### The two steps that discard -/

theorem dropNoise_of_not_mem {c : Bytes} (h : fend ∉ c) : dropNoise c = [] :=
  List.dropWhile_eq_nil_iff.2 fun _ hv => decide_eq_true (ne_of_mem_of_not_mem hv h)

theorem dropNoise_append_fend {noise : Bytes} (h : fend ∉ noise) (c : Bytes) :
    dropNoise (noise ++ fend :: c) = fend :: c := by
  have hnoise : noise.dropWhile (· ≠ fend) = [] := dropNoise_of_not_mem h
  rw [dropNoise, List.dropWhile_append, hnoise]
  rfl

/-- Duplicates of the opening delimiter go; the last one stays (40_byte_framer.md R114, step (2)). -/
theorem collapseRun_replicate (k : Nat) {rest : Bytes} (h : rest.head? ≠ some fend) :
    collapseRun (List.replicate k fend ++ fend :: rest) = fend :: rest := by
  induction k with
  | zero =>
    cases rest with
    | nil => rfl
    | cons v rest =>
      have hv : v ≠ fend := fun e => h (congrArg some e)
      exact if_neg hv
  | succ k ih =>
    have hcollapse : collapseRun (fend :: (List.replicate k fend ++ fend :: rest)) =
        collapseRun (List.replicate k fend ++ fend :: rest) := by
      cases k <;> exact if_pos rfl
    exact hcollapse.trans ih

theorem collapseRun_dropNoise {noise rest : Bytes} (k : Nat) (hnoise : fend ∉ noise)
    (hrest : rest.head? ≠ some fend) :
    collapseRun (dropNoise (noise ++ (List.replicate k fend ++ fend :: rest))) = fend :: rest := by
  have hdrop : dropNoise (noise ++ (List.replicate k fend ++ fend :: rest)) =
      List.replicate k fend ++ fend :: rest := by
    cases k <;> exact dropNoise_append_fend hnoise _
  rw [hdrop, collapseRun_replicate k hrest]

/-! ### The shapes of a content -/

/-- What a content holds: no delimiter; an opening delimiter and no other after it; or an opening and a closing
delimiter with a body between them. Noise and duplicates of the opening delimiter may stand in front. -/
inductive ContentShape : Bytes → Prop
  | noise {c : Bytes} (h : fend ∉ c) : ContentShape c
  | opened {noise body : Bytes} (k : Nat) (hnoise : fend ∉ noise) (hbody : fend ∉ body) :
      ContentShape (noise ++ (List.replicate k fend ++ fend :: body))
  | closed {noise body : Bytes} (k : Nat) (tail : Bytes) (hnoise : fend ∉ noise) (hbody : fend ∉ body)
      (hne : body ≠ []) : ContentShape (noise ++ (List.replicate k fend ++ fend :: (body ++ fend :: tail)))

/-- Every content has one of the shapes after its first delimiter: induction along the run of delimiters. -/
theorem contentShape_of_fend {noise : Bytes} (hnoise : fend ∉ noise) (k : Nat) (rest : Bytes) :
    ContentShape (noise ++ (List.replicate k fend ++ fend :: rest)) := by
  induction rest generalizing k with
  | nil => exact .opened k hnoise List.not_mem_nil
  | cons v rest ih =>
    by_cases hv : v = fend
    · have hrun : List.replicate k fend ++ fend :: v :: rest = List.replicate (k + 1) fend ++ fend :: rest := by
        rw [hv, List.replicate_succ', List.append_assoc]
        rfl
      rw [hrun]
      exact ih (k + 1)
    · by_cases hmem : fend ∈ v :: rest
      · obtain ⟨body, tail, hsplit, hbody⟩ := List.eq_append_cons_of_mem hmem
        rw [hsplit]
        refine .closed k tail hnoise hbody ?_
        rintro rfl
        exact hv (List.cons.inj hsplit).1
      · exact .opened k hnoise hmem

theorem contentShape (c : Bytes) : ContentShape c := by
  by_cases h : fend ∈ c
  · obtain ⟨noise, rest, rfl, hnoise⟩ := List.eq_append_cons_of_mem h
    exact contentShape_of_fend hnoise 0 rest
  · exact .noise h

/-! ### find_frame on each shape -/

theorem findFrame_of_noise (cap : Nat) {c : Bytes} (h : fend ∉ c) :
    findFrame cap c = { length := none, disc := c.length } := by
  rw [findFrame, dropNoise_of_not_mem h]
  rfl

theorem preamble_length (noise rest : Bytes) (k : Nat) :
    (noise ++ (List.replicate k fend ++ rest)).length - rest.length = noise.length + k := by
  simp only [List.length_append, List.length_replicate]
  omega

theorem head?_ne_of_not_mem {body : Bytes} (h : fend ∉ body) : body.head? ≠ some fend :=
  fun e => h (List.mem_of_head? e)

theorem findIdx?_fend_of_not_mem {body : Bytes} (h : fend ∉ body) : body.findIdx? (· = fend) = none :=
  List.findIdx?_eq_none_iff.2 fun _ hv => decide_eq_false (ne_of_mem_of_not_mem hv h)

/-- An opening delimiter alone stays, unless what it opens fills the buffer (40_byte_framer.md R114). -/
theorem findFrame_of_opened (cap k : Nat) {noise body : Bytes} (hnoise : fend ∉ noise) (hbody : fend ∉ body) :
    findFrame cap (noise ++ (List.replicate k fend ++ fend :: body)) =
      { length := none,
        disc := if (fend :: body).length = cap then (noise ++ (List.replicate k fend ++ fend :: body)).length
          else noise.length + k } := by
  simp only [findFrame, collapseRun_dropNoise k hnoise (head?_ne_of_not_mem hbody), findIdx?_fend_of_not_mem hbody,
    preamble_length]
  split <;> rfl

/-- A closed frame is found behind its preamble, whatever follows it (40_byte_framer.md R114). -/
theorem findFrame_of_closed (cap k : Nat) {noise body : Bytes} (tail : Bytes) (hnoise : fend ∉ noise)
    (hbody : fend ∉ body) (hne : body ≠ []) :
    findFrame cap (noise ++ (List.replicate k fend ++ fend :: (body ++ fend :: tail))) =
      { length := some (body.length + 2), disc := noise.length + k } := by
  have hhead : (body ++ fend :: tail).head? ≠ some fend := by
    rw [List.head?_append_of_ne_nil _ hne]
    exact head?_ne_of_not_mem hbody
  have hclosing : (body ++ fend :: tail).findIdx? (· = fend) = some body.length := by
    simp [List.findIdx?_append, findIdx?_fend_of_not_mem hbody, List.findIdx?_cons]
  simp only [findFrame, collapseRun_dropNoise k hnoise hhead, hclosing, preamble_length]

/-! ### What is discarded and what stays -/

theorem drop_preamble (noise rest : Bytes) (k : Nat) :
    (noise ++ (List.replicate k fend ++ rest)).drop (noise.length + k) = rest := by
  rw [← List.append_assoc]
  exact List.drop_left' (by simp)

theorem take_preamble (noise rest : Bytes) (k : Nat) :
    (noise ++ (List.replicate k fend ++ rest)).take (noise.length + k) = noise ++ List.replicate k fend := by
  rw [← List.append_assoc]
  exact List.take_left' (by simp)

end Sys2Proof.Machine
end

section
/-! The obligations of 40_byte_framer.md on the ByteFramer. -/

namespace Sys2Proof.Proofs

open Sys2Proof.Machine

/-- Settles O26: escaping works byte by byte, and no escaped byte is a delimiter. -/
theorem escapeShape : Obligations.EscapeShape := by
  intro p
  have hlength := escape_length p
  have hcount := List.countP_le_length (p := fun v => v = fend || v = fesc) (l := p)
  exact ⟨⟨_, rfl, fend_not_mem_flatMap_escByte p⟩, hlength, by omega, by omega⟩

/-- Settles O27: by induction on the payload, in `unescapeLoop_escaped`. -/
theorem unescapeEscapeRoundTrip : Obligations.UnescapeEscapeRoundTrip := unescape_escape

/-- Settles O28: the source check, then the delivery of the escaped bytes. -/
theorem kissEscapeResult : Obligations.KissEscapeResult := by
  intro s
  refine ⟨exec_kissEscape_of_not_region, fun hsource hdst => ?_,
    fun hsource hdst => ⟨_, ?_, stored_memWriteBytes _ _ _⟩⟩
  · exact (exec_kissEscape_of_region hsource).trans (congrArg _ (State.deliver_of_not_region _ hdst))
  · exact (exec_kissEscape_of_region hsource).trans (congrArg _ (State.deliver_of_region _ hdst))

/-- Settles O29: the source check, unescaping, then the delivery of the payload. -/
theorem kissUnescapeResult : Obligations.KissUnescapeResult := by
  intro s
  refine ⟨exec_kissUnescape_of_not_region, exec_kissUnescape_of_corrupt, fun u hsource hclean hdst => ?_,
    fun u hsource hclean hdst => ⟨_, ?_, stored_memWriteBytes _ _ _⟩⟩
  · exact (exec_kissUnescape_of_clean hsource hclean).trans (congrArg _ (State.deliver_of_not_region _ hdst))
  · exact (exec_kissUnescape_of_clean hsource hclean).trans (congrArg _ (State.deliver_of_region _ hdst))

/-- Settles O23: a length is found only in a content with a closing delimiter. -/
theorem foundFrameIsDelimited : Obligations.FoundFrameIsDelimited := by
  intro cap c len disc hfound
  cases contentShape c with
  | noise h => rw [findFrame_of_noise cap h] at hfound; cases hfound
  | opened k hnoise hbody => rw [findFrame_of_opened cap k hnoise hbody] at hfound; cases hfound
  | @closed noise body k tail hnoise hbody hne =>
    rw [findFrame_of_closed cap k tail hnoise hbody hne] at hfound
    cases hfound
    have hpos := List.length_pos_of_ne_nil hne
    refine ⟨by omega, ⟨body, ?_, rfl, hbody⟩, noise, k, take_preamble .., hnoise⟩
    have hframe : fend :: (body ++ fend :: tail) = (fend :: (body ++ [fend])) ++ tail := by simp
    rw [drop_preamble, hframe]
    exact List.take_left' (by simp)

/-- Settles O24: nothing is found only in a content without a closing delimiter. -/
theorem noFrameMeansNoClosingDelimiter : Obligations.NoFrameMeansNoClosingDelimiter := by
  intro cap c disc hfits hnone
  cases contentShape c with
  | noise h =>
    rw [findFrame_of_noise cap h] at hnone
    cases hnone
    exact .inr ⟨rfl, .inl h⟩
  | @opened noise body k hnoise hbody =>
    rw [findFrame_of_opened cap k hnoise hbody] at hnone
    cases hnone
    by_cases hfull : (fend :: body).length = cap
    · simp only [List.length_append, List.length_replicate] at hfits
      obtain rfl : noise = [] := List.length_eq_zero_iff.1 (by omega)
      obtain rfl : k = 0 := by omega
      rw [if_pos hfull]
      exact .inr ⟨rfl, .inr ⟨body, rfl, hbody, hfull⟩⟩
    · simp only [List.length_append] at hfits
      rw [if_neg hfull]
      exact .inl ⟨noise, body, k, (List.append_assoc ..).symm, hnoise, hbody, rfl, by omega⟩
  | closed k tail hnoise hbody hne => rw [findFrame_of_closed cap k tail hnoise hbody hne] at hnone; cases hnone

/-- Settles O25: both contents are a preamble and the same closed frame. -/
theorem findFrameRobust : Obligations.FindFrameRobust := by
  intro cap k z d c hz hk hc hd hfits content frame
  obtain ⟨k, rfl⟩ := Nat.exists_eq_add_of_le' hk
  have hbody : fend ∉ c :: d := List.not_mem_cons_of_ne_of_not_mem hc.symm hd
  have hcontent : content = z ++ (List.replicate k fend ++ fend :: ((c :: d) ++ fend :: [])) := by
    simp [content, List.replicate_succ']
  have hframe : frame = [] ++ (List.replicate 0 fend ++ fend :: ((c :: d) ++ fend :: [])) := by
    simp [frame]
  have hfound := findFrame_of_closed cap k [] hz hbody (List.cons_ne_nil c d)
  rw [← hcontent] at hfound
  refine ⟨by rw [hfound]; rfl, ?_, ?_⟩
  · rw [hfound, hcontent]
    exact drop_preamble ..
  · rw [hframe]
    exact findFrame_of_closed cap 0 [] List.not_mem_nil hbody (List.cons_ne_nil c d)

end Sys2Proof.Proofs
end

section
/-! The block functions as one run of a bit function over the bits of a block: runs compose, and bytes and their bits
are two forms of the same block (41_scrambler.md R145, R146). -/

namespace Sys2Proof.Machine

/-! ### Bytes and bits -/

theorem bitsByte_byteBits (v : Byte) :
    bitsByte (v.getLsbD 7) (v.getLsbD 6) (v.getLsbD 5) (v.getLsbD 4) (v.getLsbD 3) (v.getLsbD 2) (v.getLsbD 1)
      (v.getLsbD 0) = v := by
  revert v; decide +kernel

theorem byteBits_bitsByte (b7 b6 b5 b4 b3 b2 b1 b0 : Bool) :
    byteBits (bitsByte b7 b6 b5 b4 b3 b2 b1 b0) = [b7, b6, b5, b4, b3, b2, b1, b0] := by
  revert b7 b6 b5 b4 b3 b2 b1 b0; decide +kernel

theorem bytesOf_byteBits_append (v : Byte) (y : List Bool) : bytesOf (byteBits v ++ y) = v :: bytesOf y :=
  congrArg (· :: bytesOf y) (bitsByte_byteBits v)

theorem bytesOf_bitsOf (p : Bytes) : bytesOf (bitsOf p) = p := by
  induction p with
  | nil => rfl
  | cons v p ih => rw [bitsOf, List.flatMap_cons, bytesOf_byteBits_append, ← bitsOf, ih]

theorem bitsOf_bytesOf (n : Nat) (y : List Bool) (h : y.length = 8 * n) : bitsOf (bytesOf y) = y := by
  induction n generalizing y with
  | zero =>
    obtain rfl : y = [] := List.length_eq_zero_iff.1 h
    rfl
  | succ n ih =>
    match y, h with
    | b7 :: b6 :: b5 :: b4 :: b3 :: b2 :: b1 :: b0 :: y, h =>
      have hrest : y.length = 8 * n := by simp only [List.length_cons] at h; omega
      rw [bytesOf, bitsOf, List.flatMap_cons, byteBits_bitsByte, ← bitsOf, ih y hrest]
      rfl

/-! ### Runs -/

theorem shiftRun_append (f : ShiftFn) (xs ys : List Bool) (s : Word) :
    shiftRun f (xs ++ ys) s =
      ((shiftRun f xs s).1 ++ (shiftRun f ys (shiftRun f xs s).2).1, (shiftRun f ys (shiftRun f xs s).2).2) := by
  induction xs generalizing s with
  | nil => rfl
  | cons x xs ih => simp only [List.cons_append, shiftRun, ih]

/-- The register before bit `k` of a run. -/
def shiftState (f : ShiftFn) (xs : List Bool) (s : Word) (k : Nat) : Word := (shiftRun f (xs.take k) s).2

theorem shiftState_succ (f : ShiftFn) {xs : List Bool} {k : Nat} (hk : k < xs.length) (s : Word) :
    shiftState f xs s (k + 1) = shiftNext f (xs.getD k false) (shiftState f xs s k) := by
  rw [shiftState, List.take_succ_eq_append_getElem hk, shiftRun_append, List.getD_eq_getElem _ _ hk]
  rfl

/-- Output bit `k` is made from input bit `k` and the register before it. -/
theorem shiftRun_fst_getD (f : ShiftFn) {xs : List Bool} {k : Nat} (hk : k < xs.length) (s : Word) :
    (shiftRun f xs s).1.getD k false = shiftOut f (xs.getD k false) (shiftState f xs s k) := by
  induction xs generalizing k s with
  | nil => exact absurd hk (Nat.not_lt_zero k)
  | cons x xs ih =>
    cases k with
    | zero => rfl
    | succ k => exact ih (Nat.lt_of_succ_lt_succ hk) _

/-- The bits scramble_block sends: a run over the block and the flush bits, less the first SCR_SKIP outputs
(41_scrambler.md R146). -/
theorem bitsOf_scrambleBlock {c : Config} (hskip : c.scrSkip ≤ 8) {p : Bytes} (hp : 1 ≤ p.length) :
    bitsOf (scrambleBlock c p) =
      (shiftRun c.scrambler (bitsOf p ++ List.replicate c.scrSkip false) c.scrTxSeed).1.drop c.scrSkip := by
  have hbits : c.scrSkip ≤ (shiftRun c.scrambler (bitsOf p) c.scrTxSeed).1.length := by
    rw [shiftRun_length, bitsOf_length]; omega
  rw [shiftRun_append, List.drop_append_of_le_length hbits]
  refine bitsOf_bytesOf p.length _ ?_
  simp only [List.length_append, List.length_drop, shiftRun_length, bitsOf_length, List.length_replicate]
  omega

end Sys2Proof.Machine
end

section
/-! The P0 bit functions bit by bit: both registers shift towards bit 0, with one more sum at bit 3 and one at bit 8
(41_scrambler.md R141, R143). -/

namespace Sys2Proof.Machine

theorem shiftOut_p0Scrambler (x : Bool) (s : Word) : shiftOut p0Scrambler x s = (s.getLsbD 0 ^^ s.getLsbD 4) := by
  simp [shiftOut, p0Scrambler, bitSum, tapSum]

theorem shiftNext_p0Scrambler_shift (x : Bool) (s : Word) {k : Nat} (hk : k < 8) (h3 : k ≠ 3) :
    (shiftNext p0Scrambler x s).getLsbD k = s.getLsbD (k + 1) := by
  rw [shiftNext_getLsbD _ _ _ (by decide)]
  interval_cases k <;> simp [p0Scrambler, bitSum, tapSum] at h3 ⊢

theorem shiftNext_p0Scrambler_bit3 (x : Bool) (s : Word) :
    (shiftNext p0Scrambler x s).getLsbD 3 = (s.getLsbD 4 ^^ s.getLsbD 0) := by
  rw [shiftNext_getLsbD _ _ _ (by decide)]
  simp [p0Scrambler, bitSum, tapSum]

theorem shiftNext_p0Scrambler_bit8 (x : Bool) (s : Word) :
    (shiftNext p0Scrambler x s).getLsbD 8 = (x ^^ s.getLsbD 0) := by
  rw [shiftNext_getLsbD _ _ _ (by decide)]
  simp [p0Scrambler, bitSum, tapSum, Bool.xor_comm]

theorem shiftOut_p0Descrambler (x : Bool) (r : Word) : shiftOut p0Descrambler x r = (x ^^ r.getLsbD 0) := by
  simp [shiftOut, p0Descrambler, bitSum, tapSum, Bool.xor_comm]

theorem shiftNext_p0Descrambler_shift (x : Bool) (r : Word) {k : Nat} (hk : k < 8) (h3 : k ≠ 3) :
    (shiftNext p0Descrambler x r).getLsbD k = r.getLsbD (k + 1) := by
  rw [shiftNext_getLsbD _ _ _ (by decide)]
  interval_cases k <;> simp [p0Descrambler, bitSum, tapSum] at h3 ⊢

theorem shiftNext_p0Descrambler_bit3 (x : Bool) (r : Word) :
    (shiftNext p0Descrambler x r).getLsbD 3 = (r.getLsbD 4 ^^ x) := by
  rw [shiftNext_getLsbD _ _ _ (by decide)]
  simp [p0Descrambler, bitSum, tapSum]

theorem shiftNext_p0Descrambler_bit8 (x : Bool) (r : Word) : (shiftNext p0Descrambler x r).getLsbD 8 = x := by
  rw [shiftNext_getLsbD _ _ _ (by decide)]
  simp [p0Descrambler, bitSum, tapSum]

/-! ### The C-like forms -/

theorem bitWord_shiftLeft (b : Bool) (i : Nat) : bitWord b <<< i = flagAt i b := by
  simp [bitWord, flagAt]

theorem getLsbD_bitWord_zero (b : Bool) : (bitWord b).getLsbD 0 = b := by
  cases b <;> rfl

theorem bitWord_eq (b : Bool) : bitWord b = if b then 1 else 0 := by
  cases b <;> rfl

theorem bitWord_getLsbD_zero (w : Word) : bitWord (w.getLsbD 0) = w &&& 1 := flagAt_zero_getLsbD w

theorem bitWord_shiftOut_p0Scrambler (x : Bool) (s : Word) :
    bitWord (shiftOut p0Scrambler x s) = (s ^^^ (s >>> 4)) &&& 1 := by
  rw [← bitWord_getLsbD_zero, BitVec.getLsbD_xor, BitVec.getLsbD_ushiftRight, shiftOut_p0Scrambler]

theorem bitWord_shiftOut_p0Descrambler (x : Bool) (r : Word) :
    bitWord (shiftOut p0Descrambler x r) = (bitWord x ^^^ r) &&& 1 := by
  rw [← bitWord_getLsbD_zero, BitVec.getLsbD_xor, getLsbD_bitWord_zero, shiftOut_p0Descrambler]

/-- Above its width a register holds no bit. -/
theorem getLsbD_of_lt_two_pow {s : Word} {w k : Nat} (hs : s.toNat < 2 ^ w) (hk : w ≤ k) : s.getLsbD k = false :=
  Nat.testBit_lt_two_pow (Nat.lt_of_lt_of_le hs (Nat.pow_le_pow_right (by decide) hk))

/-- A bit of a 9-bit register is bit 3, bit 8, another one that only shifts, or none. -/
theorem p0_bit_cases (k : Nat) : k = 3 ∨ k = 8 ∨ (k < 8 ∧ k ≠ 3) ∨ 9 ≤ k := by omega

theorem shiftNext_p0Scrambler_eq (x : Bool) {s : Word} (hs : s.toNat < 2 ^ 9) :
    shiftNext p0Scrambler x s =
      ((((bitWord x ^^^ s) &&& 1) <<< 9) ||| (s ^^^ ((s &&& 1) <<< 4))) >>> 1 := by
  simp only [← bitWord_getLsbD_zero, BitVec.getLsbD_xor, getLsbD_bitWord_zero]
  refine BitVec.eq_of_getLsbD_eq fun k hk => ?_
  simp only [BitVec.getLsbD_ushiftRight, BitVec.getLsbD_or, BitVec.getLsbD_xor, bitWord_shiftLeft, getLsbD_flagAt]
  rcases p0_bit_cases k with rfl | rfl | ⟨hlt, h3⟩ | hge
  · rw [shiftNext_p0Scrambler_bit3]
    simp
  · rw [shiftNext_p0Scrambler_bit8, getLsbD_of_lt_two_pow (k := 1 + 8) hs (by decide)]
    simp
  · rw [shiftNext_p0Scrambler_shift _ _ hlt h3, Nat.add_comm k 1]
    simp [show ¬1 + k = 9 by omega, show ¬1 + k = 4 by omega]
  · rw [getLsbD_of_lt_two_pow (shiftNext_lt p0Scrambler x s) hge, getLsbD_of_lt_two_pow (k := 1 + k) hs (by omega)]
    simp [show ¬1 + k = 9 by omega, show ¬1 + k = 4 by omega]

theorem shiftNext_p0Descrambler_eq (x : Bool) {r : Word} (hr : r.toNat < 2 ^ 9) :
    shiftNext p0Descrambler x r = ((r >>> 1) ||| (bitWord x <<< 8)) ^^^ (bitWord x <<< 3) := by
  refine BitVec.eq_of_getLsbD_eq fun k hk => ?_
  simp only [BitVec.getLsbD_ushiftRight, BitVec.getLsbD_or, BitVec.getLsbD_xor, bitWord_shiftLeft, getLsbD_flagAt]
  rcases p0_bit_cases k with rfl | rfl | ⟨hlt, h3⟩ | hge
  · rw [shiftNext_p0Descrambler_bit3]
    simp
  · rw [shiftNext_p0Descrambler_bit8, getLsbD_of_lt_two_pow (k := 1 + 8) hr (by decide)]
    simp
  · rw [shiftNext_p0Descrambler_shift _ _ hlt h3, Nat.add_comm k 1]
    simp [hlt.ne, h3]
  · rw [getLsbD_of_lt_two_pow (shiftNext_lt p0Descrambler x r) hge, getLsbD_of_lt_two_pow (k := 1 + k) hr (by omega)]
    simp [show ¬k = 8 by omega, show ¬k = 3 by omega]

end Sys2Proof.Machine
end

section
/-! What the P0 descrambler's register holds of the bits it has taken (41_scrambler.md R149). -/

namespace Sys2Proof.Machine

variable {xs : List Bool}

/-- Above and below bit 3 a bit only moves towards bit 0. -/
theorem p0DescramblerState_shift {i n k : Nat} (h : i + n ≤ 3 ∨ 4 ≤ i ∧ i + n ≤ 8) (hk : k + n ≤ xs.length)
    (r : Word) :
    (shiftState p0Descrambler xs r (k + n)).getLsbD i = (shiftState p0Descrambler xs r k).getLsbD (i + n) := by
  induction n generalizing i with
  | zero => rfl
  | succ n ih =>
    have hne : i ≠ 3 := by omega
    rw [← Nat.add_assoc, shiftState_succ _ (by omega), shiftNext_p0Descrambler_shift _ _ (by omega) hne,
      ih (by omega) (by omega), Nat.add_assoc, Nat.add_comm 1]

/-- Bit 0 is the sum of the bits taken 9 and 4 steps before: the first entered at bit 8, the second at bit 3. -/
theorem p0DescramblerState_getLsbD_zero {j : Nat} (hj : j + 9 ≤ xs.length) (r : Word) :
    (shiftState p0Descrambler xs r (j + 9)).getLsbD 0 = (xs.getD j false ^^ xs.getD (j + 5) false) := by
  have hentered : (shiftState p0Descrambler xs r (j + 1)).getLsbD 8 = xs.getD j false := by
    rw [shiftState_succ _ (by omega), shiftNext_p0Descrambler_bit8]
  have hbit4 : (shiftState p0Descrambler xs r (j + 5)).getLsbD 4 = xs.getD j false :=
    (p0DescramblerState_shift (k := j + 1) (n := 4) (by decide) (by omega) r).trans hentered
  have hbit3 : (shiftState p0Descrambler xs r (j + 6)).getLsbD 3 = (xs.getD j false ^^ xs.getD (j + 5) false) := by
    rw [shiftState_succ _ (by omega), shiftNext_p0Descrambler_bit3, hbit4]
  exact (p0DescramblerState_shift (k := j + 6) (n := 3) (by decide) (by omega) r).trans hbit3

end Sys2Proof.Machine
end

section
/-! That the P0 descrambler undoes the P0 scrambler five bits behind it (41_scrambler.md R150). -/

namespace Sys2Proof.Machine

/-- The scrambler's register `t` and the descrambler's register `r` between two sent bits, where `q` are the five
input bits the scrambler has taken and the descrambler has not given back. The upper half of `r` holds outputs, as
the lower half of `t` does; the lower half of `r` is that of `t` and what the scrambler added to the pending bits. -/
structure InStep (q : List Bool) (t r : Word) : Prop where
  pending : q.length = 5
  low : ∀ i < 4, r.getLsbD i = (t.getLsbD i ^^ t.getLsbD (i + 4) ^^ q.getD i false)
  middle : r.getLsbD 4 = (t.getLsbD 8 ^^ q.getD 4 false)
  high : ∀ i < 4, r.getLsbD (i + 5) = t.getLsbD i

namespace InStep

/-- The bit given back is the oldest of the pending ones. -/
theorem out_eq {b x : Bool} {q : List Bool} {t r : Word} (h : InStep (b :: q) t r) :
    shiftOut p0Descrambler (shiftOut p0Scrambler x t) r = b := by
  rw [shiftOut_p0Descrambler, shiftOut_p0Scrambler, h.low 0 (by decide), List.getD_cons_zero, ← Bool.xor_assoc,
    Bool.xor_self, Bool.false_xor]

/-- Both registers take one more bit: the block bit `x`, and the bit sent for it. -/
theorem next {b : Bool} {q : List Bool} {t r : Word} (h : InStep (b :: q) t r) (x : Bool) :
    InStep (q ++ [x]) (shiftNext p0Scrambler x t) (shiftNext p0Descrambler (shiftOut p0Scrambler x t) r) := by
  have hq : q.length = 4 := Nat.succ.inj h.pending
  have hold {i : Nat} (hi : i < 4) : (q ++ [x]).getD i false = (b :: q).getD (i + 1) false := by
    rw [List.getD_append _ _ _ _ (hq ▸ hi), List.getD_cons_succ]
  have hnew : (q ++ [x]).getD 4 false = x := by
    rw [List.getD_append_right _ _ _ _ hq.le, hq]
    rfl
  refine ⟨by simp [hq], fun i hi => ?_, ?_, fun i hi => ?_⟩
  · rw [hold hi, shiftNext_p0Scrambler_shift (k := i + 4) _ _ (by omega) (by omega)]
    rcases Nat.lt_succ_iff_lt_or_eq.1 hi with hlt | rfl
    · rw [shiftNext_p0Descrambler_shift _ _ (by omega) hlt.ne, shiftNext_p0Scrambler_shift _ _ (by omega) hlt.ne,
        h.low (i + 1) (by omega), Nat.add_right_comm i 1 4]
    · rw [shiftNext_p0Descrambler_bit3, shiftNext_p0Scrambler_bit3, shiftOut_p0Scrambler, h.middle,
        Bool.xor_comm (t.getLsbD 0), Bool.xor_comm (t.getLsbD 8 ^^ _), ← Bool.xor_assoc]
  · rw [shiftNext_p0Descrambler_shift _ _ (by decide) (by decide), shiftNext_p0Scrambler_bit8, hnew,
      h.high 0 (by decide), Bool.xor_comm x, Bool.xor_assoc, Bool.xor_self, Bool.xor_false]
  · rcases Nat.lt_succ_iff_lt_or_eq.1 hi with hlt | rfl
    · rw [shiftNext_p0Descrambler_shift _ _ (by omega) (by omega), shiftNext_p0Scrambler_shift _ _ (by omega) hlt.ne,
        Nat.add_right_comm i 5 1, h.high (i + 1) (by omega)]
    · rw [shiftNext_p0Descrambler_bit8, shiftNext_p0Scrambler_bit3, shiftOut_p0Scrambler, Bool.xor_comm]

/-- Five bits into a block, from the two seeds, the registers are in step: a finite fact about the seeds, for each
choice of the five bits. -/
theorem of_seeds {q : List Bool} (hq : q.length = 5) :
    InStep q (shiftRun p0Scrambler q p0.scrTxSeed).2 p0.scrRxSeed := by
  match q, hq with
  | [b0, b1, b2, b3, b4], _ =>
    refine ⟨rfl, ?_, ?_, ?_⟩ <;> revert b0 b1 b2 b3 b4 <;> decide +kernel

/-- A descrambler in step with a scrambler gives its input back, five bits later. -/
theorem descrambled_eq {q : List Bool} {t r : Word} (h : InStep q t r) (xs : List Bool) :
    (shiftRun p0Descrambler (shiftRun p0Scrambler xs t).1 r).1 = (q ++ xs).take xs.length := by
  induction xs generalizing q t r with
  | nil => rfl
  | cons x xs ih =>
    obtain ⟨b, q, rfl⟩ := List.exists_cons_of_length_eq_add_one h.pending
    rw [shiftRun, shiftRun, h.out_eq, ih (h.next x), List.append_assoc]
    rfl

end InStep

end Sys2Proof.Machine
end

section
/-! The scrambler commands: what they answer on each outcome of their checks (41_scrambler.md R144 to R148). -/

namespace Sys2Proof.Machine

/-! ### SCR_BIT and DESCR_BIT -/

@[simp] theorem bitOperand_bitNumber (x : Bool) : bitOperand (bitNumber x) = some x := by
  cases x <;> rfl

theorem withOperand_bitNumber (s : State) (x : Bool) (k : Bool → State) :
    s.withOperand (bitOperand (bitNumber x)) k = k x := by
  rw [bitOperand_bitNumber, State.withOperand_some]

/-- Only 0 and 1 give an input bit (30_encoding.md R82). -/
theorem not_wf_of_bit {i : Instr} (hkind : i.immKind = .bit) (h : 1 < i.imm8.toNat) : i.wf = false := by
  have hzero : i.imm8 ≠ 0 := by bv_omega
  have hone : i.imm8 ≠ 1 := by bv_omega
  rw [Instr.wf, hkind, ImmKind.allows, decide_eq_false hzero, decide_eq_false hone, Bool.or_false]

/-- A bit function with one sum for each bit of the register leaves nothing to cut off. -/
theorem lowBits_shiftNext {f : ShiftFn} {w : Nat} (h : f.next.length = w) (x : Bool) (s : Word) :
    lowBits w (shiftNext f x s) = shiftNext f x s :=
  lowBits_of_lt (h ▸ shiftNext_lt f x s)

theorem exec_scrBit {s : State} (x : Bool) (hreg : s.scrTx.toNat < 2 ^ s.cfg.scrWidth)
    (hfn : s.cfg.scrambler.next.length = s.cfg.scrWidth) :
    exec (.scrBit (bitNumber x)) s =
      .next { resultState s .ok (bitWord (shiftOut s.cfg.scrambler x s.scrTx)) 0 0 with
        scrTx := shiftNext s.cfg.scrambler x s.scrTx } := by
  refine congrArg _ ((withOperand_bitNumber ..).trans ?_)
  simp only [State.prologue_cfg, State.prologue_scrTx, lowBits_of_lt hreg, lowBits_shiftNext hfn]
  rfl

theorem exec_descrBit {s : State} (x : Bool) (hreg : s.scrRx.toNat < 2 ^ s.cfg.scrWidth)
    (hfn : s.cfg.descrambler.next.length = s.cfg.scrWidth) :
    exec (.descrBit (bitNumber x)) s =
      .next { resultState s .ok (bitWord (shiftOut s.cfg.descrambler x s.scrRx)) 0 0 with
        scrRx := shiftNext s.cfg.descrambler x s.scrRx } := by
  refine congrArg _ ((withOperand_bitNumber ..).trans ?_)
  simp only [State.prologue_cfg, State.prologue_scrRx, lowBits_of_lt hreg, lowBits_shiftNext hfn]
  rfl

/-! ### SCR_BLOCK and DESCR_BLOCK -/

theorem blockRule_of_empty {s : State} (f : Bytes → Bytes) (h : s.arg1.toNat = 0) :
    s.prologue.blockRule f = errorState s .invalidLength :=
  State.check_neg _ _ _ (by simp [h])

theorem blockRule_of_not_region {s : State} (f : Bytes → Bytes) (hlen : 1 ≤ s.arg1.toNat)
    (h : ¬regionOk s.cfg s.arg0.toNat s.arg1.toNat) : s.prologue.blockRule f = errorState s .addressError :=
  (State.check_pos _ _ _ hlen).trans (State.check_neg _ _ _ h)

theorem blockRule_of_region {s : State} (f : Bytes → Bytes) (hlen : 1 ≤ s.arg1.toNat)
    (h : regionOk s.cfg s.arg0.toNat s.arg1.toNat) :
    s.prologue.blockRule f =
      s.prologue.deliver s.arg2.toNat (f (sourceBytes s)) fun t => { t with result0 := s.arg1 } :=
  (State.check_pos _ _ _ hlen).trans (State.check_pos _ _ _ h)

/-- SCR_BLOCK and DESCR_BLOCK run a block function, which keeps the length of a block for valid parameters
(41_scrambler.md R146, R148). -/
theorem exec_block {s : State} {i : Instr} {f : Config → Bytes → Bytes}
    (h : (i = .scrBlock ∧ f = scrambleBlock) ∨ (i = .descrBlock ∧ f = descrambleBlock))
    (hparams : paramsValid s.cfg = true) :
    exec i s = .next (s.prologue.blockRule (f s.cfg)) ∧
      (1 ≤ s.arg1.toNat → (f s.cfg (sourceBytes s)).length = s.arg1.toNat) := by
  have hsource : (sourceBytes s).length = s.arg1.toNat := lmemBytes_length ..
  rcases h with ⟨rfl, rfl⟩ | ⟨rfl, rfl⟩
  · refine ⟨rfl, fun hlen => ?_⟩
    rw [scrambleBlock_length (by rw [(validParams hparams).scrSkip]; decide) (hsource ▸ hlen), hsource]
  · exact ⟨rfl, fun _ => (descrambleBlock_length ..).trans hsource⟩

end Sys2Proof.Machine
end

section
/-! The obligations of 41_scrambler.md. -/

namespace Sys2Proof.Proofs

open Sys2Proof.Machine

/-- Settles O34: five bits into the block the registers are in step, and stay so to the end of the flush. -/
theorem scramblerRoundTrip : Obligations.ScramblerRoundTrip := by
  intro p hp
  obtain ⟨q, rest, hbits, hq⟩ : ∃ q rest, bitsOf p = q ++ rest ∧ q.length = 5 :=
    ⟨_, _, (List.take_append_drop 5 _).symm, by rw [List.length_take, bitsOf_length]; omega⟩
  have hsent : bitsOf (scrambleBlock p0 p) =
      (shiftRun p0Scrambler (rest ++ List.replicate 5 false) (shiftRun p0Scrambler q p0.scrTxSeed).2).1 := by
    rw [bitsOf_scrambleBlock (by decide) hp, hbits, List.append_assoc, shiftRun_append]
    exact List.drop_left' ((shiftRun_length ..).trans hq)
  have hback : (shiftRun p0Descrambler (bitsOf (scrambleBlock p0 p)) p0.scrRxSeed).1 = bitsOf p := by
    rw [hsent, (InStep.of_seeds hq).descrambled_eq, hbits, ← List.append_assoc]
    exact List.take_left' (by simp [hq, Nat.add_comm])
  exact (congrArg bytesOf hback).trans (bytesOf_bitsOf p)

/-- Settles O30: the forms agree bit by bit, inside the register and above it. -/
theorem bitFunctionsAtP0 : Obligations.BitFunctionsAtP0 := by
  intro x s hs b
  have hb : b = bitWord x := (bitWord_eq x).symm
  rw [hb, ← bitWord_eq, ← bitWord_eq]
  exact ⟨bitWord_shiftOut_p0Scrambler x s, shiftNext_p0Scrambler_eq x hs, bitWord_shiftOut_p0Descrambler x s,
    shiftNext_p0Descrambler_eq x hs⟩

/-- Settles O31: valid parameters give one sum for each bit of the registers. -/
theorem bitCommandResults : Obligations.BitCommandResults := by
  intro s x htx hrx hparams
  have hvalid := validParams hparams
  refine ⟨?_, ?_, fun imm himm => ⟨exec_of_not_wf (i := .scrBit imm) (not_wf_of_bit rfl himm) s,
    exec_of_not_wf (i := .descrBit imm) (not_wf_of_bit rfl himm) s⟩⟩
  · rw [exec_scrBit x htx hvalid.scrambler, bitWord_eq]
  · rw [exec_descrBit x hrx hvalid.descrambler, bitWord_eq]

/-- Settles O32: length and source checks, then the delivery of a block of the same length. -/
theorem blockCommandResults : Obligations.BlockCommandResults := by
  intro s i f hi hparams len dst
  obtain ⟨hexec, hout⟩ := exec_block hi hparams
  rw [hexec]
  refine ⟨fun hempty => congrArg _ (blockRule_of_empty _ hempty),
    fun hlen hsource => congrArg _ (blockRule_of_not_region _ hlen hsource), fun hlen hsource hdst => ?_,
    fun hlen hsource hdst => ⟨_, ?_, stored_memWriteBytes _ _ _⟩⟩
  · rw [blockRule_of_region _ hlen hsource, State.deliver_of_not_region _ (by rwa [hout hlen])]
  · rw [blockRule_of_region _ hlen hsource, State.deliver_of_region _ (by rwa [hout hlen])]
    rfl

/-- Settles O33: bit 0 of the register is known after nine bits, whatever the register held before. -/
theorem descramblerSelfSynchronises : Obligations.DescramblerSelfSynchronises := by
  intro xs r _ k hk hlen
  obtain ⟨j, rfl⟩ := Nat.exists_eq_add_of_le' hk
  rw [shiftRun_fst_getD _ hlen, shiftOut_p0Descrambler, p0DescramblerState_getLsbD_zero hlen.le, Nat.add_sub_cancel,
    show j + 9 - 4 = j + 5 by omega, Bool.xor_assoc, Bool.xor_comm (xs.getD j false)]

end Sys2Proof.Proofs
end

section
/-! The field of the log and antilog tables: a table row for each exponent makes `gfMul` a product that distributes
over the exclusive or (00_scope.md R16; 42_reed_solomon.md R161). -/

namespace Sys2Proof.Machine

/-! ### Doubling -/

theorem gfDouble_zero (poly : BitVec 9) : gfDouble poly 0#8 = 0#8 := by
  simp [gfDouble]

/-- What doubling adds to the shifted byte: the field polynomial, when a bit was shifted out. -/
def gfCarry (poly : BitVec 9) (out : Bool) : Byte := if out then poly.setWidth 8 else 0#8

theorem gfCarry_xor (poly : BitVec 9) (x y : Bool) : gfCarry poly (x ^^ y) = gfCarry poly x ^^^ gfCarry poly y := by
  cases x <;> cases y <;> simp [gfCarry]

theorem gfDouble_eq (poly : BitVec 9) (a : Byte) : gfDouble poly a = a <<< 1 ^^^ gfCarry poly (a.getLsbD 7) := by
  have hshift : (a.setWidth 9 <<< 1).setWidth 8 = a <<< 1 := by
    ext k hk
    simp
  have hout : (a.setWidth 9 <<< 1).getLsbD 8 = a.getLsbD 7 := by simp
  simp only [gfDouble, gfCarry, hout]
  split
  · rw [BitVec.setWidth_xor, hshift]
  · rw [hshift, BitVec.xor_zero]

theorem gfDouble_xor (poly : BitVec 9) (a b : Byte) :
    gfDouble poly (a ^^^ b) = gfDouble poly a ^^^ gfDouble poly b := by
  simp only [gfDouble_eq, BitVec.shiftLeft_xor_distrib, BitVec.getLsbD_xor, gfCarry_xor]
  ac_rfl

theorem gfDoubleIter_zero (poly : BitVec 9) (n : Nat) : gfDoubleIter poly n 0#8 = 0#8 := by
  induction n with
  | zero => rfl
  | succ n ih => rw [gfDoubleIter, gfDouble_zero, ih]

theorem gfDoubleIter_xor (poly : BitVec 9) (n : Nat) (a b : Byte) :
    gfDoubleIter poly n (a ^^^ b) = gfDoubleIter poly n a ^^^ gfDoubleIter poly n b := by
  induction n generalizing a b with
  | zero => rfl
  | succ n ih => rw [gfDoubleIter, gfDouble_xor, ih, gfDoubleIter, gfDoubleIter]

/-! ### The tables -/

/-- What the tables of a field polynomial hold: the powers of α, each twice the one before, and their exponents,
with 255 for the zero element (42_reed_solomon.md R161). -/
structure FieldTables (poly : BitVec 9) (t : GfTables) : Prop where
  exp_zero : gfExp t 0 = 1#8
  exp_succ : ∀ e < 255, gfExp t (e + 1) = gfDouble poly (gfExp t e)
  log_zero : gfLog t 0#8 = 255
  log_exp : ∀ e < 255, gfLog t (gfExp t e) = e
  log_lt : ∀ a : Byte, a ≠ 0#8 → gfLog t a < 255
  exp_log : ∀ a : Byte, a ≠ 0#8 → gfExp t (gfLog t a) = a

/-- The tables at P0, row by row. -/
theorem fieldTables_p0 : FieldTables p0.rsGfPoly (gfTables p0.rsGfPoly) where
  exp_zero := by decide +kernel
  exp_succ := by decide +kernel
  log_zero := by decide +kernel
  log_exp := by decide +kernel
  log_lt := by decide +kernel
  exp_log := by decide +kernel

/-- Exponents count mod 255 (00_scope.md R16). -/
@[simp] theorem gfExp_mod (t : GfTables) (e : Nat) : gfExp t (e % 255) = gfExp t e := by
  simp only [gfExp, Nat.mod_mod]

theorem gfMul_comm (t : GfTables) (a b : Byte) : gfMul t a b = gfMul t b a := by
  simp only [gfMul, or_comm, Nat.add_comm]

@[simp] theorem gfMul_zero (t : GfTables) (a : Byte) : gfMul t a 0#8 = 0#8 := if_pos (.inr rfl)

@[simp] theorem zero_gfMul (t : GfTables) (a : Byte) : gfMul t 0#8 a = 0#8 := if_pos (.inl rfl)

theorem gfMul_of_ne_zero (t : GfTables) {a b : Byte} (ha : a ≠ 0#8) (hb : b ≠ 0#8) :
    gfMul t a b = gfExp t (gfLog t a + gfLog t b) :=
  if_neg (not_or.2 ⟨ha, hb⟩)

namespace FieldTables

variable {poly : BitVec 9} {t : GfTables}

theorem gfLog_gfExp (ht : FieldTables poly t) (e : Nat) : gfLog t (gfExp t e) = e % 255 := by
  rw [← gfExp_mod, ht.log_exp _ (Nat.mod_lt _ (by decide))]

theorem gfExp_succ (ht : FieldTables poly t) (e : Nat) : gfExp t (e + 1) = gfDouble poly (gfExp t e) := by
  rw [← gfExp_mod, ← Nat.mod_add_mod, gfExp_mod, ht.exp_succ _ (Nat.mod_lt _ (by decide)), gfExp_mod]

theorem gfExp_ne_zero (ht : FieldTables poly t) (e : Nat) : gfExp t e ≠ 0#8 := by
  intro hzero
  have hlog := ht.gfLog_gfExp e
  rw [hzero, ht.log_zero] at hlog
  omega

/-- Two powers of α are equal when their exponents are equal mod 255. -/
theorem gfExp_inj (ht : FieldTables poly t) {e f : Nat} : gfExp t e = gfExp t f ↔ e % 255 = f % 255 := by
  refine ⟨fun h => ?_, fun h => by rw [← gfExp_mod, h, gfExp_mod]⟩
  rw [← ht.gfLog_gfExp, h, ht.gfLog_gfExp]

/-- Every nonzero element is a power of α. -/
theorem exists_gfExp (ht : FieldTables poly t) {a : Byte} (ha : a ≠ 0#8) : ∃ e, a = gfExp t e :=
  ⟨gfLog t a, (ht.exp_log a ha).symm⟩

theorem gfMul_gfExp (ht : FieldTables poly t) (e f : Nat) : gfMul t (gfExp t e) (gfExp t f) = gfExp t (e + f) := by
  rw [gfMul_of_ne_zero t (ht.gfExp_ne_zero e) (ht.gfExp_ne_zero f), ht.gfLog_gfExp, ht.gfLog_gfExp, ← gfExp_mod,
    ← Nat.add_mod, gfExp_mod]

theorem gfMul_ne_zero (ht : FieldTables poly t) {a b : Byte} (ha : a ≠ 0#8) (hb : b ≠ 0#8) :
    gfMul t a b ≠ 0#8 := by
  rw [gfMul_of_ne_zero t ha hb]
  exact ht.gfExp_ne_zero _

theorem gfMul_one (ht : FieldTables poly t) (a : Byte) : gfMul t a 1#8 = a := by
  by_cases ha : a = 0#8
  · rw [ha, zero_gfMul]
  · obtain ⟨e, rfl⟩ := ht.exists_gfExp ha
    rw [← ht.exp_zero, ht.gfMul_gfExp, Nat.add_zero]

theorem one_gfMul (ht : FieldTables poly t) (a : Byte) : gfMul t 1#8 a = a :=
  (gfMul_comm ..).trans (ht.gfMul_one a)

theorem gfMul_assoc (ht : FieldTables poly t) (a b c : Byte) : gfMul t (gfMul t a b) c = gfMul t a (gfMul t b c) := by
  by_cases ha : a = 0#8
  · simp only [ha, zero_gfMul]
  by_cases hb : b = 0#8
  · simp only [hb, zero_gfMul, gfMul_zero]
  by_cases hc : c = 0#8
  · simp only [hc, gfMul_zero]
  obtain ⟨e, rfl⟩ := ht.exists_gfExp ha
  obtain ⟨f, rfl⟩ := ht.exists_gfExp hb
  obtain ⟨g, rfl⟩ := ht.exists_gfExp hc
  simp only [ht.gfMul_gfExp, Nat.add_assoc]

/-- A product with α^e is `e` doublings. -/
theorem gfMul_gfExp_eq_gfDoubleIter (ht : FieldTables poly t) (e : Nat) (a : Byte) :
    gfMul t a (gfExp t e) = gfDoubleIter poly e a := by
  by_cases ha : a = 0#8
  · rw [ha, zero_gfMul, gfDoubleIter_zero]
  obtain ⟨f, rfl⟩ := ht.exists_gfExp ha
  rw [ht.gfMul_gfExp]
  clear ha
  induction e generalizing f with
  | zero => rfl
  | succ e ih => rw [gfDoubleIter, ← ht.gfExp_succ, ← ih, Nat.succ_add_eq_add_succ]

/-- The product distributes over the field's addition, because doubling does. -/
theorem xor_gfMul (ht : FieldTables poly t) (a b c : Byte) : gfMul t (a ^^^ b) c = gfMul t a c ^^^ gfMul t b c := by
  by_cases hc : c = 0#8
  · simp only [hc, gfMul_zero, BitVec.xor_self]
  · obtain ⟨e, rfl⟩ := ht.exists_gfExp hc
    simp only [ht.gfMul_gfExp_eq_gfDoubleIter, gfDoubleIter_xor]

theorem gfMul_xor (ht : FieldTables poly t) (a b c : Byte) : gfMul t a (b ^^^ c) = gfMul t a b ^^^ gfMul t a c := by
  simp only [gfMul_comm t a, ht.xor_gfMul]

theorem gfMul_gfInv (ht : FieldTables poly t) {a : Byte} (ha : a ≠ 0#8) : gfMul t a (gfInv t a) = 1#8 := by
  have hlog := ht.log_lt a ha
  calc gfMul t a (gfInv t a)
    _ = gfMul t (gfExp t (gfLog t a)) (gfExp t (255 - gfLog t a)) := by rw [ht.exp_log a ha, gfInv]
    _ = gfExp t 255 := by rw [ht.gfMul_gfExp, Nat.add_sub_cancel' hlog.le]
    _ = 1#8 := by rw [← gfExp_mod, ht.exp_zero]

theorem gfMul_gfMul_gfInv (ht : FieldTables poly t) {a : Byte} (ha : a ≠ 0#8) (b : Byte) :
    gfMul t (gfMul t a b) (gfInv t a) = b := by
  rw [gfMul_comm t a, ht.gfMul_assoc, ht.gfMul_gfInv ha, ht.gfMul_one]

end FieldTables

end Sys2Proof.Machine
end

section
/-! The value of a block at a power of α: an additive function of the block, by which the roots of the generator
polynomial make an encoded block a codeword (42_reed_solomon.md R162 to R165). -/

namespace Sys2Proof.Machine

/-! ### Values of blocks -/

theorem blockEval_concat (t : GfTables) (x : Byte) (r : Bytes) (v : Byte) :
    blockEval t x (r ++ [v]) = gfMul t (blockEval t x r) x ^^^ v := by
  rw [blockEval, List.foldl_append]
  rfl

theorem blockEval_concat_zero (t : GfTables) (x : Byte) (r : Bytes) :
    blockEval t x (r ++ [0#8]) = gfMul t (blockEval t x r) x := by
  rw [blockEval_concat, BitVec.xor_zero]

@[simp] theorem blockEval_nil (t : GfTables) (x : Byte) : blockEval t x [] = 0#8 := rfl

theorem blockEval_singleton (t : GfTables) (x v : Byte) : blockEval t x [v] = v := by
  rw [← List.nil_append [v], blockEval_concat, blockEval_nil, zero_gfMul, BitVec.zero_xor]

theorem blockEval_zero_cons (t : GfTables) (x : Byte) (r : Bytes) : blockEval t x (0#8 :: r) = blockEval t x r :=
  congrArg (r.foldl fun acc v => gfMul t acc x ^^^ v) (blockEval_singleton t x 0#8)

theorem blockEval_replicate_zero (t : GfTables) (x : Byte) (n : Nat) :
    blockEval t x (List.replicate n 0#8) = 0#8 := by
  induction n with
  | zero => rfl
  | succ n ih => rw [List.replicate_succ, blockEval_zero_cons, ih]

namespace FieldTables

variable {poly : BitVec 9} {t : GfTables}

theorem blockEval_append (ht : FieldTables poly t) (i : Nat) (r s : Bytes) :
    blockEval t (gfExp t i) (r ++ s) =
      gfMul t (blockEval t (gfExp t i) r) (gfExp t (i * s.length)) ^^^ blockEval t (gfExp t i) s := by
  induction s using List.reverseRecOn with
  | nil =>
    rw [List.append_nil, List.length_nil, Nat.mul_zero, ht.exp_zero, ht.gfMul_one, blockEval_nil, BitVec.xor_zero]
  | append_singleton s v ih =>
    rw [← List.append_assoc, blockEval_concat, blockEval_concat, ih, ht.xor_gfMul, ht.gfMul_assoc, ht.gfMul_gfExp,
      List.length_append, List.length_singleton, Nat.mul_succ, BitVec.xor_assoc]

theorem blockEval_cons (ht : FieldTables poly t) (i : Nat) (v : Byte) (s : Bytes) :
    blockEval t (gfExp t i) (v :: s) = gfMul t v (gfExp t (i * s.length)) ^^^ blockEval t (gfExp t i) s := by
  rw [← List.singleton_append, ht.blockEval_append, blockEval_singleton]

/-- Values add over the sum of two blocks of one length. -/
theorem blockEval_zipWith_xor (ht : FieldTables poly t) (i : Nat) {r s : Bytes} (h : r.length = s.length) :
    blockEval t (gfExp t i) (List.zipWith (· ^^^ ·) r s) =
      blockEval t (gfExp t i) r ^^^ blockEval t (gfExp t i) s := by
  induction r generalizing s with
  | nil =>
    obtain rfl : s = [] := List.length_eq_zero_iff.1 h.symm
    rw [List.zipWith_nil_left, blockEval_nil, BitVec.xor_zero]
  | cons v r ih =>
    obtain ⟨w, s, rfl⟩ := List.exists_cons_of_length_eq_add_one h.symm
    have hlen : r.length = s.length := Nat.succ.inj h
    rw [List.zipWith_cons_cons, ht.blockEval_cons, ht.blockEval_cons, ht.blockEval_cons, ih hlen, List.length_zipWith,
      hlen, Nat.min_self, ht.xor_gfMul]
    ac_rfl

theorem blockEval_map_gfMul (ht : FieldTables poly t) (i : Nat) (a : Byte) (r : Bytes) :
    blockEval t (gfExp t i) (r.map (gfMul t a)) = gfMul t a (blockEval t (gfExp t i) r) := by
  induction r with
  | nil => rw [List.map_nil, blockEval_nil, gfMul_zero]
  | cons v r ih =>
    rw [List.map_cons, ht.blockEval_cons, ih, ht.blockEval_cons, List.length_map, ht.gfMul_assoc, ht.gfMul_xor]

/-- What a changed symbol adds to the value of a block. -/
theorem blockEval_modify_xor (ht : FieldTables poly t) (i : Nat) {r : Bytes} {j : Nat} (hj : j < r.length) (e : Byte) :
    blockEval t (gfExp t i) (r.modify j (· ^^^ e)) =
      blockEval t (gfExp t i) r ^^^ gfMul t e (gfExp t (i * (r.length - 1 - j))) := by
  induction r generalizing j with
  | nil => exact absurd hj (Nat.not_lt_zero j)
  | cons v r ih =>
    cases j with
    | zero =>
      rw [List.modify_zero_cons, ht.blockEval_cons, ht.blockEval_cons, ht.xor_gfMul, List.length_cons,
        Nat.add_sub_cancel, Nat.sub_zero]
      ac_rfl
    | succ j =>
      have hpower : (v :: r).length - 1 - (j + 1) = r.length - 1 - j := by rw [List.length_cons]; omega
      rw [List.modify_succ_cons, ht.blockEval_cons, ht.blockEval_cons, List.length_modify,
        ih (Nat.lt_of_succ_lt_succ hj), hpower, BitVec.xor_assoc]

/-! ### The generator polynomial -/

/-- The value of (x + a)·p is that of p times that of x + a. -/
theorem blockEval_polyMulRoot (ht : FieldTables poly t) (i : Nat) (a : Byte) (p : Bytes) :
    blockEval t (gfExp t i) (polyMulRoot t a p).reverse =
      gfMul t (blockEval t (gfExp t i) p.reverse) (gfExp t i ^^^ a) := by
  have hsum : (polyMulRoot t a p).reverse =
      List.zipWith (· ^^^ ·) (p.reverse ++ [0#8]) (0#8 :: p.reverse.map (gfMul t a)) := by
    rw [polyMulRoot, List.reverse_zipWith (by simp)]
    simp
  rw [hsum, ht.blockEval_zipWith_xor _ (by simp), blockEval_concat_zero, blockEval_zero_cons, ht.blockEval_map_gfMul,
    ht.gfMul_xor, gfMul_comm t a]

end FieldTables

theorem rsGenerator_succ (c : Config) (t : GfTables) (n : Nat) :
    rsGenerator c t (n + 1) = polyMulRoot t (rsRoot c t n) (rsGenerator c t n) := by
  rw [rsGenerator, List.range_succ, List.foldl_append]
  rfl

/-- The generator polynomial is monic (42_reed_solomon.md R162). -/
theorem rsGenerator_getElem_self (c : Config) (t : GfTables) (n : Nat) (h : n < (rsGenerator c t n).length) :
    (rsGenerator c t n)[n] = 1#8 := by
  induction n with
  | zero => rfl
  | succ n ih =>
    have hlast : (rsGenerator c t n)[n]'(by simp) = 1#8 := ih _
    simp [rsGenerator_succ, polyMulRoot, List.getElem_append_right, hlast]

/-- The coefficients of the feedback shift: those of the generator polynomial from x^(n-1) down (42_reed_solomon.md
R164). -/
def rsFeedback (c : Config) (t : GfTables) (n : Nat) : Bytes := ((rsGenerator c t n).take n).reverse

@[simp] theorem rsFeedback_length (c : Config) (t : GfTables) (n : Nat) : (rsFeedback c t n).length = n := by
  simp [rsFeedback]

theorem rsGenerator_reverse (c : Config) (t : GfTables) (n : Nat) :
    (rsGenerator c t n).reverse = 1#8 :: rsFeedback c t n := by
  have hn : n < (rsGenerator c t n).length := by simp
  have hsplit : rsGenerator c t n = (rsGenerator c t n).take n ++ [1#8] := by
    rw [← rsGenerator_getElem_self c t n hn, List.take_append_getElem hn, List.take_of_length_le (by simp)]
  rw [hsplit, List.reverse_append, rsFeedback]
  rfl

theorem rsParity_nil (c : Config) (n : Nat) : rsParity c n [] = List.replicate n 0#8 := rfl

theorem rsParity_concat (c : Config) (n : Nat) (d : Bytes) (v : Byte) :
    rsParity c n (d ++ [v]) =
      parityShift (gfTables c.rsGfPoly) (rsFeedback c (gfTables c.rsGfPoly) n) (rsParity c n d) v :=
  List.foldl_append

namespace FieldTables

variable {poly : BitVec 9} {t : GfTables}

/-- Each root of R162 is a root of the generator polynomial, by the factor it gives. -/
theorem blockEval_rsGenerator (ht : FieldTables poly t) (c : Config) {n k : Nat} (hk : k < n) :
    blockEval t (rsRoot c t k) (rsGenerator c t n).reverse = 0#8 := by
  induction n with
  | zero => exact absurd hk (Nat.not_lt_zero k)
  | succ n ih =>
    have hfactor := ht.blockEval_polyMulRoot ((c.rsFcr + k) * c.rsPrim) (rsRoot c t n) (rsGenerator c t n)
    rw [← rsRoot] at hfactor
    rw [rsGenerator_succ, hfactor]
    rcases Nat.lt_succ_iff_lt_or_eq.1 hk with hlt | rfl
    · rw [ih hlt, zero_gfMul]
    · rw [BitVec.xor_self, gfMul_zero]

/-- At a root the coefficients below the leading one add up to the leading power. -/
theorem blockEval_rsFeedback (ht : FieldTables poly t) (c : Config) {n k : Nat} (hk : k < n) :
    blockEval t (rsRoot c t k) (rsFeedback c t n) = gfExp t ((c.rsFcr + k) * c.rsPrim * n) := by
  have hroot := ht.blockEval_rsGenerator c hk
  rw [rsGenerator_reverse, rsRoot, ht.blockEval_cons, ht.one_gfMul, rsFeedback_length] at hroot
  exact (BitVec.xor_eq_zero_iff.1 hroot).symm

/-! ### Encoding -/

/-- A turn of the feedback shift takes the parity p to x·p + d·x^n modulo the generator polynomial, so at a root that
is what it does to the value (42_reed_solomon.md R164). -/
theorem blockEval_parityShift (ht : FieldTables poly t) (i : Nat) {g bb : Bytes} (d : Byte)
    (hlen : g.length = bb.length) (hpos : 0 < bb.length)
    (hg : blockEval t (gfExp t i) g = gfExp t (i * bb.length)) :
    blockEval t (gfExp t i) (parityShift t g bb d) =
      gfMul t (blockEval t (gfExp t i) bb) (gfExp t i) ^^^ gfMul t d (gfExp t (i * bb.length)) := by
  obtain ⟨b, tl, rfl⟩ := List.exists_cons_of_length_pos hpos
  have hshift : parityShift t g (b :: tl) d =
      List.zipWith (· ^^^ ·) (tl ++ [0#8]) (g.map (gfMul t (d ^^^ b))) := rfl
  rw [hshift, ht.blockEval_zipWith_xor _ (by simp [hlen]), ht.blockEval_map_gfMul, hg, blockEval_concat_zero,
    ht.blockEval_cons, ht.xor_gfMul, ht.xor_gfMul, ht.gfMul_assoc, ht.gfMul_gfExp, List.length_cons, Nat.mul_succ]
  ac_rfl

end FieldTables

section
variable {c : Config} (ht : FieldTables c.rsGfPoly (gfTables c.rsGfPoly))
include ht

/-- The parity has at a root the value of the data times x^n (42_reed_solomon.md R164). -/
theorem blockEval_rsParity {n k : Nat} (hk : k < n) (d : Bytes) :
    blockEval (gfTables c.rsGfPoly) (rsRoot c (gfTables c.rsGfPoly) k) (rsParity c n d) =
      gfMul (gfTables c.rsGfPoly) (blockEval (gfTables c.rsGfPoly) (rsRoot c (gfTables c.rsGfPoly) k) d)
        (gfExp (gfTables c.rsGfPoly) ((c.rsFcr + k) * c.rsPrim * n)) := by
  induction d using List.reverseRecOn with
  | nil => rw [rsParity_nil, blockEval_replicate_zero, blockEval_nil, zero_gfMul]
  | append_singleton d v ih =>
    have hlen := rsParity_length c d (Nat.zero_lt_of_lt hk)
    have hfeedback := ht.blockEval_rsFeedback c hk
    rw [rsRoot] at ih hfeedback ⊢
    rw [rsParity_concat, ht.blockEval_parityShift _ _ (by rw [hlen, rsFeedback_length]) (by omega) (by rwa [hlen]),
      hlen, ih, blockEval_concat, ht.xor_gfMul, ht.gfMul_assoc, ht.gfMul_assoc, gfMul_comm _ (gfExp _ _) (gfExp _ _)]

theorem blockEval_codeword {n k : Nat} (hk : k < n) (d : Bytes) :
    blockEval (gfTables c.rsGfPoly) (rsRoot c (gfTables c.rsGfPoly) k) (d ++ rsParity c n d) = 0#8 := by
  have hparity := blockEval_rsParity ht hk d
  rw [rsRoot] at hparity ⊢
  rw [ht.blockEval_append, rsParity_length c d (Nat.zero_lt_of_lt hk), hparity, BitVec.xor_self]

/-- An encoded block has zero syndromes (42_reed_solomon.md R165). -/
theorem syndromes_codeword (n : Nat) (d : Bytes) :
    syndromes c (gfTables c.rsGfPoly) n (d ++ rsParity c n d) = List.replicate n 0#8 := by
  refine List.eq_replicate_iff.2 ⟨by simp [syndromes], fun v hv => ?_⟩
  obtain ⟨k, hk, rfl⟩ := List.mem_map.1 hv
  exact blockEval_codeword ht (List.mem_range.1 hk) d

end

theorem rsDecode_of_zero_syndromes {c : Config} {n : Nat} {blk : Bytes}
    (h : syndromes c (gfTables c.rsGfPoly) n blk = List.replicate n 0#8) : rsDecode c n blk = some (0, blk) := by
  rw [rsDecode, h]
  exact if_pos (by simp)

end Sys2Proof.Machine
end

section
/-! The decoder on two syndromes in geometric progression, which are those of one changed symbol: the locator has
degree 1, its root gives the symbol's position, and the error value is the change (42_reed_solomon.md R167 to R171). -/

namespace Sys2Proof.Machine

theorem rsRoot_p0 (t : GfTables) (k : Nat) : rsRoot p0 t k = gfExp t k := by
  rw [show rsRoot p0 t k = gfExp t ((0 + k) * 1) from rfl, Nat.zero_add, Nat.mul_one]

/-! ### The rounds of Berlekamp–Massey -/

theorem bmRound_of_eq_zero {t : GfTables} {syn : Bytes} {st : BmState} {r : Nat}
    (h : dotProduct t (st.lam.take r) (syn.take r).reverse = 0#8) :
    bmRound t syn st r = { st with b := polyShift st.b } :=
  if_pos h

theorem bmRound_of_ne_zero {t : GfTables} {syn : Bytes} {st : BmState} {r : Nat} {delta : Byte}
    (h : dotProduct t (st.lam.take r) (syn.take r).reverse = delta) (hne : delta ≠ 0#8) :
    bmRound t syn st r =
      if 2 * st.l ≤ r - 1 then
        { lam := List.zipWith (· ^^^ ·) st.lam ((polyShift st.b).map (gfMul t delta))
          b := st.lam.map (gfMul t (gfInv t delta)), l := r - st.l }
      else
        { lam := List.zipWith (· ^^^ ·) st.lam ((polyShift st.b).map (gfMul t delta))
          b := polyShift st.b, l := st.l } := by
  subst h
  exact if_neg hne

/-! ### A locator of degree 1 -/

/-- A locator of degree 1 among the three coefficients of two parity symbols. -/
def linearLocator (x : Byte) : Bytes := [1#8, x, 0#8]

theorem polyDegree_linearLocator {x : Byte} (hx : x ≠ 0#8) : polyDegree (linearLocator x) = 1 := by
  simp [polyDegree, linearLocator, List.dropWhile, hx]

/-- With one root to find, the Chien search answers the first. -/
theorem chienSearch_one (t : GfTables) (lam : Bytes) (is : List Nat) :
    chienSearch t lam 1 is [] = (is.find? fun i => decide (polyEval t lam (gfExp t i) = 0#8)).toList := by
  induction is with
  | nil => rfl
  | cons i is ih =>
    rw [chienSearch, List.find?_cons, ih]
    by_cases h : polyEval t lam (gfExp t i) = 0#8 <;> simp [h]

theorem correctAt_of_ne_zero {c : Config} {t : GfTables} {omega lam : Bytes} {deg pad i : Nat} {blk : Bytes}
    (h : polyEval t omega (gfExp t i) ≠ 0#8) :
    correctAt c t omega lam deg pad blk i = blk.modify (i - 1 - pad) (· ^^^ errorValue c t omega lam deg i) :=
  if_neg h

namespace FieldTables

variable {poly : BitVec 9} {t : GfTables}

/-- The first round takes the first syndrome for the locator's coefficient. -/
theorem bmRound_one (ht : FieldTables poly t) {e : Byte} (he : e ≠ 0#8) (s1 : Byte) :
    bmRound t [e, s1] { lam := polyOne 2, b := polyOne 2, l := 0 } 1 =
      { lam := linearLocator e, b := [gfInv t e, 0#8, 0#8], l := 1 } := by
  have hdelta : dotProduct t ((polyOne 2).take 1) ([e, s1].take 1).reverse = e := by
    simp [dotProduct, polyOne, ht.one_gfMul]
  rw [bmRound_of_ne_zero hdelta he]
  simp [polyOne, polyShift, linearLocator, ht.gfMul_one]

/-- The second round sets it to the quotient of the syndromes. -/
theorem bmRound_two (ht : FieldTables poly t) {e : Byte} (he : e ≠ 0#8) (x : Byte) :
    (bmRound t [e, gfMul t e x] { lam := linearLocator e, b := [gfInv t e, 0#8, 0#8], l := 1 } 2).lam =
      linearLocator x := by
  have hdelta : dotProduct t ((linearLocator e).take 2) ([e, gfMul t e x].take 2).reverse = gfMul t e (x ^^^ e) := by
    simp [dotProduct, linearLocator, ht.one_gfMul, ht.gfMul_xor]
  rcases eq_or_ne x e with rfl | hx
  · rw [bmRound_of_eq_zero (hdelta.trans (by rw [BitVec.xor_self, gfMul_zero]))]
  · have hne : gfMul t e (x ^^^ e) ≠ 0#8 := ht.gfMul_ne_zero he (mt BitVec.xor_eq_zero_iff.1 hx)
    rw [bmRound_of_ne_zero hdelta hne]
    simp [linearLocator, polyShift, ht.gfMul_gfMul_gfInv he]

theorem errorLocator_geometric (ht : FieldTables poly t) {e : Byte} (he : e ≠ 0#8) (x : Byte) :
    errorLocator t 2 [e, gfMul t e x] = linearLocator x := by
  have hrounds : errorLocator t 2 [e, gfMul t e x] =
      (bmRound t [e, gfMul t e x]
        (bmRound t [e, gfMul t e x] { lam := polyOne 2, b := polyOne 2, l := 0 } 1) 2).lam := rfl
  rw [hrounds, ht.bmRound_one he, ht.bmRound_two he]

/-! ### Position and value -/

/-- The locator of position exponent `p` has α^(-p) as its root (42_reed_solomon.md R169). -/
theorem polyEval_linearLocator_eq_zero_iff (ht : FieldTables poly t) (p i : Nat) :
    polyEval t (linearLocator (gfExp t p)) (gfExp t i) = 0#8 ↔ (i + p) % 255 = 0 := by
  have hval : polyEval t (linearLocator (gfExp t p)) (gfExp t i) = gfExp t 0 ^^^ gfExp t (i + p) := by
    simp [polyEval, linearLocator, ht.gfMul_gfExp, ht.exp_zero]
  rw [hval, BitVec.xor_eq_zero_iff, ht.gfExp_inj]
  omega

theorem chienSearch_linearLocator (ht : FieldTables poly t) {p : Nat} (hp : p < 255) :
    chienSearch t (linearLocator (gfExp t p)) 1 ((List.range 255).map (· + 1)) [] = [255 - p] := by
  have hfind : (List.range 255).find? (fun i => decide ((i + 1 + p) % 255 = 0)) = some (254 - p) := by
    simp only [List.find?_range_eq_some, List.mem_range, decide_eq_true_eq, Bool.not_eq_true', decide_eq_false_iff_not]
    exact ⟨by omega, by omega, fun j hj => by omega⟩
  simp only [chienSearch_one, ht.polyEval_linearLocator_eq_zero_iff, List.find?_map, Function.comp_def, hfind,
    Option.map_some, Option.toList_some, List.cons.injEq, and_true]
  omega

theorem errorEvaluator_geometric (ht : FieldTables poly t) (e s1 x : Byte) :
    errorEvaluator t [e, s1] (linearLocator x) 1 = [e] := by
  simp [errorEvaluator, dotProduct, linearLocator, ht.gfMul_one]

theorem locatorDerivative_linearLocator (ht : FieldTables poly t) (x : Byte) (i : Nat) :
    locatorDerivative t (linearLocator x) 1 i = x := by
  have hodd : (List.range (1 + 1)).filter (· % 2 = 1) = [1] := rfl
  simp [locatorDerivative, hodd, linearLocator, ht.exp_zero, ht.gfMul_one]

theorem polyEval_singleton (t : GfTables) (v x : Byte) : polyEval t [v] x = v := by
  simp [polyEval]

/-- The error value is the first syndrome, the position's powers cancelling (42_reed_solomon.md R169). -/
theorem errorValue_geometric (ht : FieldTables poly t) (e : Byte) {p : Nat} (hp : p < 255) :
    errorValue p0 t [e] (linearLocator (gfExp t p)) 1 (255 - p) = e := by
  have hpower : gfExp t ((255 - p) * (p0.rsFcr + 254)) = gfExp t p := by
    rw [ht.gfExp_inj, show p0.rsFcr + 254 = 254 from rfl]
    omega
  rw [errorValue, polyEval_singleton, hpower, ht.locatorDerivative_linearLocator, ht.gfMul_assoc,
    ht.gfMul_gfInv (ht.gfExp_ne_zero p), ht.gfMul_one]

theorem correctAt_geometric (ht : FieldTables poly t) {e : Byte} (he : e ≠ 0#8) {p : Nat} (hp : p < 255) (pad : Nat)
    (blk : Bytes) :
    correctAt p0 t [e] (linearLocator (gfExp t p)) 1 pad blk (255 - p) = blk.modify (254 - p - pad) (· ^^^ e) := by
  have hne : polyEval t [e] (gfExp t (255 - p)) ≠ 0#8 := by rwa [polyEval_singleton]
  rw [correctAt_of_ne_zero hne, ht.errorValue_geometric e hp, show 255 - p - 1 = 254 - p by omega]

end FieldTables

/-- A block with geometric syndromes is corrected at the position they give. -/
theorem rsDecode_of_geometric_syndromes {blk : Bytes} {e : Byte} (he : e ≠ 0#8) {p : Nat} (hp : p < blk.length)
    (hlen : blk.length ≤ 255)
    (hsyn : syndromes p0 (gfTables p0.rsGfPoly) 2 blk =
      [e, gfMul (gfTables p0.rsGfPoly) e (gfExp (gfTables p0.rsGfPoly) p)]) :
    rsDecode p0 2 blk = some (1, blk.modify (blk.length - 1 - p) (· ^^^ e)) := by
  have ht := fieldTables_p0
  have hp' : p < 255 := by omega
  have hpad : ¬255 - p - 1 < 255 - blk.length := by omega
  have hpos : 254 - p - (255 - blk.length) = blk.length - 1 - p := by omega
  simp only [rsDecode, hsyn, ht.errorLocator_geometric he, polyDegree_linearLocator (ht.gfExp_ne_zero p),
    ht.chienSearch_linearLocator hp', ht.errorEvaluator_geometric]
  simp [he, hpad, ht.correctAt_geometric he hp', hpos]

/-! ### One changed symbol -/

theorem syndromes_two_p0 (t : GfTables) (r : Bytes) :
    syndromes p0 t 2 r = [blockEval t (rsRoot p0 t 0) r, blockEval t (rsRoot p0 t 1) r] := rfl

/-- The syndromes of a codeword with one changed symbol: the change, and the change times the power of the symbol's
position (42_reed_solomon.md R167). -/
theorem syndromes_changed_codeword {d : Bytes} {j : Nat} (hj : j < d.length + 2) (e : Byte) :
    syndromes p0 (gfTables p0.rsGfPoly) 2 ((d ++ rsParity p0 2 d).modify j (· ^^^ e)) =
      [e, gfMul (gfTables p0.rsGfPoly) e (gfExp (gfTables p0.rsGfPoly) (d.length + 1 - j))] := by
  have ht := fieldTables_p0
  have hlen : (d ++ rsParity p0 2 d).length = d.length + 2 := by
    rw [List.length_append, rsParity_length p0 d (by decide)]
  have hvalue {k : Nat} (hk : k < 2) :
      blockEval (gfTables p0.rsGfPoly) (rsRoot p0 (gfTables p0.rsGfPoly) k)
          ((d ++ rsParity p0 2 d).modify j (· ^^^ e)) =
        gfMul (gfTables p0.rsGfPoly) e (gfExp (gfTables p0.rsGfPoly) (k * (d.length + 1 - j))) := by
    have hzero := blockEval_codeword ht hk d
    rw [rsRoot_p0] at hzero ⊢
    rw [ht.blockEval_modify_xor _ (hlen ▸ hj), hzero, BitVec.zero_xor, hlen, Nat.add_succ_sub_one]
  rw [syndromes_two_p0, hvalue (by decide), hvalue (by decide), Nat.zero_mul, Nat.one_mul, ht.exp_zero, ht.gfMul_one]

/-- Changing a symbol twice by the same value restores it. -/
theorem modify_xor_modify_xor (r : Bytes) (j : Nat) (e : Byte) :
    (r.modify j (· ^^^ e)).modify j (· ^^^ e) = r := by
  have hself : (· ^^^ e) ∘ (· ^^^ e) = (id : Byte → Byte) := funext fun v => by simp
  rw [List.modify_modify_eq, hself, List.modify_id]

end Sys2Proof.Machine
end

section
/-! RS_ENCODE and RS_DECODE from the IMM8 that gives the parity count on: what they answer on each outcome of their
checks (30_encoding.md R82; 42_reed_solomon.md R166, R170). -/

namespace Sys2Proof.Machine

theorem parityOperand_of_mem {n : Nat} (h : n ∈ parityCounts) : parityOperand (BitVec.ofNat 8 n) = some n := by
  revert n; decide

theorem withOperand_of_mem_parityCounts {n : Nat} (h : n ∈ parityCounts) (s : State) (k : Nat → State) :
    s.withOperand (parityOperand (BitVec.ofNat 8 n)) k = k n := by
  rw [parityOperand_of_mem h, State.withOperand_some]

theorem nr_allows_eq_false {imm : Byte} (h : imm.toNat ∉ parityCounts) : ImmKind.nr.allows imm = false := by
  revert imm; decide +kernel

/-- Only the five parity counts are allowed (30_encoding.md R82). -/
theorem not_wf_of_nr {i : Instr} (hkind : i.immKind = .nr) (h : i.imm8.toNat ∉ parityCounts) : i.wf = false := by
  rw [Instr.wf, hkind, nr_allows_eq_false h]

theorem rsDecode_prologue (s : State) (n : Nat) :
    rsDecode s.prologue.cfg n (s.prologue.memRead s.prologue.arg0.toNat (s.prologue.arg1.toNat + n)) =
      rsDecode s.cfg n (lmemBytes s.lmem s.arg0.toNat (s.arg1.toNat + n)) := rfl

section
variable {s : State} {n : Nat} (hn : n ∈ parityCounts)
include hn

/-! ### RS_ENCODE -/

theorem exec_rsEncode_of_not_length (h : ¬rsLengthOk s.arg1.toNat n) :
    exec (.rsEncode (BitVec.ofNat 8 n)) s = .next (errorState s .invalidLength) :=
  congrArg _ ((withOperand_of_mem_parityCounts hn ..).trans (State.check_neg _ _ _ h))

theorem exec_rsEncode_of_not_region (hlen : rsLengthOk s.arg1.toNat n)
    (h : ¬regionOk s.cfg s.arg0.toNat s.arg1.toNat) :
    exec (.rsEncode (BitVec.ofNat 8 n)) s = .next (errorState s .addressError) :=
  congrArg _ ((withOperand_of_mem_parityCounts hn ..).trans
    ((State.check_pos _ _ _ hlen).trans (State.check_neg _ _ _ h)))

theorem exec_rsEncode_of_region (hlen : rsLengthOk s.arg1.toNat n) (h : regionOk s.cfg s.arg0.toNat s.arg1.toNat) :
    exec (.rsEncode (BitVec.ofNat 8 n)) s =
      .next (s.prologue.deliver s.arg2.toNat (rsParity s.cfg n (sourceBytes s))
        fun t => { t with result0 := toWord n }) :=
  congrArg _ ((withOperand_of_mem_parityCounts hn ..).trans
    ((State.check_pos _ _ _ hlen).trans (State.check_pos _ _ _ h)))

/-! ### RS_DECODE -/

theorem exec_rsDecode_of_not_length (h : ¬rsLengthOk s.arg1.toNat n) :
    exec (.rsDecode (BitVec.ofNat 8 n)) s = .next (errorState s .invalidLength) :=
  congrArg _ ((withOperand_of_mem_parityCounts hn ..).trans (State.check_neg _ _ _ h))

theorem exec_rsDecode_of_not_region (hlen : rsLengthOk s.arg1.toNat n)
    (h : ¬regionOk s.cfg s.arg0.toNat (s.arg1.toNat + n)) :
    exec (.rsDecode (BitVec.ofNat 8 n)) s = .next (errorState s .addressError) := by
  refine congrArg _ ((withOperand_of_mem_parityCounts hn ..).trans ((State.check_pos _ _ _ hlen).trans ?_))
  exact State.check_neg _ _ _ h

theorem exec_rsDecode_of_uncorrectable (hlen : rsLengthOk s.arg1.toNat n)
    (h : regionOk s.cfg s.arg0.toNat (s.arg1.toNat + n))
    (hres : rsDecode s.cfg n (lmemBytes s.lmem s.arg0.toNat (s.arg1.toNat + n)) = none) :
    exec (.rsDecode (BitVec.ofNat 8 n)) s = .next (errorState s .uncorrectable) := by
  refine congrArg _ ((withOperand_of_mem_parityCounts hn ..).trans ((State.check_pos _ _ _ hlen).trans ?_))
  refine (State.check_pos _ _ _ h).trans ?_
  rw [rsDecode_prologue, hres]
  rfl

theorem exec_rsDecode_of_corrected (hlen : rsLengthOk s.arg1.toNat n)
    (h : regionOk s.cfg s.arg0.toNat (s.arg1.toNat + n)) {r : Nat × Bytes}
    (hres : rsDecode s.cfg n (lmemBytes s.lmem s.arg0.toNat (s.arg1.toNat + n)) = some r) :
    exec (.rsDecode (BitVec.ofNat 8 n)) s =
      .next (s.prologue.deliver s.arg2.toNat r.2 fun t => { t with result0 := toWord r.1 }) := by
  refine congrArg _ ((withOperand_of_mem_parityCounts hn ..).trans ((State.check_pos _ _ _ hlen).trans ?_))
  refine (State.check_pos _ _ _ h).trans ?_
  rw [rsDecode_prologue, hres]
  rfl

end

end Sys2Proof.Machine
end

section
/-! The obligations of 42_reed_solomon.md. -/

namespace Sys2Proof.Proofs

open Sys2Proof.Machine

/-- Settles O36: the parity cancels the data at every root of the generator polynomial. -/
theorem codewordDecodesToItself : Obligations.CodewordDecodesToItself := by
  intro nroots d _ _ _ c
  have hsyn := syndromes_codeword fieldTables_p0 nroots d
  exact ⟨hsyn, rsDecode_of_zero_syndromes hsyn⟩

/-- Settles O37: the syndromes give the position and the change, and the change made again restores the block. -/
theorem singleSymbolCorrected : Obligations.SingleSymbolCorrected := by
  intro d j e hd hfits hj he c
  have hlen : (c.modify j (· ^^^ e)).length = d.length + 2 := by
    rw [List.length_modify, List.length_append, rsParity_length p0 d (by decide)]
  have hpos : d.length + 2 - 1 - (d.length + 1 - j) = j := by omega
  rw [rsDecode_of_geometric_syndromes (blk := c.modify j (· ^^^ e)) he (by omega) (by omega)
    (syndromes_changed_codeword hj e), hlen, hpos, modify_xor_modify_xor]

/-- Settles O38: length and source checks, then the delivery of the parity. -/
theorem rsEncodeResult : Obligations.RsEncodeResult := by
  intro s n hn k dst i
  have hpos : 0 < n := by revert n; decide
  have hout : (rsParity s.cfg n (sourceBytes s)).length = n := rsParity_length _ _ hpos
  refine ⟨exec_rsEncode_of_not_length hn, exec_rsEncode_of_not_region hn, fun hlen hsource hdst => ?_,
    fun hlen hsource hdst => ⟨_, ?_, stored_memWriteBytes _ _ _⟩,
    fun imm himm => exec_of_not_wf (i := .rsEncode imm) (not_wf_of_nr rfl himm) s⟩
  · rw [exec_rsEncode_of_region hn hlen hsource, State.deliver_of_not_region _ (by rwa [hout])]
  · rw [exec_rsEncode_of_region hn hlen hsource, State.deliver_of_region _ (by rwa [hout])]
    rfl

/-- Settles O39: length and source checks, the decoder, then the delivery of a block of the same length. -/
theorem rsDecodeResult : Obligations.RsDecodeResult := by
  intro s n hn k m dst i res
  have hout {count : Nat} {c : Bytes} (hres : res = some (count, c)) : c.length = m :=
    (rsDecode_length hres).trans (lmemBytes_length ..)
  refine ⟨exec_rsDecode_of_not_length hn, exec_rsDecode_of_not_region hn,
    exec_rsDecode_of_uncorrectable hn, fun count c hlen hsource hres hdst => ?_,
    fun count c hlen hsource hres hdst => ⟨_, ?_, hout hres, stored_memWriteBytes _ _ _⟩,
    fun imm himm => exec_of_not_wf (i := .rsDecode imm) (not_wf_of_nr rfl himm) s⟩
  · exact (exec_rsDecode_of_corrected hn hlen hsource hres).trans
      (congrArg _ (State.deliver_of_not_region _ (by rwa [hout hres])))
  · exact (exec_rsDecode_of_corrected hn hlen hsource hres).trans
      (congrArg _ (State.deliver_of_region _ (by rwa [hout hres])))

/-- Settles O35: an evaluation of the closed tables, generator polynomials and check values. -/
theorem printedTablesAtP0 : Obligations.PrintedTablesAtP0 := by
  unfold Obligations.PrintedTablesAtP0
  decide +kernel

end Sys2Proof.Proofs
end

section
/-! The nibble code: `hamDecode` is the first nearest nibble, bytes near a codeword decode to its nibble, and at P0
every byte but for bit 7 is near a codeword (43_hamming_crc.md R191 to R195). -/

namespace Sys2Proof.Machine

/-! ### The number of 1 bits as a Hamming distance -/

/-- A byte as the function from positions to bits that the library's `hammingDist` compares. -/
def bitAt (v : Byte) : Fin 8 → Bool := fun i => v.getLsbD i

theorem popcount_eq_card (v : Byte) :
    popcount v = (Finset.univ.filter fun i : Fin 8 => v.getLsbD i = true).card := by
  rw [popcount, ← List.map_coe_finRange_eq_range, List.filter_map, List.length_map, Fin.univ_def]
  simp [Finset.card_def, Function.comp_def]

/-- Ties `popcount` to the library's Hamming distance, whose metric laws the lemmas below use. -/
theorem popcount_xor (a b : Byte) : popcount (a ^^^ b) = hammingDist (bitAt a) (bitAt b) := by
  calc popcount (a ^^^ b)
      = (Finset.univ.filter fun i : Fin 8 => (a ^^^ b).getLsbD i = true).card := popcount_eq_card _
    _ = hammingDist (bitAt a) (bitAt b) := by simp [hammingDist, bitAt]

theorem popcount_xor_triangle (a b v : Byte) : popcount (a ^^^ b) ≤ popcount (v ^^^ a) + popcount (v ^^^ b) := by
  simp only [popcount_xor]
  exact hammingDist_triangle_left _ _ _

/-! ### HAM_DEC as a minimum -/

/-- The nibbles in the order in which HAM_DEC compares them. -/
def nibbles : List (BitVec 4) := (List.range 16).map (BitVec.ofNat 4)

theorem idxOf_nibbles (m : BitVec 4) : nibbles.idxOf m = m.toNat := by revert m; decide

theorem mem_nibbles (m : BitVec 4) : m ∈ nibbles := by revert m; decide

/-- The comparison loop of HAM_DEC is the library's `argmin` (43_hamming_crc.md R192): that the loop begins with 0 as
the best is the same, since 0 is then compared with itself first. -/
theorem argmin_hamDistance (c : Config) (v : Byte) :
    nibbles.argmin (hamDistance c v) = some (hamDecode c v) := by
  calc nibbles.argmin (hamDistance c v)
      = nibbles.foldl (List.argAux fun m best => hamDistance c v m < hamDistance c v best) (some 0) := by
        simp [List.argmin, nibbles, List.range_succ_eq_map, List.argAux]
    _ = some (hamDecode c v) := List.foldl_hom some fun best m => (apply_ite some _ _ _).symm

theorem hamDecode_nearest (c : Config) (v : Byte) (m : BitVec 4) :
    hamDistance c v (hamDecode c v) ≤ hamDistance c v m := by
  obtain ⟨-, hmin, -⟩ := List.argmin_eq_some_iff.1 (argmin_hamDistance c v)
  exact hmin m (mem_nibbles m)

theorem hamDecode_smallest {c : Config} {v : Byte} {m : BitVec 4}
    (h : hamDistance c v m = hamDistance c v (hamDecode c v)) : (hamDecode c v).toNat ≤ m.toNat := by
  obtain ⟨-, -, hfirst⟩ := List.argmin_eq_some_iff.1 (argmin_hamDistance c v)
  simpa only [idxOf_nibbles] using hfirst m (mem_nibbles m) h.le

/-- HAM_DEC compares distances only: adding one amount to all of them changes nothing. -/
theorem hamDecode_eq_of_distance_add {c : Config} {v w : Byte} {k : Nat}
    (h : ∀ m, hamDistance c w m = hamDistance c v m + k) : hamDecode c w = hamDecode c v := by
  simp only [hamDecode, h, Nat.add_lt_add_iff_right]

/-! ### Codewords three bits apart -/

theorem three_le_popcount_hamEncode {c : Config} (hc : hamEncCorrects c.hamEnc.toList = true) {m n : BitVec 4}
    (h : m ≠ n) : 3 ≤ popcount (hamEncode c m ^^^ hamEncode c n) := by
  have apart {i j : BitVec 4} (hij : i.toNat < j.toNat) : 3 ≤ popcount (hamEncode c i ^^^ hamEncode c j) := by
    have hpairs := List.pairwise_iff_getElem.1 (of_decide_eq_true hc)
    exact hpairs i.toNat j.toNat (by simpa using i.isLt) (by simpa using j.isLt) hij
  rcases Nat.lt_or_gt_of_ne (mt BitVec.eq_of_toNat_eq h) with hlt | hgt
  · exact apart hlt
  · rw [BitVec.xor_comm]
    exact apart hgt

/-- Two codewords within one bit of a byte would be two bits apart at most (43_hamming_crc.md R195). -/
theorem hamDecode_of_near {c : Config} (hc : hamEncCorrects c.hamEnc.toList = true) {v : Byte} {m : BitVec 4}
    (h : hamDistance c v m ≤ 1) : hamDecode c v = m := by
  by_contra hne
  have hapart := three_le_popcount_hamEncode hc hne
  have htriangle := popcount_xor_triangle (hamEncode c (hamDecode c v)) (hamEncode c m) v
  have hnearest := hamDecode_nearest c v m
  simp only [hamDistance] at h hnearest
  omega

theorem hamDistance_hamEncode_flip (c : Config) (m : BitVec 4) (j : Fin 8) :
    hamDistance c (hamEncode c m ^^^ (1 <<< j.val)) m = 1 := by
  have hbit : popcount (1 <<< j.val) = 1 := by revert j; decide
  rw [hamDistance, BitVec.xor_comm, ← BitVec.xor_assoc, BitVec.xor_self, BitVec.zero_xor, hbit]

/-! ### P0: a perfect code in the seven low bits -/

theorem hamEncCorrects_p0 : hamEncCorrects p0.hamEnc.toList = true := by decide +kernel

/-- Every byte is one without bit 7, or such a byte with bit 7 flipped. -/
theorem byte_topBit_cases {P : Byte → Prop} (low : ∀ v, v.getLsbD 7 = false → P v)
    (high : ∀ v, v.getLsbD 7 = false → P (v ^^^ 0x80)) (v : Byte) : P v := by
  cases h : v.getLsbD 7 with
  | false => exact low v h
  | true =>
    have hback := high (v ^^^ 0x80) (by simp [h])
    rwa [BitVec.xor_assoc, BitVec.xor_self, BitVec.xor_zero] at hback

/-- Sixteen codewords and their seven neighbours each are all 128 values of the seven low bits. -/
theorem exists_near_p0 {v : Byte} (h : v.getLsbD 7 = false) : ∃ m, hamDistance p0 v m ≤ 1 := by
  revert v; decide +kernel

/-- No codeword of P0 has bit 7. -/
theorem hamDistance_p0_flip_topBit {v : Byte} (h : v.getLsbD 7 = false) (m : BitVec 4) :
    hamDistance p0 (v ^^^ 0x80) m = hamDistance p0 v m + 1 := by
  have hcode : (hamEncode p0 m).getLsbD 7 = false := by revert m; decide
  have hflip : ∀ w : Byte, w.getLsbD 7 = false → popcount (w ^^^ 0x80) = popcount w + 1 := by decide +kernel
  have hcomm : v ^^^ 0x80 ^^^ hamEncode p0 m = v ^^^ hamEncode p0 m ^^^ 0x80 := by
    rw [BitVec.xor_assoc, BitVec.xor_comm 0x80, BitVec.xor_assoc]
  rw [hamDistance, hcomm, hflip _ (by rw [BitVec.getLsbD_xor, h, hcode, Bool.xor_false]), hamDistance]

theorem hamDecode_p0_flip_topBit (v : Byte) : hamDecode p0 (v ^^^ 0x80) = hamDecode p0 v := by
  refine byte_topBit_cases (P := fun v => hamDecode p0 (v ^^^ 0x80) = hamDecode p0 v) (fun v h => ?_) (fun v h => ?_) v
  · exact hamDecode_eq_of_distance_add (hamDistance_p0_flip_topBit h)
  · rw [BitVec.xor_assoc, BitVec.xor_self, BitVec.xor_zero]
    exact (hamDecode_eq_of_distance_add (hamDistance_p0_flip_topBit h)).symm

/-- A byte without bit 7 is within one bit of its codeword, so no other codeword is as near. -/
theorem hamDecode_p0_no_tie_of_low {v : Byte} (hv : v.getLsbD 7 = false) {m : BitVec 4}
    (h : hamDistance p0 v m = hamDistance p0 v (hamDecode p0 v)) : m = hamDecode p0 v := by
  obtain ⟨n, hn⟩ := exists_near_p0 hv
  have hm : hamDistance p0 v m ≤ 1 := h.trans_le ((hamDecode_nearest p0 v n).trans hn)
  exact (hamDecode_of_near hamEncCorrects_p0 hm).symm

theorem hamDecode_p0_no_tie (v : Byte) (m : BitVec 4) :
    hamDistance p0 v m = hamDistance p0 v (hamDecode p0 v) → m = hamDecode p0 v := by
  refine byte_topBit_cases (fun v hv h => hamDecode_p0_no_tie_of_low hv h) (fun v hv h => ?_) v
  rw [hamDecode_p0_flip_topBit] at h ⊢
  rw [hamDistance_p0_flip_topBit hv, hamDistance_p0_flip_topBit hv] at h
  exact hamDecode_p0_no_tie_of_low hv (Nat.succ.inj h)

end Sys2Proof.Machine
end

section
/-! The CRC behind the nibble code, and CRC_CALC and CRC_VERIFY on each outcome of their source check
(43_hamming_crc.md R193 to R197). -/

namespace Sys2Proof.Machine

/-! ### Encoding and decoding nibble by nibble -/

/-- Each step towards a higher byte of an EncodedCrc drops the lowest byte. -/
theorem crcCodeByte_crcEncode (c : Config) (x : Half) {i : Nat} (hi : i < 4) :
    crcCodeByte (crcEncode c x) i = hamEncode c (crcNibble x i) := by
  have dropLow {n k : Nat} (high : BitVec n) (low : Byte) (hk : 8 ≤ k) :
      (high ++ low).extractLsb' k 8 = high.extractLsb' (k - 8) 8 := BitVec.extractLsb'_append_eq_of_le hk
  rw [crcCodeByte, crcEncode, BitVec.setWidth_eq]
  match i, hi with
  | 0, _ => exact BitVec.extractLsb'_append_eq_right
  | 1, _ => exact (dropLow _ _ (by decide)).trans BitVec.extractLsb'_append_eq_right
  | 2, _ =>
    exact (dropLow _ _ (by decide)).trans ((dropLow _ _ (by decide)).trans BitVec.extractLsb'_append_eq_right)
  | 3, _ =>
    exact (dropLow _ _ (by decide)).trans ((dropLow _ _ (by decide)).trans BitVec.extractLsb'_append_eq_left)

theorem crcNibbles_append (x : Half) :
    (crcNibble x 3 ++ crcNibble x 2 ++ crcNibble x 1 ++ crcNibble x 0).setWidth 16 = x := by
  simp only [crcNibble, BitVec.extractLsb'_append_extractLsb'_eq_extractLsb', BitVec.setWidth_eq]
  exact BitVec.extractLsb'_eq_self

/-- A word whose four bytes decode to the nibbles of a CRC decodes to that CRC (43_hamming_crc.md R193). -/
theorem crcDecode_of_bytes {c : Config} {e : Word} {x : Half}
    (h : ∀ i, i < 4 → hamDecode c (crcCodeByte e i) = crcNibble x i) : crcDecode c e = x := by
  rw [crcDecode, h 3 (by decide), h 2 (by decide), h 1 (by decide), h 0 (by decide), crcNibbles_append]

theorem crcDecode_of_near {c : Config} (hc : hamEncCorrects c.hamEnc.toList = true) {e : Word} {x : Half}
    (h : ∀ i, i < 4 → popcount (crcCodeByte e i ^^^ crcCodeByte (crcEncode c x) i) ≤ 1) : crcDecode c e = x := by
  refine crcDecode_of_bytes fun i hi => hamDecode_of_near hc ?_
  rw [hamDistance, ← crcCodeByte_crcEncode c x hi]
  exact h i hi

/-! ### CRC_CALC -/

theorem exec_crcCalc_of_not_region {s : State} (h : ¬regionOk s.cfg s.arg0.toNat s.arg1.toNat) :
    exec .crcCalc s = .next (errorState s .addressError) :=
  congrArg _ (State.check_neg _ _ _ h)

theorem exec_crcCalc_of_region {s : State} (h : regionOk s.cfg s.arg0.toNat s.arg1.toNat) :
    exec .crcCalc s = .next (resultState s .ok (crcEncode s.cfg (crc16 s.cfg (sourceBytes s)))
      ((crc16 s.cfg (sourceBytes s)).setWidth 32) 0) :=
  congrArg _ (State.check_pos _ _ _ h)

/-! ### CRC_VERIFY -/

theorem exec_crcVerify_of_not_region {s : State} (h : ¬regionOk s.cfg s.arg0.toNat s.arg1.toNat) :
    exec .crcVerify s = .next (errorState s .addressError) :=
  congrArg _ (State.check_neg _ _ _ h)

/-- CRC_VERIFY on a source inside LMEM answers whether the received CRC verifies (43_hamming_crc.md R197). -/
theorem exec_crcVerify_of_region {s : State} (h : regionOk s.cfg s.arg0.toNat s.arg1.toNat) {ok : Bool}
    (hok : crcVerifies s.cfg (sourceBytes s) s.arg3 = ok) :
    exec .crcVerify s =
      .next { resultState s (if ok then .ok else .crcMismatch) (bitWord ok) 0
          (halves (crcDecode s.cfg s.arg3) (crc16 s.cfg (sourceBytes s))) with
        status := { code := if ok then .ok else .crcMismatch, crcBad := !ok, noTrailer := false,
                    discarded := false } } := by
  subst hok
  exact congrArg _ (State.check_pos _ _ _ h)

end Sys2Proof.Machine
end

section
/-! The obligations of 43_hamming_crc.md. -/

namespace Sys2Proof.Proofs

open Sys2Proof.Machine

/-- Settles O40: HAM_DEC is the first minimum of the distances; at P0 that minimum is at most one, bit 7 aside. -/
theorem hamDecodeIsNearest : Obligations.HamDecodeIsNearest :=
  ⟨fun c v m => ⟨hamDecode_nearest c v m, hamDecode_smallest⟩, hamDecode_p0_no_tie,
    fun v => (hamDecode_p0_flip_topBit v).symm⟩

/-- Settles O41: codewords are three bits apart, and an encoded CRC is decoded byte by byte. -/
theorem oneBitPerCrcByteIsCorrected : Obligations.OneBitPerCrcByteIsCorrected := by
  intro c hvalid
  have hc := (validParams hvalid).hamEnc
  refine ⟨fun m j => hamDecode_of_near hc (hamDistance_hamEncode_flip c m j).le, fun p e hnear => ?_⟩
  exact decide_eq_true (crcDecode_of_near hc hnear)

/-- Settles O42: the source check, then CRC_VERIFY by whether the received CRC verifies. -/
theorem crcCommandResults : Obligations.CrcCommandResults := by
  intro s p d c
  refine ⟨fun hsource => ⟨exec_crcCalc_of_not_region hsource, exec_crcVerify_of_not_region hsource⟩,
    fun hsource => ⟨exec_crcCalc_of_region hsource, fun hmatch => ?_, fun hdiffer => ?_⟩⟩
  · exact exec_crcVerify_of_region hsource (decide_eq_true hmatch)
  · exact exec_crcVerify_of_region hsource (decide_eq_false hdiffer)

end Sys2Proof.Proofs
end

section
/-! The header bit by bit: what building puts at each position, and that parsing is the number whose bits stand at the
length positions (44_frame_codec.md R212 to R214). -/

namespace Sys2Proof.Machine

/-! ### Bits of a header -/

/-- The bit of a header at a position as HDR_LEN_POS writes it, the byte and the bit in it. -/
def headerBit (h : Bytes) (p : Fin 13 × Fin 8) : Bool := (h.getD p.1.val 0).getLsbD p.2.val

theorem getLsbD_setBit (i k : Fin 8) (x : Bool) (v : Byte) :
    (setBit i.val x v).getLsbD k.val = if k = i then x else v.getLsbD k.val := by
  have hmask : (1#8 <<< i.val).getLsbD k.val = decide (k = i) := by revert i k; decide
  cases x with
  | false =>
    simp only [setBit, Bool.false_eq_true, if_false, BitVec.getLsbD_and, BitVec.getLsbD_not, hmask]
    split <;> simp [*]
  | true =>
    simp only [setBit, if_true, BitVec.getLsbD_or, hmask]
    split <;> simp [*]

/-- Setting one bit of a header leaves every other bit. -/
theorem headerBit_modify_setBit {h : Bytes} (hlen : h.length = 13) (p q : Fin 13 × Fin 8) (x : Bool) :
    headerBit (h.modify p.1.val (setBit p.2.val x)) q = if q = p then x else headerBit h q := by
  obtain ⟨a, i⟩ := p
  obtain ⟨b, k⟩ := q
  by_cases hbyte : a = b
  · subst hbyte
    have ha : a.val < h.length := by omega
    simp only [headerBit, List.getD_eq_getElem _ _ ha, List.getD_eq_getElem _ _ ((List.length_modify ..).symm ▸ ha),
      List.getElem_modify_eq, getLsbD_setBit, Prod.mk.injEq, true_and]
  · have hne : a.val ≠ b.val := fun h => hbyte (Fin.ext h)
    simp [headerBit, hne, Ne.symm hbyte]

/-! ### Building -/

/-- The header with the bits of `n` at the positions of `l` (44_frame_codec.md R213). -/
def injectLength (n : Nat) (l : List ((Fin 13 × Fin 8) × Nat)) (h : Bytes) : Bytes :=
  l.foldl (fun h pj => h.modify pj.1.1.val (setBit pj.1.2.val (n.testBit pj.2))) h

theorem hdrBuild_eq_injectLength (c : Config) (n : Nat) :
    hdrBuild c n = injectLength n (lengthBits c) c.hdrTemplate.toList := rfl

theorem headerBit_injectLength_of_not_mem {n : Nat} {q : Fin 13 × Fin 8} {l : List ((Fin 13 × Fin 8) × Nat)}
    (hq : q ∉ l.map Prod.fst) {h : Bytes} (hlen : h.length = 13) :
    headerBit (injectLength n l h) q = headerBit h q := by
  induction l generalizing h with
  | nil => rfl
  | cons pj l ih =>
    obtain ⟨hhead, htail⟩ := not_or.1 (mt List.mem_cons.2 hq)
    have hrest := ih htail (h := h.modify pj.1.1.val (setBit pj.1.2.val (n.testBit pj.2))) (by simpa using hlen)
    exact hrest.trans ((headerBit_modify_setBit hlen ..).trans (if_neg hhead))

theorem headerBit_injectLength_of_mem {n : Nat} {l : List ((Fin 13 × Fin 8) × Nat)} (hl : (l.map Prod.fst).Nodup)
    {q : Fin 13 × Fin 8} {j : Nat} (hq : (q, j) ∈ l) {h : Bytes} (hlen : h.length = 13) :
    headerBit (injectLength n l h) q = n.testBit j := by
  induction l generalizing h with
  | nil => cases hq
  | cons pj l ih =>
    obtain ⟨hhead, htail⟩ := List.nodup_cons.1 hl
    have hlen' : (h.modify pj.1.1.val (setBit pj.1.2.val (n.testBit pj.2))).length = 13 := by simpa using hlen
    rcases List.mem_cons.1 hq with rfl | hq
    · exact (headerBit_injectLength_of_not_mem hhead hlen').trans
        ((headerBit_modify_setBit hlen ..).trans (if_pos rfl))
    · exact ih htail hq hlen'

/-! ### The ten length bits -/

theorem lengthBits_eq_ofFn (c : Config) :
    lengthBits c = List.ofFn fun j : Fin 10 => (c.hdrLenPos.get j, j.val) := by
  refine List.ext_getElem ?_ fun i h1 h2 => ?_
  · rw [lengthBits, List.length_zipIdx, Vector.length_toList, List.length_ofFn]
  · rw [List.getElem_ofFn]
    simp [lengthBits, Vector.get]

theorem map_fst_lengthBits (c : Config) : (lengthBits c).map Prod.fst = c.hdrLenPos.toList :=
  List.zipIdx_map_fst ..

/-- Length bit `j` stands at position `j` (44_frame_codec.md R213). -/
theorem headerBit_hdrBuild_length {c : Config} (hpos : (c.hdrLenPos.toList.map Prod.fst).Nodup) (n : Nat)
    (j : Fin 10) : headerBit (hdrBuild c n) (c.hdrLenPos.get j) = n.testBit j.val := by
  have hnodup : ((lengthBits c).map Prod.fst).Nodup := by
    rw [map_fst_lengthBits]
    exact hpos.of_map _
  have hmem : (c.hdrLenPos.get j, j.val) ∈ lengthBits c := by
    rw [lengthBits_eq_ofFn]
    exact List.mem_ofFn.2 ⟨j, rfl⟩
  rw [hdrBuild_eq_injectLength, headerBit_injectLength_of_mem hnodup hmem (Vector.length_toList ..)]

/-- Every bit that carries no length bit is the template's (44_frame_codec.md R213). -/
theorem headerBit_hdrBuild_template {c : Config} {q : Fin 13 × Fin 8} (hq : ∀ j : Fin 10, c.hdrLenPos.get j ≠ q)
    (n : Nat) : headerBit (hdrBuild c n) q = (c.hdrTemplate.get q.1).getLsbD q.2.val := by
  have hmem : q ∉ (lengthBits c).map Prod.fst := by
    rw [lengthBits_eq_ofFn, List.map_ofFn, List.mem_ofFn]
    exact fun ⟨j, hj⟩ => hq j hj
  rw [hdrBuild_eq_injectLength, headerBit_injectLength_of_not_mem hmem (Vector.length_toList ..)]
  simp [headerBit, Vector.get]

/-! ### Parsing -/

theorem hdrParse_eq_sum (c : Config) (h : Bytes) :
    hdrParse c h = ∑ j : Fin 10, (headerBit h (c.hdrLenPos.get j)).toNat * 2 ^ j.val := by
  have hfold : hdrParse c h = ((lengthBits c).map fun pj => (headerBit h pj.1).toNat * 2 ^ pj.2).sum := by
    rw [List.sum_eq_foldl, List.foldl_map]
    rfl
  rw [hfold, lengthBits_eq_ofFn, List.map_ofFn, List.sum_ofFn]
  rfl

theorem sum_toNat_mul_two_pow {k : Nat} (f : Fin k → Bool) :
    ∑ j : Fin k, (f j).toNat * 2 ^ j.val = Nat.ofBits f := by
  induction k with
  | zero => rfl
  | succ k ih =>
    rw [Fin.sum_univ_succ, Nat.ofBits_succ, ← ih, Finset.mul_sum, add_comm]
    simp [pow_succ', mul_left_comm]

/-- Parsing is the number with the ten length bits (44_frame_codec.md R213). -/
theorem hdrParse_eq_ofBits (c : Config) (h : Bytes) :
    hdrParse c h = Nat.ofBits fun j : Fin 10 => headerBit h (c.hdrLenPos.get j) :=
  (hdrParse_eq_sum c h).trans (sum_toNat_mul_two_pow _)

theorem hdrParse_le (c : Config) (h : Bytes) : hdrParse c h ≤ 1023 := by
  rw [hdrParse_eq_ofBits]
  exact Nat.le_of_lt_succ (Nat.ofBits_lt_two_pow _)

theorem hdrParse_hdrBuild {c : Config} (hpos : (c.hdrLenPos.toList.map Prod.fst).Nodup) {n : Nat} (hn : n ≤ 1023) :
    hdrParse c (hdrBuild c n) = n := by
  simp only [hdrParse_eq_ofBits, headerBit_hdrBuild_length hpos, Nat.ofBits_testBit]
  exact Nat.mod_eq_of_lt (Nat.lt_succ_of_le hn)

end Sys2Proof.Machine
end
section
/-! The encoded frame part by part, and that its CRC verifies (43_hamming_crc.md R193, R194; 44_frame_codec.md R211,
R217). -/

namespace Sys2Proof.Machine

/-! ### The encoded CRC on the wire -/

theorem crcOfWire_crcCodeByte (e : Word) :
    crcOfWire (crcCodeByte e 3) (crcCodeByte e 2) (crcCodeByte e 1) (crcCodeByte e 0) = e := by
  simp only [crcOfWire, crcCodeByte, BitVec.extractLsb'_append_extractLsb'_eq_extractLsb', BitVec.setWidth_eq]
  exact BitVec.extractLsb'_eq_self

/-- An encoded CRC that nothing has changed decodes to the CRC (43_hamming_crc.md R194). -/
theorem crcDecode_crcCalculate {c : Config} (hc : hamEncCorrects c.hamEnc.toList = true) (p : Bytes) :
    crcDecode c (crcCalculate c p) = crc16 c p := by
  refine crcDecode_of_near hc fun i _ => ?_
  rw [crcCalculate, BitVec.xor_self]
  decide

/-! ### The parts of a frame -/

/-- The header of a payload of `n` bytes as it is sent, with its parity. -/
def headerBlock (c : Config) (n : Nat) : Bytes :=
  scrambleBlock c (hdrBuild c n) ++ rsParity c 2 (scrambleBlock c (hdrBuild c n))

/-- A payload as it is sent, with its parity. -/
def payloadBlock (c : Config) (d : Bytes) : Bytes := scrambleBlock c d ++ rsParity c 16 (scrambleBlock c d)

theorem fcEncode_frame (c : Config) (cmd : Byte) (d : Bytes) :
    (fcEncode c cmd d).frame = (cmd :: c.sync.toList) ++
      (headerBlock c d.length ++ (payloadBlock c d ++ crcWireBytes (crcCalculate c (scrambleBlock c d)))) := by
  simp [fcEncode, headerBlock, payloadBlock, hdrParity, payParity]

/-- Where a part of a sequence ends, the rest begins. -/
theorem drop_add_of_drop_eq_append {w part rest : Bytes} {i n : Nat} (h : w.drop i = part ++ rest)
    (hn : part.length = n) : w.drop (i + n) = rest := by
  rw [← List.drop_drop, h, List.drop_left' hn]

theorem fcEncode_drop_four (c : Config) (cmd : Byte) (d : Bytes) :
    (fcEncode c cmd d).frame.drop 4 =
      headerBlock c d.length ++ (payloadBlock c d ++ crcWireBytes (crcCalculate c (scrambleBlock c d))) := by
  rw [fcEncode_frame, List.drop_left' (by simp)]

section
variable {c : Config} (hskip : c.scrSkip ≤ 8)
include hskip

theorem scrambledHeader_length (n : Nat) : (scrambleBlock c (hdrBuild c n)).length = 13 := by
  rw [scrambleBlock_length hskip (by simp), hdrBuild_length]

theorem headerBlock_length (n : Nat) : (headerBlock c n).length = 15 := by
  rw [headerBlock, List.length_append, scrambledHeader_length hskip, rsParity_length c _ (by decide)]

theorem payloadBlock_length {d : Bytes} (hd : 1 ≤ d.length) : (payloadBlock c d).length = d.length + 16 := by
  rw [payloadBlock, List.length_append, scrambleBlock_length hskip hd, rsParity_length c _ (by decide)]

theorem fcEncode_drop_payload (cmd : Byte) (d : Bytes) :
    (fcEncode c cmd d).frame.drop 19 =
      payloadBlock c d ++ crcWireBytes (crcCalculate c (scrambleBlock c d)) :=
  drop_add_of_drop_eq_append (fcEncode_drop_four c cmd d) (headerBlock_length hskip _)

theorem fcEncode_drop_crc (cmd : Byte) {d : Bytes} (hd : 1 ≤ d.length) :
    (fcEncode c cmd d).frame.drop (35 + d.length) = crcWireBytes (crcCalculate c (scrambleBlock c d)) := by
  rw [show 35 + d.length = 19 + (d.length + 16) by omega]
  exact drop_add_of_drop_eq_append (fcEncode_drop_payload hskip cmd d) (payloadBlock_length hskip hd)

end

end Sys2Proof.Machine
end

section
/-! What fc_decode answers on each outcome of its stages, and what it reads of the received bytes (44_frame_codec.md
R219, R222). -/

namespace Sys2Proof.Machine

section
variable {c : Config} {w : Bytes} {strict : Bool}

/-! ### The header -/

theorem fcDecode_of_short (h : w.length < 19) : fcDecode c w strict = .error .frameLength := if_pos h

theorem fcDecode_of_header_none (h : 19 ≤ w.length) (hhdr : rsDecode c 2 ((w.drop 4).take 15) = none) :
    fcDecode c w strict = .error .headerUncorrectable := by
  rw [fcDecode, if_neg (Nat.not_lt.2 h), hdrLen, hdrParity, hhdr]

theorem fcDecode_of_header_some (h : 19 ≤ w.length) {hc n : Nat} {hb : Bytes}
    (hhdr : rsDecode c 2 ((w.drop 4).take 15) = some (hc, hb))
    (hn : hdrParse c (descrambleBlock c (hb.take 13)) = n) :
    fcDecode c w strict =
      if n < 1 ∨ 239 < n ∨ w.length < 39 + n then .error .frameLength else fcDecodePayload c w strict hc n := by
  subst hn
  rw [fcDecode, if_neg (Nat.not_lt.2 h), hdrLen, hdrParity, hhdr]
  rfl

/-! ### The payload and the CRC -/

variable {hc n : Nat}

theorem fcDecodePayload_of_none (hpay : rsDecode c 16 ((w.drop 19).take (n + 16)) = none) :
    fcDecodePayload c w strict hc n = .error .payloadUncorrectable := by
  rw [fcDecodePayload, payParity, hpay]

/-- The EncodedCrc that stands behind a payload block of `n` data bytes (44_frame_codec.md R219). -/
def receivedCrc (w : Bytes) (n : Nat) : Word :=
  crcOfWire (w.getD (35 + n) 0) (w.getD (36 + n) 0) (w.getD (37 + n) 0) (w.getD (38 + n) 0)

theorem fcDecodePayload_of_some {pc : Nat} {pb : Bytes}
    (hpay : rsDecode c 16 ((w.drop 19).take (n + 16)) = some (pc, pb)) {x : Half}
    (hx : crcDecode c (receivedCrc w n) = x) {ok : Bool} (hok : decide (x = crc16 c (pb.take n)) = ok) :
    fcDecodePayload c w strict hc n =
      if !ok && strict then .error .crcMismatch
      else .ok { cmd := w.headD 0, payload := descrambleBlock c (pb.take n), hdrFixed := hc, payFixed := pc,
                 crcOk := ok, decodedCrc := x, computedCrc := crc16 c (pb.take n) } := by
  subst hx hok
  rw [fcDecodePayload, payParity, hpay]
  rfl

end

/-! ### The policy -/

/-- What the strict policy makes of a frame that the lenient one delivers (44_frame_codec.md R220). -/
def rejectBadCrc (d : Delivered) : Except ResultCode Delivered := if d.crcOk then .ok d else .error .crcMismatch

theorem fcDecodePayload_strict (c : Config) (w : Bytes) (hc n : Nat) :
    fcDecodePayload c w true hc n = (fcDecodePayload c w false hc n).bind rejectBadCrc := by
  cases hpay : rsDecode c 16 ((w.drop 19).take (n + 16)) with
  | none => rw [fcDecodePayload_of_none hpay, fcDecodePayload_of_none hpay]; rfl
  | some r =>
    rw [fcDecodePayload_of_some hpay rfl rfl, fcDecodePayload_of_some hpay rfl rfl]
    cases decide (crcDecode c (receivedCrc w n) = crc16 c (r.2.take n)) <;> rfl

/-- The policy decides about the CRC and nothing else (44_frame_codec.md R220). -/
theorem fcDecode_strict (c : Config) (w : Bytes) :
    fcDecode c w true = (fcDecode c w false).bind rejectBadCrc := by
  rcases Nat.lt_or_ge w.length 19 with hshort | hlong
  · rw [fcDecode_of_short hshort, fcDecode_of_short hshort]; rfl
  cases hhdr : rsDecode c 2 ((w.drop 4).take 15) with
  | none => rw [fcDecode_of_header_none hlong hhdr, fcDecode_of_header_none hlong hhdr]; rfl
  | some r =>
    rw [fcDecode_of_header_some hlong hhdr rfl, fcDecode_of_header_some hlong hhdr rfl, fcDecodePayload_strict]
    split <;> rfl

theorem fcDecodePayload_lenient_ne_crcMismatch (c : Config) (w : Bytes) (hc n : Nat) :
    fcDecodePayload c w false hc n ≠ .error .crcMismatch := by
  cases hpay : rsDecode c 16 ((w.drop 19).take (n + 16)) with
  | none => rw [fcDecodePayload_of_none hpay]; decide
  | some r =>
    rw [fcDecodePayload_of_some hpay rfl rfl, Bool.and_false, if_neg Bool.false_ne_true]
    exact nofun

theorem fcDecode_lenient_ne_crcMismatch (c : Config) (w : Bytes) :
    fcDecode c w false ≠ .error .crcMismatch := by
  rcases Nat.lt_or_ge w.length 19 with hshort | hlong
  · rw [fcDecode_of_short hshort]; decide
  cases hhdr : rsDecode c 2 ((w.drop 4).take 15) with
  | none => rw [fcDecode_of_header_none hlong hhdr]; decide
  | some r =>
    rw [fcDecode_of_header_some hlong hhdr rfl]
    split
    · decide
    · exact fcDecodePayload_lenient_ne_crcMismatch c w _ _

/-! ### What is read -/

theorem receivedCrc_eq_of_drop {w : Bytes} {n : Nat} {b3 b2 b1 b0 : Byte} (h : w.drop (35 + n) = [b3, b2, b1, b0]) :
    receivedCrc w n = crcOfWire b3 b2 b1 b0 := by
  have hbyte (k : Nat) : w.getD (35 + n + k) 0 = [b3, b2, b1, b0].getD k 0 := by
    rw [← h, List.getD_eq_getElem?_getD, List.getD_eq_getElem?_getD, List.getElem?_drop]
  rw [receivedCrc, show 36 + n = 35 + n + 1 by omega, show 37 + n = 35 + n + 2 by omega,
    show 38 + n = 35 + n + 3 by omega, hbyte 1, hbyte 2, hbyte 3, ← Nat.add_zero (35 + n), hbyte 0]
  rfl

theorem getD_eq_of_drop_eq {w v : Bytes} {k i : Nat} (h : w.drop k = v.drop k) (hi : k ≤ i) :
    w.getD i 0 = v.getD i 0 := by
  obtain ⟨j, rfl⟩ := Nat.exists_eq_add_of_le hi
  rw [List.getD_eq_getElem?_getD, List.getD_eq_getElem?_getD, ← List.getElem?_drop, h, List.getElem?_drop]

theorem drop_eq_of_drop_eq {w v : Bytes} {k i : Nat} (h : w.drop k = v.drop k) (hi : k ≤ i) :
    w.drop i = v.drop i := by
  obtain ⟨j, rfl⟩ := Nat.exists_eq_add_of_le hi
  rw [← List.drop_drop, h, List.drop_drop]

/-- Of the first four bytes fc_decode reads the command byte alone (44_frame_codec.md R219, R222). -/
theorem fcDecode_congr {w v : Bytes} (hhead : w.headD 0 = v.headD 0) (hlen : w.length = v.length)
    (hrest : w.drop 4 = v.drop 4) (c : Config) (strict : Bool) : fcDecode c w strict = fcDecode c v strict := by
  have hbyte (k n : Nat) (hk : 4 ≤ k) : w.getD (k + n) 0 = v.getD (k + n) 0 := getD_eq_of_drop_eq hrest (by omega)
  have hpayload (hc n : Nat) : fcDecodePayload c w strict hc n = fcDecodePayload c v strict hc n := by
    simp only [fcDecodePayload, hhead, drop_eq_of_drop_eq hrest (show 4 ≤ 19 by decide), hbyte 35 n (by decide),
      hbyte 36 n (by decide), hbyte 37 n (by decide), hbyte 38 n (by decide)]
  simp only [fcDecode, hlen, hrest, hpayload]

end Sys2Proof.Machine
end

section
/-! The commands of the FrameCodec on each outcome of their checks (44_frame_codec.md R215, R216, R218, R221). -/

namespace Sys2Proof.Machine

variable {s : State}

/-! ### HDR_BUILD and HDR_PARSE -/

theorem exec_hdrBuild_of_long (h : 1023 < s.arg3.toNat) :
    exec .hdrBuild s = .next (errorState s .invalidLength) :=
  congrArg _ (State.check_neg _ _ _ (Nat.not_le.2 h))

theorem exec_hdrBuild_of_length (h : s.arg3.toNat ≤ 1023) :
    exec .hdrBuild s =
      .next (s.prologue.deliver s.arg2.toNat (hdrBuild s.cfg s.arg3.toNat)
        fun t => { t with result0 := toWord hdrLen }) :=
  congrArg _ (State.check_pos _ _ _ h)

theorem exec_hdrParse_of_not_region (h : ¬regionOk s.cfg s.arg0.toNat 13) :
    exec .hdrParse s = .next (errorState s .addressError) :=
  congrArg _ (State.check_neg _ _ _ h)

theorem exec_hdrParse_of_region (h : regionOk s.cfg s.arg0.toNat 13) :
    exec .hdrParse s =
      .next (resultState s .ok (toWord (hdrParse s.cfg (lmemBytes s.lmem s.arg0.toNat 13))) 0 0) :=
  congrArg _ (State.check_pos _ _ _ h)

/-! ### FC_ENCODE -/

theorem exec_fcEncode_of_not_length (h : ¬(2 ≤ s.arg1.toNat ∧ s.arg1.toNat ≤ 240)) :
    exec .fcEncode s = .next (errorState s .invalidLength) :=
  congrArg _ (State.check_neg _ _ _ h)

theorem exec_fcEncode_of_not_region (hlen : 2 ≤ s.arg1.toNat ∧ s.arg1.toNat ≤ 240)
    (h : ¬regionOk s.cfg s.arg0.toNat s.arg1.toNat) : exec .fcEncode s = .next (errorState s .addressError) := by
  refine congrArg _ ((State.check_pos _ _ _ hlen).trans ?_)
  exact State.check_neg _ _ _ h

theorem exec_fcEncode_of_region (hlen : 2 ≤ s.arg1.toNat ∧ s.arg1.toNat ≤ 240)
    (h : regionOk s.cfg s.arg0.toNat s.arg1.toNat) {r : Encoded}
    (hr : fcEncode s.cfg ((sourceBytes s).headD 0) (sourceBytes s).tail = r) :
    exec .fcEncode s =
      .next (s.prologue.deliver s.arg2.toNat r.frame fun t =>
        { t with result0 := toWord (38 + s.arg1.toNat), result1 := r.encodedCrc,
                 result2 := r.rawCrc.setWidth 32, fcStage := { t.fcStage with tx := .ready } }) := by
  subst hr
  refine congrArg _ ((State.check_pos _ _ _ hlen).trans ?_)
  exact State.check_pos _ _ _ h

/-- The source of FC_ENCODE is a command byte and a payload (44_frame_codec.md R218). -/
theorem fcEncode_sourceBytes_length (hparams : paramsValid s.cfg = true) (hlen : 2 ≤ s.arg1.toNat) (cmd : Byte) :
    (fcEncode s.cfg cmd (sourceBytes s).tail).frame.length = 38 + s.arg1.toNat := by
  have hpayload : (sourceBytes s).tail.length = s.arg1.toNat - 1 := by
    rw [List.length_tail, sourceBytes, lmemBytes_length]
  rw [fcEncode_length (by rw [(validParams hparams).scrSkip]; decide) _ (by omega), hpayload]
  omega

/-! ### FC_DECODE -/

theorem exec_fcDecode_of_not_region (h : ¬regionOk s.cfg s.arg0.toNat s.arg1.toNat) :
    exec .fcDecode s = .next (errorState s .addressError) :=
  congrArg _ (State.check_neg _ _ _ h)

theorem fcDecode_prologue (s : State) :
    fcDecode s.prologue.cfg (s.prologue.memRead s.prologue.arg0.toNat s.prologue.arg1.toNat) s.prologue.crcStrict =
      fcDecode s.cfg (sourceBytes s) s.crcStrict := rfl

theorem exec_fcDecode_of_error (h : regionOk s.cfg s.arg0.toNat s.arg1.toNat) {code : ResultCode}
    (hr : fcDecode s.cfg (sourceBytes s) s.crcStrict = .error code) :
    exec .fcDecode s = .next { errorState s code with fcStage := { s.fcStage with rx := .discarded } } := by
  refine congrArg _ ((State.check_pos _ _ _ h).trans ?_)
  rw [fcDecode_prologue, hr]
  rfl

theorem exec_fcDecode_of_ok (h : regionOk s.cfg s.arg0.toNat s.arg1.toNat) {d : Delivered}
    (hr : fcDecode s.cfg (sourceBytes s) s.crcStrict = .ok d) :
    exec .fcDecode s =
      .next (s.prologue.deliver s.arg2.toNat (d.cmd :: d.payload) fun t =>
        { t with result0 := toWord (1 + d.payload.length),
                 result1 := toWord d.hdrFixed ||| (toWord d.payFixed <<< 8),
                 result2 := halves d.decodedCrc d.computedCrc,
                 status := { t.status with crcBad := !d.crcOk },
                 fcStage := { t.fcStage with rx := .delivered } }) := by
  refine congrArg _ ((State.check_pos _ _ _ h).trans ?_)
  rw [fcDecode_prologue, hr]
  rfl

end Sys2Proof.Machine
end

section
/-! The obligations of 44_frame_codec.md. -/

namespace Sys2Proof.Proofs

open Sys2Proof.Machine

/-- Settles O43: a length bit is written at its own position only, and the bits read there are those of a number. -/
theorem headerLengthField : Obligations.HeaderLengthField := by
  intro c n hparams hn
  have hpos := (validParams hparams).hdrLenPos
  exact ⟨headerBit_hdrBuild_length hpos n, fun b k hfree => headerBit_hdrBuild_template hfree n,
    hdrParse_eq_sum c, hdrParse_hdrBuild hpos hn⟩

/-- Settles O44: the checks, then the delivery of a header or the result of parsing one. -/
theorem headerCommandResults : Obligations.HeaderCommandResults := by
  intro s n dst
  have hout : (hdrBuild s.cfg n).length = 13 := hdrBuild_length ..
  refine ⟨exec_hdrBuild_of_long, fun hlen hdst => ?_, fun hlen hdst => ⟨_, ?_, stored_memWriteBytes _ _ _⟩,
    exec_hdrParse_of_not_region, exec_hdrParse_of_region, hdrParse_le ..⟩
  · rw [exec_hdrBuild_of_length hlen, State.deliver_of_not_region _ (by rwa [hout])]
  · rw [exec_hdrBuild_of_length hlen, State.deliver_of_region _ (by rwa [hout])]
    rfl

/-- Settles O45: each part begins where the lengths of the parts before it say. -/
theorem encodedFrameLayout : Obligations.EncodedFrameLayout := by
  intro c cmd d hparams hd _ w hs ps e
  have hskip : c.scrSkip ≤ 8 := by rw [(validParams hparams).scrSkip]; decide
  have hhs : hs.length = 13 := scrambledHeader_length hskip _
  have hps : ps.length = d.length := scrambleBlock_length hskip hd
  have hheader : w.drop 4 = hs ++ (rsParity c 2 hs ++ (payloadBlock c d ++ crcWireBytes e)) := by
    rw [← List.append_assoc]
    exact fcEncode_drop_four c cmd d
  have hpayload : w.drop 19 = ps ++ (rsParity c 16 ps ++ crcWireBytes e) := by
    rw [← List.append_assoc]
    exact fcEncode_drop_payload hskip cmd d
  refine ⟨fcEncode_length hskip cmd hd, ?_, ?_, ?_, ?_, ?_, ?_, fcEncode_drop_crc hskip cmd hd⟩
  · rw [show w = _ from fcEncode_frame c cmd d]; rfl
  · rw [show w = _ from fcEncode_frame c cmd d, List.cons_append, List.drop_one, List.tail_cons,
      List.take_left' (Vector.length_toList ..)]
  · rw [hheader, List.take_left' hhs]
  · rw [drop_add_of_drop_eq_append hheader hhs, List.take_left' (rsParity_length c _ (by decide))]
  · rw [hpayload, List.take_left' hps]
  · rw [drop_add_of_drop_eq_append hpayload hps, List.take_left' (rsParity_length c _ (by decide))]

/-- Settles O46: length and source checks, then the delivery of the encoded frame. -/
theorem fcEncodeResult : Obligations.FcEncodeResult := by
  intro s hparams len dst f r ps
  have hout (hlen : 2 ≤ len ∧ len ≤ 240) : r.frame.length = 38 + len :=
    fcEncode_sourceBytes_length hparams hlen.1 _
  refine ⟨exec_fcEncode_of_not_length, exec_fcEncode_of_not_region, fun hlen hsource hdst => ?_,
    fun hlen hsource hdst => ⟨_, ?_, hout hlen, stored_memWriteBytes _ _ _⟩⟩
  · rw [exec_fcEncode_of_region hlen hsource rfl]
    exact congrArg _ (State.deliver_of_not_region _ (by rwa [← hout hlen] at hdst))
  · rw [exec_fcEncode_of_region hlen hsource rfl]
    exact congrArg _ (State.deliver_of_region _ (by rwa [← hout hlen] at hdst))

/-- Settles O47: the outcomes of the command, then those of fc_decode, stage by stage. -/
theorem fcDecodeResult : Obligations.FcDecodeResult := by
  refine ⟨fun s => ⟨exec_fcDecode_of_not_region, fun code hsource hr => exec_fcDecode_of_error hsource hr,
    fun d hsource hr hdst => ?_, fun d hsource hr hdst => ⟨_, ?_, stored_memWriteBytes _ _ _⟩⟩,
    fun c w strict => ⟨fcDecode_of_short, fcDecode_of_header_none, fun hc hb hlong hhdr => ?_⟩⟩
  · rw [exec_fcDecode_of_ok hsource hr]
    exact congrArg _ (State.deliver_of_not_region _ (by rwa [List.length_cons, Nat.add_comm]))
  · rw [exec_fcDecode_of_ok hsource hr]
    exact congrArg _ (State.deliver_of_region _ (by rwa [List.length_cons, Nat.add_comm]))
  intro n pay
  have hstage := fcDecode_of_header_some (strict := strict) hlong hhdr (n := n) rfl
  have hgood (h1 : 1 ≤ n) (h2 : n ≤ 239) (h3 : 39 + n ≤ w.length) :
      fcDecode c w strict = fcDecodePayload c w strict hc n := hstage.trans (if_neg (by omega))
  refine ⟨fun hbad => hstage.trans (if_pos hbad),
    fun h1 h2 h3 hpay => (hgood h1 h2 h3).trans (fcDecodePayload_of_none hpay),
    fun pc pb h1 h2 h3 hpay => ⟨fun hdiffer hstrict => ?_, fun hkept => ?_⟩⟩
  · rw [hgood h1 h2 h3, fcDecodePayload_of_some hpay rfl (decide_eq_false hdiffer), hstrict]
    rfl
  · rw [hgood h1 h2 h3, fcDecodePayload_of_some hpay rfl rfl]
    refine if_neg fun hrejected => ?_
    obtain ⟨hbad, hstrict⟩ := Bool.and_eq_true_iff.1 hrejected
    rcases hkept with hmatch | hlenient
    · exact of_decide_eq_false ((Bool.not_eq_true' _).mp hbad) hmatch
    · exact Bool.false_ne_true (hlenient.symm.trans hstrict)

/-- Settles O48: the strict policy is the lenient one followed by a look at the CRC. -/
theorem crcPolicy : Obligations.CrcPolicy := by
  intro c w
  rw [fcDecode_strict]
  refine ⟨fun d hd => ?_, fun code hcode => ⟨?_, ?_⟩⟩
  · rw [hd]; rfl
  · rw [hcode]; rfl
  · rintro rfl
    exact fcDecode_lenient_ne_crcMismatch c w hcode

/-- Settles O49: bytes 1 to 3 are not among those that fc_decode reads. -/
theorem syncBytesIgnored : Obligations.SyncBytesIgnored := by
  intro c cmd a1 a2 a3 b1 b2 b3 w strict
  exact fcDecode_congr (w := cmd :: a1 :: a2 :: a3 :: w) (v := cmd :: b1 :: b2 :: b3 :: w) rfl rfl rfl c strict

/-- Settles O50: both protected blocks are codewords, the scrambler is undone, and the CRC is sent unchanged. -/
theorem encodeDecodeRoundTrip : Obligations.EncodeDecodeRoundTrip := by
  intro cmd d strict hd hmax x
  have hskip : p0.scrSkip ≤ 8 := by decide
  have hlen := fcEncode_length hskip cmd hd
  have codeword (n : Nat) (p : Bytes) : rsDecode p0 n (p ++ rsParity p0 n p) = some (0, p ++ rsParity p0 n p) :=
    rsDecode_of_zero_syndromes (syndromes_codeword fieldTables_p0 n p)
  have hhdr : rsDecode p0 2 (((fcEncode p0 cmd d).frame.drop 4).take 15) = some (0, headerBlock p0 d.length) := by
    rw [fcEncode_drop_four, List.take_left' (headerBlock_length hskip _)]
    exact codeword 2 _
  have hparse : hdrParse p0 (descrambleBlock p0 ((headerBlock p0 d.length).take 13)) = d.length := by
    rw [headerBlock, List.take_left' (scrambledHeader_length hskip _), scramblerRoundTrip _ (by simp),
      hdrParse_hdrBuild (by decide) (by omega)]
  have hpay : rsDecode p0 16 (((fcEncode p0 cmd d).frame.drop 19).take (d.length + 16)) =
      some (0, payloadBlock p0 d) := by
    rw [fcEncode_drop_payload hskip, List.take_left' (payloadBlock_length hskip hd)]
    exact codeword 16 _
  have hcrc : crcDecode p0 (receivedCrc (fcEncode p0 cmd d).frame d.length) = x := by
    rw [receivedCrc_eq_of_drop (fcEncode_drop_crc hskip cmd hd), crcOfWire_crcCodeByte,
      crcDecode_crcCalculate hamEncCorrects_p0]
  have hps : (payloadBlock p0 d).take d.length = scrambleBlock p0 d := List.take_left' (scrambleBlock_length hskip hd)
  rw [fcDecode_of_header_some (by omega) hhdr hparse, if_neg (by omega),
    fcDecodePayload_of_some hpay hcrc (decide_eq_true (by rw [hps])), hps, scramblerRoundTrip d hd]
  rfl

end Sys2Proof.Proofs
end

section
/-! One pass of the arbiter, a lemma for each branch of its transition function, and what a pass that enters
Transmitting has found (45_channel_arbiter.md R242 to R245). -/

namespace Sys2Proof.Machine

/-- At or below the threshold is a comparison of the two s16 values (45_channel_arbiter.md R241, R243). -/
theorem sampleClear_iff (sample thr : Half) : sampleClear sample thr = true ↔ sample.toInt ≤ thr.toInt :=
  BitVec.sle_iff_toInt_le

theorem sampleClear_eq_false {sample thr : Half} (h : ¬sample.toInt ≤ thr.toInt) : sampleClear sample thr = false :=
  Bool.eq_false_iff.2 (mt (sampleClear_iff sample thr).1 h)

section

variable {settle now : Word} {q busy clear : Bool} {a : Arbiter}

/-! ### Receiving -/

theorem arbiterPass_of_receiving_queued (hmode : a.mode = .receiving) (hq : q = true) :
    arbiterPass settle q busy clear now a = { a with mode := .assessing, clearValid := false } := by
  simp [arbiterPass, hmode, hq]

theorem arbiterPass_of_receiving_idle (hmode : a.mode = .receiving) (hq : q = false) :
    arbiterPass settle q busy clear now a = a := by
  simp [arbiterPass, hmode, hq]

/-! ### AssessingChannel -/

theorem arbiterPass_of_assessing_idle (hmode : a.mode = .assessing) (hq : q = false) :
    arbiterPass settle q busy clear now a = { a with mode := .receiving, clearValid := false } := by
  simp [arbiterPass, hmode, hq]

/-- A sample above the threshold ends the run. -/
theorem arbiterPass_of_not_clear (hmode : a.mode = .assessing) (hq : q = true) (hclear : clear = false) :
    arbiterPass settle q busy clear now a = { a with clearValid := false, lastBusy := now } := by
  simp [arbiterPass, hmode, hq, hclear]

/-- The first clear sample starts the run. -/
theorem arbiterPass_of_no_run (hmode : a.mode = .assessing) (hq : q = true) (hclear : clear = true)
    (hrun : a.clearValid = false) :
    arbiterPass settle q busy clear now a = { a with clearValid := true, clearStart := now } := by
  simp [arbiterPass, hmode, hq, hclear, hrun]

theorem arbiterPass_of_unsettled (hmode : a.mode = .assessing) (hq : q = true) (hclear : clear = true)
    (hrun : a.clearValid = true) (h : (now - a.clearStart).toNat ≤ settle.toNat) :
    arbiterPass settle q busy clear now a = a := by
  simp only [arbiterPass, hmode, hq, hclear, hrun, Bool.not_true, Bool.false_eq_true, if_false, if_neg (Nat.not_lt.2 h)]

theorem arbiterPass_of_settled (hmode : a.mode = .assessing) (hq : q = true) (hclear : clear = true)
    (hrun : a.clearValid = true) (h : settle.toNat < (now - a.clearStart).toNat) :
    arbiterPass settle q busy clear now a = { a with mode := .transmitting, clearValid := false } := by
  simp only [arbiterPass, hmode, hq, hclear, hrun, Bool.not_true, Bool.false_eq_true, if_false, if_pos h]

/-! ### Transmitting -/

theorem arbiterPass_of_transmitting_active (hmode : a.mode = .transmitting) (h : q = true ∨ busy = true) :
    arbiterPass settle q busy clear now a = a := by
  rcases h with h | h <;> simp [arbiterPass, hmode, h]

theorem arbiterPass_of_transmitting_done (hmode : a.mode = .transmitting) (hq : q = false) (hbusy : busy = false) :
    arbiterPass settle q busy clear now a = { a with mode := .receiving } := by
  simp [arbiterPass, hmode, hq, hbusy]

/-! ### Entering Transmitting -/

/-- Only the last branch of AssessingChannel enters Transmitting; each other branch ends in another mode. -/
theorem of_arbiterPass_transmitting (h : (arbiterPass settle q busy clear now a).mode = .transmitting)
    (hne : a.mode ≠ .transmitting) :
    q = true ∧ a.mode = .assessing ∧ a.clearValid = true ∧ clear = true ∧
      settle.toNat < (now - a.clearStart).toNat := by
  cases hmode : a.mode with
  | receiving =>
    cases hq : q with
    | false => rw [arbiterPass_of_receiving_idle hmode hq] at h; exact absurd h hne
    | true => rw [arbiterPass_of_receiving_queued hmode hq] at h; cases h
  | transmitting => exact absurd hmode hne
  | assessing =>
    cases hq : q with
    | false => rw [arbiterPass_of_assessing_idle hmode hq] at h; cases h
    | true =>
      cases hclear : clear with
      | false => rw [arbiterPass_of_not_clear hmode hq hclear] at h; exact absurd h hne
      | true =>
        cases hrun : a.clearValid with
        | false => rw [arbiterPass_of_no_run hmode hq hclear hrun] at h; exact absurd h hne
        | true =>
          rcases Nat.lt_or_ge settle.toNat (now - a.clearStart).toNat with hlong | hshort
          · exact ⟨rfl, rfl, rfl, rfl, hlong⟩
          · rw [arbiterPass_of_unsettled hmode hq hclear hrun hshort] at h; exact absurd h hne

end

end Sys2Proof.Machine
end

section
/-! ARB_STEP and the other commands as they reach the arbiter (30_encoding.md R82; 45_channel_arbiter.md R240 to
R242). -/

namespace Sys2Proof.Machine

@[simp] theorem arbOperand_arbNumber (q busy : Bool) :
    arbOperand (arbNumber q busy) = some { queued := q, txBusy := busy } := by
  cases q <;> cases busy <;> rfl

/-- The queue flag is bit 0 of IMM8 (45_channel_arbiter.md R241). -/
theorem queued_of_arbOperand {imm : Byte} {f : ArbFlags} (h : arbOperand imm = some f) :
    f.queued = imm.getLsbD 0 := by
  simp only [arbOperand, Option.ite_none_right_eq_some] at h
  obtain ⟨-, hf⟩ := h
  cases hf; rfl

theorem af_allows_eq_false {imm : Byte} (h : 3 < imm.toNat) : ImmKind.af.allows imm = false := by
  revert imm; decide +kernel

/-- Only two flag bits are allowed (30_encoding.md R82). -/
theorem not_wf_of_af {i : Instr} (hkind : i.immKind = .af) (h : 3 < i.imm8.toNat) : i.wf = false := by
  rw [Instr.wf, hkind, af_allows_eq_false h]

/-- The arbiter after a pass in state `s` with the flags `f`: the pass takes its time from ARG0 and its sample from
ARG1 (45_channel_arbiter.md R241). -/
def State.arbNext (s : State) (f : ArbFlags) : Arbiter :=
  arbiterPass s.cfg.settleTicks f.queued f.txBusy (sampleClear (s.arg1.extractLsb' 0 16) s.ccaThreshold) s.arg0 s.arb

/-- ARB_STEP reports the mode it reaches, and changes nothing but the arbiter. -/
theorem exec_arbStep {s : State} {imm : Byte} {f : ArbFlags} (h : arbOperand imm = some f) :
    exec (.arbStep imm) s =
      .next { resultState s (arbiterCode (s.arbNext f).mode) (modeWord (s.arbNext f).mode) 0 0 with
        arb := s.arbNext f } := by
  refine congrArg _ ((congrArg (s.prologue.withOperand · _) h).trans ?_)
  rw [State.withOperand_some]
  rfl

/-- A command that enters Transmitting is an ARB_STEP whose pass enters it. -/
theorem exec_enters_transmitting {i : Instr} {s t : State} (h : exec i s = .next t)
    (ht : t.arb.mode = .transmitting) (hs : s.arb.mode ≠ .transmitting) :
    ∃ imm f, i = .arbStep imm ∧ arbOperand imm = some f ∧ (s.arbNext f).mode = .transmitting := by
  by_cases hi : ∃ imm, i = .arbStep imm
  · obtain ⟨imm, rfl⟩ := hi
    cases hf : arbOperand imm with
    | none =>
      rw [exec_of_not_wf (i := .arbStep imm) ((arbOperand_eq_none imm).1 hf)] at h
      cases h
      exact absurd ht hs
    | some f =>
      rw [exec_arbStep hf] at h
      cases h
      exact ⟨imm, f, rfl, hf, ht⟩
  · by_cases hreset : i = .softReset
    · subst hreset
      cases h
      cases ht
    · obtain ⟨u, e, heq⟩ := exec_endsIn h
      have hkept : t.arb = s.arb :=
        (eq_of_prologue_eq heq State.arb fun _ => rfl).trans (e.arb_eq hreset (not_exists.1 hi))
      exact absurd (hkept ▸ ht) hs

end Sys2Proof.Machine
end

section
/-! The obligations of 45_channel_arbiter.md. -/

namespace Sys2Proof.Proofs

open Sys2Proof.Machine

/-- Settles O51: the pass takes one branch for each clause, and the mode it reaches fixes the code and RESULT0. -/
theorem arbStepResult : Obligations.ArbStepResult := by
  intro s q busy a now clear elapsed go
  have go_to {mode : ArbMode} {b : Arbiter} (h : s.arbNext { queued := q, txBusy := busy } = b)
      (hmode : b.mode = mode) : go (arbiterCode mode) (modeWord mode) b := by
    subst hmode h
    exact exec_arbStep (arbOperand_arbNumber q busy)
  have hclear : clear → sampleClear (s.arg1.extractLsb' 0 16) s.ccaThreshold = true := (sampleClear_iff ..).2
  exact ⟨fun hmode hq => go_to (arbiterPass_of_receiving_queued hmode hq) rfl,
    fun hmode hq => go_to (arbiterPass_of_receiving_idle hmode hq) hmode,
    fun hmode hq => go_to (arbiterPass_of_assessing_idle hmode hq) rfl,
    fun hmode hq hc => go_to (arbiterPass_of_not_clear hmode hq (sampleClear_eq_false hc)) hmode,
    fun hmode hq hc hrun => go_to (arbiterPass_of_no_run hmode hq (hclear hc) hrun) hmode,
    fun hmode hq hc hrun h => go_to (arbiterPass_of_unsettled hmode hq (hclear hc) hrun h) hmode,
    fun hmode hq hc hrun h => go_to (arbiterPass_of_settled hmode hq (hclear hc) hrun h) rfl,
    fun hmode h => go_to (arbiterPass_of_transmitting_active hmode h) hmode,
    fun hmode hq hbusy => go_to (arbiterPass_of_transmitting_done hmode hq hbusy) rfl,
    fun imm himm => exec_of_not_wf (i := .arbStep imm) (not_wf_of_af rfl himm) s⟩

/-- Settles O52: no other command moves the arbiter there, and one branch of the pass does. -/
theorem transmitOnlyAfterSettling : Obligations.TransmitOnlyAfterSettling := by
  intro i s t h ht hs
  obtain ⟨imm, f, hi, hf, hpass⟩ := exec_enters_transmitting h ht hs
  obtain ⟨hq, hmode, hrun, hclear, hsettled⟩ := of_arbiterPass_transmitting hpass hs
  exact ⟨⟨imm, hi, (queued_of_arbOperand hf).symm.trans hq⟩, hmode, hrun, (sampleClear_iff ..).1 hclear, hsettled⟩

/-- Settles O53: two busy samples, the start of a run, a run of exactly the settle interval, and a longer one. -/
theorem scenarioFour : Obligations.ScenarioFour := by
  unfold Obligations.ScenarioFour
  intro pass start a1 a2 a3 a4 a5
  have pass_of {a b c : Arbiter} {p : Word × Half} (hab : a = b) (hbc : pass b p = c) : pass a p = c := hab ▸ hbc
  have h1 : a1 = { mode := .assessing, clearValid := false, clearStart := 0, lastBusy := 0 } :=
    arbiterPass_of_not_clear rfl rfl (by decide)
  have h2 : a2 = { mode := .assessing, clearValid := false, clearStart := 0, lastBusy := 1000 } :=
    pass_of h1 (arbiterPass_of_not_clear rfl rfl (by decide))
  have h3 : a3 = { mode := .assessing, clearValid := true, clearStart := 2000, lastBusy := 1000 } :=
    pass_of h2 (arbiterPass_of_no_run rfl rfl (by decide) rfl)
  have h4 : a4 = { mode := .assessing, clearValid := true, clearStart := 2000, lastBusy := 1000 } :=
    pass_of h3 (arbiterPass_of_unsettled rfl rfl (by decide) rfl (by decide))
  have h5 : a5 = { mode := .transmitting, clearValid := false, clearStart := 2000, lastBusy := 1000 } :=
    pass_of h4 (arbiterPass_of_settled rfl rfl (by decide) rfl (by decide))
  refine ⟨h1, h2, h3, h4.trans h3.symm, h5, ?_⟩
  rw [h1, h2, h3, h4, h5]
  rfl

end Sys2Proof.Proofs
end

section
/-! The system commands: neither checks anything, so each has one outcome (46_system.md R260, R261). -/

namespace Sys2Proof.Machine

/-- NOP is the prologue followed by the code OK. -/
theorem exec_nop (s : State) : exec .nop s = .next (resultState s .ok 0 0 0) :=
  calc exec .nop s
    _ = .next (s.prologue.finish .ok) := rfl
    _ = .next (resultState s .ok 0 0 0) := by rw [prologue_finish_eq_errorState, errorState]

/-- The store and its bytes stay (70_reset_and_hazards.md R301). -/
theorem bufSoftReset_eq (b : Buffer) : bufSoftReset b = { b with head := 0, count := 0, ovf := false, drops := 0 } :=
  rfl

/-- SOFT_RESET resets all that the prologue clears (60_exceptions.md R270). -/
@[simp] theorem State.softReset_prologue (s : State) : s.prologue.softReset = s.softReset := rfl

/-- The reset value of STATUS.CODE is OK. -/
@[simp] theorem State.softReset_finish_ok (s : State) : s.softReset.finish .ok = s.softReset := rfl

theorem exec_softReset (s : State) : exec .softReset s = .next s.softReset :=
  calc exec .softReset s
    _ = .next (s.prologue.softReset.finish .ok) := rfl
    _ = .next s.softReset := by rw [State.softReset_prologue, State.softReset_finish_ok]

end Sys2Proof.Machine
end

section
/-! The obligations of 46_system.md. -/

namespace Sys2Proof.Proofs

open Sys2Proof.Machine

/-- Settles O15: NOP has one outcome, the results cleared. -/
theorem nopResult : Obligations.NopResult := exec_nop

/-- Settles O16: the prologue and the code OK add nothing to the reset, which empties each buffer and its report. -/
theorem softResetResult : Obligations.SoftResetResult := by
  intro s
  rw [exec_softReset, State.softReset, bufSoftReset_eq, bufSoftReset_eq]
  rfl

end Sys2Proof.Proofs
end

section
/-! How every command ends: with one of its own codes, and with nothing but that code written when it is one of the
errors that leave nothing behind (60_exceptions.md R270 to R273). -/

namespace Sys2Proof.Machine

theorem ok_mem_codesOf (i : Instr) : .ok ∈ codesOf i := by cases i <;> exact List.mem_cons_self

/-- Command `i`, run in `s`, has ended in `t`, with a code of its own; after an error of no side effect `t` is the
error state (60_exceptions.md R271, R272). -/
structure EndsWithItsCode (s : State) (i : Instr) (t : State) : Prop where
  listed : t.status.code ∈ codesOf i
  silent : silentError t.status.code = true → t = errorState s t.status.code

/-! ### The shared operations -/

namespace EndsWithItsCode

variable {s : State} {i : Instr}

/-- A code raised from the prologue leaves the error state, whatever the code is. -/
theorem raise {code : ResultCode} (hcode : code ∈ codesOf i := by simp [codesOf]) :
    EndsWithItsCode s i (s.prologue.finish code) :=
  ⟨hcode, fun _ => prologue_finish_eq_errorState s code⟩

/-- A code that is no silent error may end a command after any writes. -/
theorem finish {t : State} {code : ResultCode} (hloud : silentError code = false)
    (hcode : code ∈ codesOf i := by simp [codesOf]) : EndsWithItsCode s i (t.finish code) :=
  ⟨hcode, fun hsilent => absurd (hloud.symm.trans hsilent) Bool.false_ne_true⟩

theorem finish_ok {t : State} : EndsWithItsCode s i (t.finish .ok) := finish rfl (ok_mem_codesOf i)

theorem finish_ite {t : State} {p : Prop} [Decidable p] {code code' : ResultCode}
    (hpos : EndsWithItsCode s i (t.finish code)) (hneg : EndsWithItsCode s i (t.finish code')) :
    EndsWithItsCode s i (t.finish (if p then code else code')) := by
  split
  · exact hpos
  · exact hneg

theorem check {p : Prop} [Decidable p] {code : ResultCode} {k : State → State}
    (hk : p → EndsWithItsCode s i (k s.prologue)) (hcode : code ∈ codesOf i := by simp [codesOf]) :
    EndsWithItsCode s i (s.prologue.check p code k) := by
  rcases s.prologue.check_cases p code k with ⟨hp, heq⟩ | ⟨-, heq⟩
  · rw [heq]; exact hk hp
  · rw [heq]; exact raise hcode

theorem withOperand {α : Type} {operand : Option α} {k : α → State} (hk : ∀ x, EndsWithItsCode s i (k x))
    (hcode : .invalidParam ∈ codesOf i := by simp [codesOf]) :
    EndsWithItsCode s i (s.prologue.withOperand operand k) := by
  cases operand with
  | none => exact raise hcode
  | some x => exact hk x

/-- The destination is checked before anything is written (20_memory.md R70, 60_exceptions.md R273). -/
theorem deliver {dst : Nat} {bytes : Bytes} {k : State → State}
    (hcode : .addressError ∈ codesOf i := by simp [codesOf]) :
    EndsWithItsCode s i (s.prologue.deliver dst bytes k) :=
  check (fun _ => finish_ok) hcode

end EndsWithItsCode

/-! ### Discarded frames -/

/-- The codes of a discarded frame (44_frame_codec.md R219). -/
def discardCodes : List ResultCode := [.headerUncorrectable, .payloadUncorrectable, .crcMismatch, .frameLength]

theorem discardCodes_fcDecode : ∀ code ∈ discardCodes, code ∈ codesOf .fcDecode ∧ silentError code = false := by decide

theorem fcDecodePayload_error_mem {c : Config} {w : Bytes} {strict : Bool} {hc n : Nat} {code : ResultCode}
    (h : fcDecodePayload c w strict hc n = .error code) : code ∈ discardCodes := by
  cases hpay : rsDecode c 16 ((w.drop 19).take (n + 16)) with
  | none => rw [fcDecodePayload_of_none hpay] at h; cases h; decide
  | some r =>
    rw [fcDecodePayload_of_some hpay rfl rfl] at h
    split at h
    · cases h; decide
    · cases h

theorem fcDecode_error_mem {c : Config} {w : Bytes} {strict : Bool} {code : ResultCode}
    (h : fcDecode c w strict = .error code) : code ∈ discardCodes := by
  rcases Nat.lt_or_ge w.length 19 with hshort | hlong
  · rw [fcDecode_of_short hshort] at h; cases h; decide
  cases hhdr : rsDecode c 2 ((w.drop 4).take 15) with
  | none => rw [fcDecode_of_header_none hlong hhdr] at h; cases h; decide
  | some r =>
    rw [fcDecode_of_header_some hlong hhdr rfl] at h
    split at h
    · cases h; decide
    · exact fcDecodePayload_error_mem h

/-! ### The commands -/

theorem kissUnescape_endsWithItsCode {s t : State} (h : execKissUnescape s = .next t) :
    EndsWithItsCode s .kissUnescape t := by
  cases h
  refine .check fun _ => ?_
  split
  · exact .raise
  · exact .deliver

theorem rsDecode_endsWithItsCode {imm : Byte} {s t : State} (h : execRsDecode imm s = .next t) :
    EndsWithItsCode s (.rsDecode imm) t := by
  cases h
  refine .withOperand fun nroots => .check fun _ => .check fun _ => ?_
  split
  · exact .raise
  · exact .deliver

theorem fcDecode_endsWithItsCode {s t : State} (h : execFcDecode s = .next t) : EndsWithItsCode s .fcDecode t := by
  cases h
  refine .check fun _ => ?_
  split
  next code hcode =>
    obtain ⟨hlisted, hloud⟩ := discardCodes_fcDecode code (fcDecode_error_mem hcode)
    exact .finish hloud hlisted
  next => exact .deliver

/-- A pass of the arbiter ends with OK or CHANNEL_BUSY (45_channel_arbiter.md R242). -/
theorem arbiterCode_arbStep (mode : ArbMode) (imm : Byte) :
    arbiterCode mode ∈ codesOf (.arbStep imm) ∧ silentError (arbiterCode mode) = false := by
  cases mode <;> simp [arbiterCode, codesOf, silentError]

theorem arbStep_endsWithItsCode {imm : Byte} {s t : State} (h : execArbStep imm s = .next t) :
    EndsWithItsCode s (.arbStep imm) t := by
  cases h
  refine .withOperand fun f => ?_
  obtain ⟨hlisted, hloud⟩ := arbiterCode_arbStep (s.arbNext f).mode imm
  exact .finish hloud hlisted

/-- Each command raises its silent errors from the prologue, before it writes anything (60_exceptions.md R273). -/
theorem exec_endsWithItsCode {i : Instr} {s t : State} (h : exec i s = .next t) : EndsWithItsCode s i t := by
  cases i with
  | kissUnescape => exact kissUnescape_endsWithItsCode h
  | rsDecode imm => exact rsDecode_endsWithItsCode h
  | fcDecode => exact fcDecode_endsWithItsCode h
  | arbStep imm => exact arbStep_endsWithItsCode h
  | findFrame imm => cases h; exact .withOperand fun _ => .finish_ite .finish_ok (.finish rfl)
  | bufWrite imm => cases h; exact .withOperand fun _ => .check fun _ => .finish_ite (.finish rfl) .finish_ok
  | crcVerify => cases h; exact .check fun _ => .finish_ite .finish_ok (.finish rfl)
  | nop | softReset => cases h; exact .finish_ok
  | kissEscape | hdrBuild => cases h; exact .check fun _ => .deliver
  | crcCalc | hdrParse => cases h; exact .check fun _ => .finish_ok
  | bufPeek imm => cases h; exact .withOperand fun _ => .check fun _ => .deliver
  | bufPop imm => cases h; exact .withOperand fun _ => .check fun _ => .finish_ok
  | bufClear imm | scrBit imm | descrBit imm => cases h; exact .withOperand fun _ => .finish_ok
  | scrBlock | descrBlock | fcEncode => cases h; exact .check fun _ => .check fun _ => .deliver
  | rsEncode imm => cases h; exact .withOperand fun _ => .check fun _ => .check fun _ => .deliver

end Sys2Proof.Machine
end

section
/-! What the host sets and no command writes, and what only SOFT_RESET writes (10_state.md R25, R28 to R30;
60_exceptions.md R270). -/

namespace Sys2Proof.Machine

/-- The parts of the state that are the host's to write: CMD, CONFIG, the threshold, with the parameters and the
host's queue. -/
def State.hostSettings (s : State) : Word × Bool × Half × Config × HostPort :=
  (s.cmd, s.crcStrict, s.ccaThreshold, s.cfg, s.port)

/-- The operands of a command, ARG0 to ARG3. -/
def State.args (s : State) : Word × Word × Word × Word := (s.arg0, s.arg1, s.arg2, s.arg3)

@[simp] theorem State.setBuf_hostSettings (s : State) (sel : BufSel) (b : Buffer) :
    (s.setBuf sel b).hostSettings = s.hostSettings := by cases sel <;> rfl

@[simp] theorem State.setBuf_args (s : State) (sel : BufSel) (b : Buffer) : (s.setBuf sel b).args = s.args := by
  cases sel <;> rfl

namespace CommandEffect

variable {i : Instr} {s u : State}

theorem hostSettings_eq (e : CommandEffect s i u) : u.hostSettings = s.hostSettings := by
  cases e with
  | pushed | popped | emptied => exact State.setBuf_hostSettings ..
  | _ => rfl

theorem args_eq (e : CommandEffect s i u) (hreset : i ≠ .softReset) : u.args = s.args := by
  cases e with
  | reset => exact absurd rfl hreset
  | pushed | popped | emptied => exact State.setBuf_args ..
  | _ => rfl

end CommandEffect

theorem exec_hostSettings {i : Instr} {s t : State} (h : exec i s = .next t) : t.hostSettings = s.hostSettings := by
  obtain ⟨u, e, heq⟩ := exec_endsIn h
  exact (eq_of_prologue_eq heq State.hostSettings fun _ => rfl).trans e.hostSettings_eq

theorem exec_args {i : Instr} {s t : State} (h : exec i s = .next t) (hreset : i ≠ .softReset) : t.args = s.args := by
  obtain ⟨u, e, heq⟩ := exec_endsIn h
  exact (eq_of_prologue_eq heq State.args fun _ => rfl).trans (e.args_eq hreset)

end Sys2Proof.Machine
end

section
/-! The obligations of 60_exceptions.md. -/

namespace Sys2Proof.Proofs

open Sys2Proof.Machine

/-- Settles O54: a silent error is raised from the prologue, before the command writes anything. -/
theorem errorsLeaveNothingBehind : Obligations.ErrorsLeaveNothingBehind :=
  fun _ _ _ h => (exec_endsWithItsCode h).silent

/-- Settles O55: a command always completes, and its rule raises only codes listed for it. -/
theorem commandCompletesWithItsCodes : Obligations.CommandCompletesWithItsCodes := by
  intro i s
  obtain ⟨t, h⟩ := exec_completes i s
  exact ⟨t, h, (exec_endsWithItsCode h).listed⟩

/-- Settles O56: no case of `CommandEffect` touches the host's settings, and only SOFT_RESET touches the operands. -/
theorem commandsKeepHostSettings : Obligations.CommandsKeepHostSettings := by
  intro i s t h
  have hsettings := exec_hostSettings h
  simp only [State.hostSettings, Prod.mk.injEq] at hsettings
  obtain ⟨hcmd, hstrict, hthreshold, hcfg, hport⟩ := hsettings
  refine ⟨hcmd, hstrict, hthreshold, hcfg, hport, fun hreset => ?_⟩
  simpa only [State.args, Prod.mk.injEq] using exec_args h hreset

end Sys2Proof.Proofs
end

section
/-! The invariant at power-on: both buffers are empty, nothing of LMEM is written, and the seeds lie inside their
registers (40_byte_framer.md R104; 70_reset_and_hazards.md R301). -/

namespace Sys2Proof.Machine

theorem paramsValid_p0 : paramsValid p0 = true := by decide +kernel

theorem State.Inv.powerOn {c : Config} (hparams : paramsValid c = true) : (State.powerOn c).Inv :=
  have h := validParams hparams
  { params := hparams
    lmem := memWf_nil _
    cmdBuf := bufWf_powerOn (Nat.lt_of_lt_of_le (by decide) h.cmdCap.1)
    dataBuf := bufWf_powerOn (Nat.lt_of_lt_of_le (by decide) h.dataCap.1)
    scrTx := h.scrTxSeed
    scrRx := h.scrRxSeed
    txStage := .inl rfl }

end Sys2Proof.Machine
end

section
/-! The obligations of 70_reset_and_hazards.md. -/

namespace Sys2Proof.Proofs

open Sys2Proof.Machine

/-- Settles O59: power-on is a good state for valid parameters, and the reset state is power-on at P0. -/
theorem invariantAtReset : Obligations.InvariantAtReset :=
  ⟨.powerOn paramsValid_p0, fun _ => .powerOn⟩

end Sys2Proof.Proofs
end
